-- ==== Sys2Proof/Word.lean ====
section
/-! DEFINITION. Word.lean: the machine word, the byte, and the two small shapes of data the butterfly
works on (spec 00_scope R12, R13; 41_stage_a R121).  Nothing here computes. -/

namespace Sys2Proof

/-- A 32-bit register or command word (R20, R80), and a binary32 bit pattern (R14). -/
abbrev Word := BitVec 32

/-- The smallest addressable unit of the memory space (R60). -/
abbrev Byte := BitVec 8

/-- The seven inputs `a0 … a6` of one butterfly (R120, R121). -/
structure Seven (α : Type) where
  a0 : α
  a1 : α
  a2 : α
  a3 : α
  a4 : α
  a5 : α
  a6 : α
  deriving DecidableEq, Repr

/-- The four outputs `T0 … T3` of one butterfly, index ascending with frequency (R121, C2). -/
structure Quad (α : Type) where
  t0 : α
  t1 : α
  t2 : α
  t3 : α
  deriving DecidableEq, Repr

end Sys2Proof
end

