-- ==== Sys2Proof/Config.lean ====
section
/-! DEFINITION. Config.lean: the implementation parameters of R10 and I5, as plain data that a state
carries and no step changes, and the free values of 93_implementation_defined: constants without a
body, so that nothing can be proved of the value drawn.  A draw is one of these constants applied to
a counter of State. -/

namespace Sys2Proof

/-- One range of byte addresses at which the platform answers an access with a bus error
(R76, I5).  Every platform predicate over the memory space is a finite list of such ranges. -/
structure FaultRange where
  /-- the first address of the range -/
  first : Nat
  /-- the last address of the range -/
  last : Nat
  /-- reads at these addresses get an error response -/
  onRead : Bool
  /-- writes at these addresses get an error response -/
  onWrite : Bool
  deriving DecidableEq, Repr

/-- The parameters of R10, fixed for the life of a core, and the platform predicate `BUS_FAULT` of I5.
Where the spec leaves a value OPEN the state carries it, so that a statement over every state is a
statement over every value (log entry 1). -/
structure Params where
  /-- `MAX_WIDTH` (R10, R22) -/
  maxWidth : Nat
  /-- `SCRATCH_BYTES` (R10, R22, R46) -/
  scratchBytes : Nat
  /-- `FACTOR_ROM`: sixteen unsigned integers below `2^16` (R10, R38, R161) -/
  factorRom : Vector (BitVec 16) 16
  /-- `OUT_CLAMP`: false is the cast, true the clamp (R10, R180) -/
  outClamp : Bool
  /-- `REG_BASE`: where the register window stands on the host bus (R10, R20) -/
  regBase : Nat
  /-- `BUS_FAULT`: the ranges that answer with a bus error (I5) -/
  busFault : List FaultRange
  deriving DecidableEq, Repr

/-- `ADDR_W`, fixed by R10: the width of a memory address in bits. -/
def Config.addrW : Nat := 32

/-- How many draws one command, or one access of a `RUN`, may take from the free values: the counter
of State moves on by this much, so that no draw is used twice (log entry 2). -/
def Config.drawStride : Nat := 1024

/-- FREE VALUE (I7): sign (bit 22) and payload (bits 21..0) of a NaN that a float operation makes. -/
opaque Config.freeNaN : Nat → BitVec 23

/-- FREE VALUE (I3): the value of `CVT_U32` for a NaN, an infinity, or `|trunc(b)| ≥ 2^63`. -/
opaque Config.freeCvt : Nat → Word

/-- FREE VALUE (I4, I9, I11): the bytes of a write that got a bus error or that reset cut short, and
a sample that a host write tore. -/
opaque Config.freeMem : Nat → Word

/-- FREE VALUE (I11): which of the allowed values a `RUN` reads from a sample that the host wrote. -/
opaque Config.freePick : Nat → Nat

/-- FREE VALUE (I10, I11): what a host read sees while a command executes, where the spec leaves that
open: its lowest bit chooses between the old and the new value of a register, and the whole of it stands
for a read of memory that tears samples. -/
opaque Config.freeSeen : Nat → Word

end Sys2Proof
end

