-- ==== Sys2Proof/Machine/Arith.lean ====
section
/-! DEFINITION. Machine/Arith.lean: the exact integer primitives of 00_scope R13, and the integer square
root that 45_control R204 uses. -/

namespace Sys2Proof.Machine

/-- `u32(a)`: `a mod 2^32` as an unsigned value (R13). -/
def u32 (a : Int) : Nat := (a % 2 ^ 32).toNat

/-- `a >> n`: `floor(a / 2^n)`, also for negative `a` (R13). -/
def shiftRightFloor (a : Int) (n : Nat) : Int := a / 2 ^ n

/-- One pass of the bitwise square root: bits `k - 1 … 0` of the root of `n`, with the higher bits
already in `r`. -/
def isqrtBits (n : Nat) : Nat → Nat → Nat
  | 0, r => r
  | k + 1, r =>
    if (r + 2 ^ k) * (r + 2 ^ k) ≤ n then isqrtBits n k (r + 2 ^ k) else isqrtBits n k r

/-- `isqrt(n)`: the largest integer whose square is at most `n` (R204). -/
def isqrt (n : Nat) : Nat := isqrtBits n (Nat.log2 n / 2 + 1) 0

end Sys2Proof.Machine
end

