-- ==== Sys2Proof/Machine/Float.lean ====
section
/-! DEFINITION. Machine/Float.lean: IEEE 754 binary32 on bit patterns (00_scope R14; 10_state R45): one
rounding per operation, to nearest with ties to even, subnormals kept, no fused multiply-add, no flags.
A finite value is an integer number of units of `2^-149`, so sums and products are exact integers and
each operation rounds once, at its end.  An operation that makes a NaN makes a free quiet NaN, drawn at
the index `n` it is given (I7). -/

namespace Sys2Proof.Machine

/-- The sign bit of a pattern. -/
def fSign (w : Word) : Bool := w.getLsbD 31

/-- The biased exponent of a pattern. -/
def fExp (w : Word) : Nat := (w.extractLsb' 23 8).toNat

/-- The fraction of a pattern. -/
def fFrac (w : Word) : Nat := (w.extractLsb' 0 23).toNat

/-- The pattern is a NaN. -/
def isNaN (w : Word) : Bool := fExp w == 255 && fFrac w != 0

/-- The pattern is an infinity. -/
def isInf (w : Word) : Bool := fExp w == 255 && fFrac w == 0

/-- The magnitude of a finite pattern in units of `2^-149`. -/
def magUnits (w : Word) : Nat :=
  if fExp w = 0 then fFrac w else (2 ^ 23 + fFrac w) * 2 ^ (fExp w - 1)

/-- The value of a finite pattern in units of `2^-149`. -/
def valUnits (w : Word) : Int := if fSign w then -(magUnits w : Int) else (magUnits w : Int)

/-- The pattern with its sign bit turned: `-b`. -/
def fNeg (w : Word) : Word := w ^^^ 0x80000000#32

/-- The quiet NaN of draw `n`: exponent all ones, top fraction bit set, sign and payload free (I7). -/
def quietNaN (n : Nat) : Word :=
  (Config.freeNaN n).extractLsb' 22 1 ++ (0x1FF#9 ++ (Config.freeNaN n).extractLsb' 0 22)

/-- `q / 2^sh` rounded to the nearest integer, ties to even. -/
def roundShift (m sh : Nat) : Nat :=
  if 2 ^ sh < 2 * (m % 2 ^ sh) ∨ (2 * (m % 2 ^ sh) = 2 ^ sh ∧ m / 2 ^ sh % 2 = 1)
  then m / 2 ^ sh + 1
  else m / 2 ^ sh

/-- How many low bits of `m` lie below the last place of the result, when `m` counts units of
`2^-(149+k)`: at least `k`, because `2^-149` is the finest unit, and enough to leave 24 bits. -/
def dropBits (m k : Nat) : Nat := max k (Nat.log2 m + 1 - 24)

/-- The magnitude bits of `m` units of `2^-(149+k)`, rounded once: a significand `q` of at most `2^24` at
the last place `2^(g-149)` has the pattern `g·2^23 + q`, carries included; what does not fit is an
infinity. -/
def roundMag (m k : Nat) : Nat :=
  min ((dropBits m k - k) * 2 ^ 23 + roundShift m (dropBits m k)) 0x7F800000

/-- The pattern of sign `neg` and magnitude bits `p`. -/
def withSign (neg : Bool) (p : Nat) : Word :=
  if neg then BitVec.ofNat 32 (p + 2 ^ 31) else BitVec.ofNat 32 p

/-- The binary32 value nearest to `m` units of `2^-(149+k)` with sign `neg`. -/
def roundTo (neg : Bool) (m k : Nat) : Word := withSign neg (roundMag m k)

/-- `fadd(a, b)` (R14). -/
def fadd (n : Nat) (a b : Word) : Word :=
  if isNaN a || isNaN b then quietNaN n
  else if isInf a then if isInf b && fSign a != fSign b then quietNaN n else a
  else if isInf b then b
  else if valUnits a + valUnits b = 0 then
    if fSign a && fSign b then 0x80000000#32 else 0x00000000#32
  else roundTo (decide (valUnits a + valUnits b < 0)) (valUnits a + valUnits b).natAbs 0

/-- `fsub(a, b)` (R14): the sum with the other sign of `b`. -/
def fsub (n : Nat) (a b : Word) : Word := fadd n a (fNeg b)

/-- `fmul(a, b)` (R14). -/
def fmul (n : Nat) (a b : Word) : Word :=
  if isNaN a || isNaN b then quietNaN n
  else if isInf a || isInf b then
    if (!isInf a && magUnits a == 0) || (!isInf b && magUnits b == 0) then quietNaN n
    else withSign (fSign a != fSign b) 0x7F800000
  else roundTo (fSign a != fSign b) (magUnits a * magUnits b) 149

/-- `f32(k)`: the integer `k` rounded to binary32 (R14). -/
def f32 (k : Int) : Word := roundTo (decide (k < 0)) (k.natAbs * 2 ^ 149) 0

/-- `b > 0` on binary32: false for a NaN. -/
def fPos (w : Word) : Bool := !isNaN w && !fSign w && magUnits w != 0

/-- `b = 0` on binary32: both zeros. -/
def fZero (w : Word) : Bool := fExp w == 0 && fFrac w == 0

/-- `trunc(b)` for a finite `b`: toward zero (R13). -/
def truncInt (w : Word) : Int :=
  if fSign w then -((magUnits w / 2 ^ 149 : Nat) : Int) else ((magUnits w / 2 ^ 149 : Nat) : Int)

/-- `CVT_U32(b)` (R166): `trunc(b) mod 2^32`, and the free value of draw `n` where the spec leaves it
unspecified (I3). -/
def cvtU32 (n : Nat) (w : Word) : Nat :=
  if isNaN w || isInf w || decide (2 ^ 63 ≤ (truncInt w).natAbs) then (Config.freeCvt n).toNat
  else u32 (truncInt w)

end Sys2Proof.Machine
end

