-- ==== Sys2Proof/Syntax.lean ====
section
/-! DEFINITION. Syntax.lean: the commands of the core, one constructor for each row of
spec/opcode_table.json (30_encoding R83). -/

namespace Sys2Proof

/-- The commands of R83.  The only immediate operand is `qp` of `SETQP` (R82); every other operand is
read from a register when the command executes. -/
inductive Instr where
  /-- `NOP`, `OP = 0x0` (R203) -/
  | nop
  /-- `SETQP qp`, `OP = 0x1` (R204) -/
  | setqp (qp : Nat)
  /-- `RUN`, `OP = 0x2` (R206) -/
  | run
  /-- `DIAG_A`, `OP = 0x8` (R130) -/
  | diagA
  /-- `DIAG_B`, `OP = 0x9` (R145) -/
  | diagB
  /-- `DIAG_S`, `OP = 0xA` (R170) -/
  | diagS
  /-- `DIAG_Q`, `OP = 0xB` (R184) -/
  | diagQ
  /-- `XREAD`, `OP = 0xC` (R107) -/
  | xread
  deriving DecidableEq, Repr

end Sys2Proof
end

