-- ==== Sys2Proof/WellFormed.lean ====
section
/-! DEFINITION. WellFormed.lean: which terms stand for a command the encoding can hold, and which
parameter values R10 calls legal. -/

namespace Sys2Proof

/-- `SETQP` has a six-bit field (R82); its value 0 is encodable and raises `BAD_QP` when it executes
(R204).  No other command has an operand in its word. -/
def Instr.wf : Instr → Bool
  | .nop => true
  | .setqp qp => decide (qp < 64)
  | .run => true
  | .diagA => true
  | .diagB => true
  | .diagS => true
  | .diagQ => true
  | .xread => true

/-- The legal values of R10.  `FACTOR_ROM` needs no check: its entries are 16 bits wide by their type. -/
def Params.wf (p : Params) : Bool :=
  decide (p.maxWidth % 16 = 0) && decide (16 ≤ p.maxWidth) && decide (p.maxWidth ≤ 65520)
    && decide (1280 ≤ p.scratchBytes)

end Sys2Proof
end

