-- ==== Sys2Proof/Decode.lean ====
section
/-! DEFINITION. Decode.lean: a command word to the command it stands for, or the reason it is illegal
(30_encoding R80 to R86, 45_control R201); then the encoder, from the same table. -/

namespace Sys2Proof

/-- Why a word is illegal (R84, R85).  All of them raise `ILLEGAL_CMD` (R225). -/
inductive IllegalCmd where
  /-- `RSV0` or `RSV1` is not 0 (R85) -/
  | reservedBits
  /-- `OP` is `0x3`–`0x7` or `0xD`–`0xF` (R84) -/
  | reservedOpcode
  /-- `QP` is not 0 in a command other than `SETQP` (R85) -/
  | qpFieldInUse
  deriving DecidableEq, Repr

/-- `OP`, bits 3:0 (R80). -/
def opField (w : Word) : Nat := (w.extractLsb' 0 4).toNat

/-- `RSV0`, bits 7:4 (R80). -/
def rsv0Field (w : Word) : Nat := (w.extractLsb' 4 4).toNat

/-- `QP`, bits 13:8, zero-extended (R80, R82). -/
def qpField (w : Word) : Nat := (w.extractLsb' 8 6).toNat

/-- `RSV1`, bits 31:14 (R80). -/
def rsv1Field (w : Word) : Nat := (w.extractLsb' 14 18).toNat

/-- A row of R83 whose `QP` field must be 0. -/
def withoutQp (w : Word) (i : Instr) : Except IllegalCmd Instr :=
  if qpField w = 0 then .ok i else .error .qpFieldInUse

/-- The decode step of R201: every word is exactly one row of R83 or illegal (R86). -/
def decode (w : Word) : Except IllegalCmd Instr :=
  if rsv0Field w ≠ 0 ∨ rsv1Field w ≠ 0 then .error .reservedBits
  else
    match opField w with
    | 0x0 => withoutQp w .nop
    | 0x1 => .ok (.setqp (qpField w))
    | 0x2 => withoutQp w .run
    | 0x8 => withoutQp w .diagA
    | 0x9 => withoutQp w .diagB
    | 0xA => withoutQp w .diagS
    | 0xB => withoutQp w .diagQ
    | 0xC => withoutQp w .xread
    | _ => .error .reservedOpcode

/-- The word of a command (R83): the opcode in bits 3:0, `qp` of `SETQP` in bits 13:8, 0 elsewhere. -/
def encode : Instr → Word
  | .nop => 0x00000000#32
  | .setqp qp => BitVec.ofNat 32 (0x00000001 + qp * 2 ^ 8)
  | .run => 0x00000002#32
  | .diagA => 0x00000008#32
  | .diagB => 0x00000009#32
  | .diagS => 0x0000000A#32
  | .diagQ => 0x0000000B#32
  | .xread => 0x0000000C#32

/-- The bits of a table row as a command word: a command is one 32-bit word (R81), so bits above
`nbits` are 0 and nothing lies above bit 31. -/
def commandWord (nbits w : Nat) : Word := BitVec.ofNat 32 (w % 2 ^ nbits)

/-- What the decoder reads from a row of spec/opcode_table.json. -/
def decodeTableWord (nbits w : Nat) : Option Instr :=
  match decode (commandWord nbits w) with
  | .ok i => some i
  | .error _ => none

end Sys2Proof
end

