-- ==== Sys2Proof/Machine/Factor.lean ====
section
/-! DEFINITION. Machine/Factor.lean: the default value of the parameter `FACTOR_ROM` (43_scorer R161). -/

namespace Sys2Proof.Machine

/-- The sixteen default factors in flat index order `i = 4·h + v` (R161). -/
def defaultFactorRom : Vector (BitVec 16) 16 :=
  #v[4096, 3276, 4096, 1638,
     3276, 2621, 3276, 1310,
     4096, 3276, 4096, 1638,
     1638, 1310, 1638, 655]

end Sys2Proof.Machine
end

