-- ==== Sys2Proof/Machine/State.lean ====
section
/-! DEFINITION. Machine/State.lean: everything the spec gives the machine, as plain data, and the
machine right after reset (10_state R20 to R48, 70_reset_and_hazards R250).  Register fields come
first, then the hidden state of R46 and R47, then the memory space of R48, then the model's own fields:
the host's stimuli, the answer to the last of them, and the bookkeeping of R261 and R263. -/

namespace Sys2Proof.Machine

/-- Why a step stops.  Commands never stop the machine: an error of a command is a next state (R226). -/
inductive Fault where
  /-- Raised by a host access to memory whose last byte lies at or above `2^32`: the memory space has
  no such address (R48, R60).  Safe: the access has no effect, and the core itself never makes one
  (R61, R207). -/
  | hostAddressOutsideMemory
  deriving DecidableEq, Repr

/-- Why a step has no meaning.  Every command of the table has one, so no step of this model refuses. -/
inductive Refusal where
  /-- Raised by an arm of `exec` for an instruction without a meaning; no arm does.  Safe. -/
  | notModelled (mnemonic : String)
  deriving DecidableEq, Repr

/-- The error codes of R220.  Codes 10 to 255 are never written, so there is no constructor for them. -/
inductive ErrCode where
  | none
  | illegalCmd
  | badFormat
  | badQp
  | badGeometry
  | capacity
  | noThr
  | notExtended
  | badIndex
  | busError
  deriving DecidableEq, Repr

/-- The fields of `STATUS` (R24); its reserved bits read as 0 and have no storage. -/
structure Status where
  /-- bit 0 `BUSY` -/
  busy : Bool
  /-- bit 1 `DONE` -/
  done : Bool
  /-- bit 2 `ERR` -/
  err : Bool
  /-- bit 3 `WOVR` -/
  wovr : Bool
  /-- bit 4 `THR_VALID` -/
  thrValid : Bool
  /-- bit 5 `EXT_VALID` -/
  extValid : Bool
  /-- bits 15:8 `ERRCODE` -/
  errCode : ErrCode
  deriving DecidableEq, Repr

/-- The fields of `IE` (R26). -/
structure IrqEnable where
  /-- bit 0 `DONE_IE` -/
  doneIe : Bool
  /-- bit 1 `ERR_IE` -/
  errIe : Bool
  deriving DecidableEq, Repr

/-- The stored fields of `FMT` (R27): any values, legal or not. -/
structure Fmt where
  /-- bits 1:0 `STYPE` -/
  stype : BitVec 2
  /-- bits 13:8 `BITS` -/
  bits : BitVec 6
  deriving DecidableEq, Repr

/-- A value of the datapath: an integer in the integer domain, a binary32 pattern in the float domain
(R3, R47). -/
inductive Coef where
  | int (z : Int)
  | flt (w : Word)
  deriving DecidableEq, Repr

/-- The sequencer's phase (R44, R47).  `issued` is the time between the issue of a command and its
execution; `extend` and `filter` are the two phases of a `RUN` (R206). -/
inductive Phase where
  | idle
  | issued
  | extend
  | filter
  deriving DecidableEq, Repr

/-- One access of the memory master port (R60): its direction, byte address and width in bytes. -/
structure PortAccess where
  write : Bool
  addr : Nat
  width : Nat
  deriving DecidableEq, Repr

/-- A host write to memory made while a command executes: where, how wide, and what those bytes held
before it (R263). -/
structure HostRace where
  addr : Nat
  width : Nat
  old : Word
  deriving DecidableEq, Repr

/-- The widths of a host access to memory (R88): `mw8`, `mw16`, `mw32` and the reads. -/
inductive MemWidth where
  | b1
  | b2
  | b4
  deriving DecidableEq, Repr

/-- What the outside world can do to the core: the basic statements of R88, and the reset input (R250).
`addr` of a register access is an address on the host bus, where the window stands at `REG_BASE` (R20);
`width` is in bytes. -/
inductive HostAct where
  | regWrite (addr width : Nat) (data : Word)
  | regRead (addr width : Nat)
  | memWrite (addr : Nat) (width : MemWidth) (data : Word)
  | memRead (addr : Nat) (width : MemWidth)
  | resetCore
  deriving DecidableEq, Repr

/-- One stimulus, and how far the core gets before the next one: `none` says that the command in flight
completes first, `some n` that it makes `n` sequencer steps (R202, R270: any finite time). -/
structure HostEvent where
  act : HostAct
  pause : Option Nat
  deriving DecidableEq, Repr

/-- What the host saw on its bus in answer to its last access (R20, R23, R88). -/
inductive HostResponse where
  /-- no access was served, or it was not addressed to this core -/
  | silent
  /-- a register write, performed, ignored or dropped -/
  | written
  /-- a register read and its value -/
  | value (w : Word)
  /-- the bus error response of R20 -/
  | busError
  /-- a write to memory -/
  | memWritten
  /-- a read of memory and its value -/
  | memValue (w : Word)
  deriving DecidableEq, Repr

/-- The memory space of R60: the bytes that differ from what an unlisted address reads as, by strictly
rising address. -/
abbrev Memory := List Host.Cell

/-- The whole machine. -/
structure State where
  /-- the parameters `MAX_WIDTH`, `SCRATCH_BYTES`, `FACTOR_ROM`, `OUT_CLAMP`, `REG_BASE`, `BUS_FAULT`
  (R10, R22, R38, I5); no step changes them -/
  params : Params
  /-- `CMD`, offset `0x010` (R23) -/
  cmd : Word
  /-- `STATUS`, offset `0x014` (R24) -/
  status : Status
  /-- `IE`, offset `0x018` (R26) -/
  ie : IrqEnable
  /-- `QP`, offset `0x01C` (R30) -/
  qp : BitVec 6
  /-- `FMT`, offset `0x020` (R27) -/
  fmt : Fmt
  /-- `WIDTH`, offset `0x024` (R31) -/
  width : BitVec 16
  /-- `HEIGHT`, offset `0x028` (R31) -/
  height : BitVec 16
  /-- `ERRADDR`, offset `0x02C` (R33) -/
  errAddr : Word
  /-- `SRC_BASE`, offset `0x030` (R34) -/
  srcBase : Word
  /-- `SRC_STRIDE`, offset `0x034` (R34) -/
  srcStride : Word
  /-- `DST_BASE`, offset `0x038` (R35) -/
  dstBase : Word
  /-- `DST_STRIDE`, offset `0x03C` (R35) -/
  dstStride : Word
  /-- `THR[0..15]`, offsets `0x040`–`0x07C` (R36) -/
  thr : Vector Word 16
  /-- `DI[0..27]`, offsets `0x100`–`0x16C` (R39) -/
  di : Vector Word 28
  /-- `DO[0..15]`, offsets `0x180`–`0x1BC` (R40) -/
  dout : Vector Word 16
  /-- `ACC_LO`, offset `0x1C0` (R41) -/
  accLo : Word
  /-- `ACC_HI`, offset `0x1C4` (R41) -/
  accHi : Word
  /-- the border-extended buffer `E`: element `(r, c)` at index `r·(W+16) + c`, each the `S`-byte
  sample zero-extended (R46, R101) -/
  ext : List Word
  /-- the Stage-A intermediate store `COLC[j][0..3]`, slot `j` at index `j` (R47, R124) -/
  colc : List (Quad Coef)
  /-- the coefficient block of the current output sample (R47, R142) -/
  block : Vector Coef 16
  /-- the running accumulator `v` (R47) -/
  accV : Coef
  /-- the sequencer's phase (R47) -/
  phase : Phase
  /-- the sequencer's row index `y` (R47) -/
  row : Nat
  /-- the sequencer's column index `x` (R47) -/
  col : Nat
  /-- the memory space (R48, R60) -/
  mem : Memory
  /-- MODEL: the accesses the port issued since the last issue of a command, newest first (R60, R68) -/
  port : List PortAccess
  /-- MODEL: the host writes to memory since the last issue of a command, newest first (R263) -/
  races : List HostRace
  /-- MODEL: the stimuli still to come, the next one first (R19, R236) -/
  script : List HostEvent
  /-- MODEL: what the host saw in answer to its last access (R20) -/
  response : HostResponse
  /-- MODEL: the counter of the free values a command draws (I3, I4, I7, I9, I11) -/
  drawn : Nat
  /-- MODEL: the counter of the free values a host read draws (I10, I11) -/
  seen : Nat
  deriving DecidableEq, Repr

/-- The parameter values of the core that `State.reset` describes: `FACTOR_ROM`, `OUT_CLAMP` and
`BUS_FAULT` at the spec's defaults (R10, I5), the OPEN ones at values of the model (DESIGN CHOICE, log
entry 1). -/
def defaultParams : Params where
  maxWidth := 1024
  scratchBytes := 4359680
  factorRom := defaultFactorRom
  outClamp := false
  regBase := 0
  busFault := []

/-- The machine right after reset (R250): every register of R42 at its reset value, the sequencer idle,
no command executing, no access on the port.  `E`, `COLC`, `block` and `v` are unspecified there and no
rule reads them; they hold zeros (DESIGN CHOICE, log entry 3).  Memory lists nothing. -/
def State.reset : State where
  params := defaultParams
  cmd := 0
  status := ⟨false, false, false, false, false, false, .none⟩
  ie := ⟨false, false⟩
  qp := 0
  fmt := ⟨0, 0⟩
  width := 0
  height := 0
  errAddr := 0
  srcBase := 0
  srcStride := 0
  dstBase := 0
  dstStride := 0
  thr := Vector.replicate 16 0
  di := Vector.replicate 28 0
  dout := Vector.replicate 16 0
  accLo := 0
  accHi := 0
  ext := []
  colc := []
  block := Vector.replicate 16 (.int 0)
  accV := .int 0
  phase := .idle
  row := 0
  col := 0
  mem := []
  port := []
  races := []
  script := []
  response := .silent
  drawn := 0
  seen := 0

end Sys2Proof.Machine
end

