-- ==== Sys2Proof/Machine/Flags.lean ====
section
/-! DEFINITION. Machine/Flags.lean: the `STATUS` word, its write-1-to-clear bits, `IE`, and the interrupt
output (10_state R24 to R26, R45; 60_exceptions R220, R230). -/

namespace Sys2Proof.Machine

/-- The numbers of the error codes (R220). -/
def errNumber : ErrCode → Nat
  | .none => 0
  | .illegalCmd => 1
  | .badFormat => 2
  | .badQp => 3
  | .badGeometry => 4
  | .capacity => 5
  | .noThr => 6
  | .notExtended => 7
  | .badIndex => 8
  | .busError => 9

/-- The word `STATUS` reads as (R24). -/
def statusWord (st : Status) : Word :=
  BitVec.ofNat 32
    (st.busy.toNat + 2 * st.done.toNat + 4 * st.err.toNat + 8 * st.wovr.toNat
      + 16 * st.thrValid.toNat + 32 * st.extValid.toNat + 256 * errNumber st.errCode)

/-- A host write of `w` to `STATUS` (R25): bits 1, 2 and 3 clear `DONE`, `ERR` and `WOVR`; every other
bit of `w` is ignored. -/
def statusClear (w : Word) (st : Status) : Status :=
  { st with
    done := st.done && !w.getLsbD 1
    err := st.err && !w.getLsbD 2
    wovr := st.wovr && !w.getLsbD 3 }

/-- The word `IE` reads as (R26). -/
def ieWord (ie : IrqEnable) : Word := BitVec.ofNat 32 (ie.doneIe.toNat + 2 * ie.errIe.toNat)

/-- What a write of `w` leaves in `IE` (R26). -/
def ieOfWord (w : Word) : IrqEnable := ⟨w.getLsbD 0, w.getLsbD 1⟩

/-- The interrupt output (R230): level-sensitive, a function of the current registers. -/
def State.irq (s : State) : Bool :=
  (s.status.done && s.ie.doneIe) || (s.status.err && s.ie.errIe)

end Sys2Proof.Machine
end

