-- ==== Sys2Proof/Machine/Memory.lean ====
section
/-! DEFINITION. Machine/Memory.lean: the byte-addressed memory space (20_memory R60, R62 to R64): one
byte, and little-endian groups of bytes. -/

namespace Sys2Proof.Machine

/-- What an address that the memory does not list reads as.  The spec gives no contents of memory after
power-on (DESIGN CHOICE, log entry 4). -/
def unlistedByte : Byte := 0

/-- The byte at an address. -/
def readByte : Memory → Nat → Byte
  | [], _ => unlistedByte
  | (k, b) :: m, a => if k = a then b else readByte m a

/-- The memory with one byte written, in canonical form if the memory was. -/
def writeByte : Memory → Nat → Byte → Memory
  | [], a, v => if v = unlistedByte then [] else [(a, v)]
  | (k, b) :: m, a, v =>
    if a < k then
      if v = unlistedByte then (k, b) :: m else (a, v) :: (k, b) :: m
    else if a = k then
      if v = unlistedByte then m else (k, v) :: m
    else (k, b) :: writeByte m a v

/-- The canonical form: addresses strictly rising, all at or above `lo`, and no entry equal to what an
unlisted address reads as. -/
def wfFrom : Nat → Memory → Bool
  | _, [] => true
  | lo, (k, b) :: m => decide (lo ≤ k) && decide (b ≠ unlistedByte) && wfFrom (k + 1) m

/-- The canonical form of a memory. -/
def Memory.wf (m : Memory) : Bool := wfFrom 0 m

/-- `Σ byte[a+k]·2^(8k)` over the `n` bytes from `a` (R62). -/
def readLE (m : Memory) (a : Nat) : Nat → Nat
  | 0 => 0
  | n + 1 => (readByte m a).toNat + 256 * readLE m (a + 1) n

/-- Byte `(w >> 8k) mod 2^8` to address `a + k`, for the `n` bytes from `a` (R63). -/
def writeLE (m : Memory) (a : Nat) : Nat → Nat → Memory
  | 0, _ => m
  | n + 1, w => writeLE (writeByte m a (BitVec.ofNat 8 w)) (a + 1) n (w / 256)

/-- `MemRead(a, n)` for `n ≤ 4` (R62), as a word. -/
def memRead (m : Memory) (a n : Nat) : Word := BitVec.ofNat 32 (readLE m a n)

/-- `MemWrite(a, n, w)` (R63). -/
def memWrite (m : Memory) (a n : Nat) (w : Word) : Memory := writeLE m a n w.toNat

/-- Two accesses have a byte in common. -/
def overlaps (a n b k : Nat) : Bool := decide (a < b + k) && decide (b < a + n)

/-- `BUS_FAULT(addr, is_write)` (R76, I5). -/
def busFaultAt (p : Params) (a : Nat) (write : Bool) : Bool :=
  p.busFault.any fun r =>
    decide (r.first ≤ a) && decide (a ≤ r.last) && (if write then r.onWrite else r.onRead)

/-- The bytes of a host access to memory (R88). -/
def widthBytes : MemWidth → Nat
  | .b1 => 1
  | .b2 => 2
  | .b4 => 4

end Sys2Proof.Machine
end

