-- ==== Sys2Proof/Machine/Ops.lean ====
section
/-! DEFINITION. Machine/Ops.lean: the named operations every command shares: issue, the two ways a command
completes, the draw of free values, and the accesses of the memory master port (45_control R200, R202;
60_exceptions R226; 20_memory R60, R68, R76).  The core has no trap: `raiseError` is all that an error
does, and there is no return from one (R233, R234). -/

namespace Sys2Proof.Machine

/-- Issue of the command word `w` (R200), in one step.  The bookkeeping of the port and of the host's
writes to memory starts afresh. -/
def issue (w : Word) (s : State) : State :=
  { s with
    cmd := w
    status := { s.status with busy := true, done := false, err := false, errCode := .none }
    errAddr := 0
    phase := .issued
    port := []
    races := [] }

/-- Completion without error (R202 a): `DONE` is set and `BUSY` cleared in the same step. -/
def complete (s : State) : State :=
  { s with status := { s.status with busy := false, done := true }, phase := .idle }

/-- `raise Error(code, addr)` (R226, R202 b): the command ends at once. -/
def raiseError (code : ErrCode) (addr : Word) (s : State) : State :=
  { s with
    status := { s.status with busy := false, err := true, errCode := code }
    errAddr := addr
    phase := .idle }

/-- The free values a command may have drawn are used up: the next command draws others (log entry 2). -/
def drawOn (s : State) : State := { s with drawn := s.drawn + Config.drawStride }

/-- The port issues one access (R60). -/
def portIssue (write : Bool) (a n : Nat) (s : State) : State :=
  { s with port := ⟨write, a, n⟩ :: s.port }

/-- A write of the port to memory, performed whole (R63, R66). -/
def storeSample (a n : Nat) (w : Word) (s : State) : State := { s with mem := memWrite s.mem a n w }

/-- The first of the written value and the values before the host's writes, by the free choice of draw
`n`: the old or the new value of a sample that the host wrote while the `RUN` was busy (R263, I11). -/
def pickOf (n : Nat) (now : Word) (olds : List Word) : Word :=
  (now :: olds).getD (Config.freePick n % (olds.length + 1)) now

/-- The value the port reads from the `n` bytes at `a` (R62, R66).  Where the host wrote there while the
command was busy, R263 leaves the old or the new value, or any value if the host's access was not one
aligned access of the same width (I11). -/
def loadSample (draw a n : Nat) (s : State) : Word :=
  let hits := s.races.filter fun r => overlaps r.addr r.width a n
  if hits.isEmpty then memRead s.mem a n
  else if hits.all fun r => r.addr == a && r.width == n then
    pickOf draw (memRead s.mem a n) (hits.map (·.old))
  else BitVec.ofNat 32 ((Config.freeMem draw).toNat % 2 ^ (8 * n))

end Sys2Proof.Machine
end

