-- ==== Sys2Proof/Machine/Operands.lean ====
section
/-! DEFINITION. Machine/Operands.lean: what a command reads: the sample format and what follows from it,
the geometry, the sample addresses, the operand registers and the buffer coordinates (00_scope R16;
10_state R27, R28, R31, R39, R41; 20_memory R61). -/

namespace Sys2Proof.Machine

/-- The legal formats of R28: `U8` with 8 bits, `U16` with 9 to 16, `F32` with 32. -/
inductive SampleFormat where
  | u8
  | u16 (bits : Nat)
  | f32
  deriving DecidableEq, Repr

/-- The format that `FMT` describes, and `none` where `fmt_ok` is false (R28). -/
def formatOf (f : Fmt) : Option SampleFormat :=
  if f.stype = 0 ∧ f.bits.toNat = 8 then some .u8
  else if f.stype = 1 ∧ 9 ≤ f.bits.toNat ∧ f.bits.toNat ≤ 16 then some (.u16 f.bits.toNat)
  else if f.stype = 2 ∧ f.bits.toNat = 32 then some .f32
  else none

/-- `S`, the sample size in bytes (R27). -/
def sampleBytes : SampleFormat → Nat
  | .u8 => 1
  | .u16 _ => 2
  | .f32 => 4

/-- `peak` (R27). -/
def peakOf : SampleFormat → Nat
  | .u8 => 255
  | .u16 bits => 2 ^ bits - 1
  | .f32 => 255

/-- `DOM = FLT` (R27). -/
def isFloat : SampleFormat → Bool
  | .u8 => false
  | .u16 _ => false
  | .f32 => true

/-- `W` (R16). -/
def State.planeW (s : State) : Nat := s.width.toNat

/-- `H` (R16). -/
def State.planeH (s : State) : Nat := s.height.toNat

/-- `BASE + y·STRIDE + x·S`, exactly (R61). -/
def sampleAddr (base stride : Word) (bytes y x : Nat) : Nat :=
  base.toNat + y * stride.toNat + x * bytes

/-- `src_addr(y, x)` (R61). -/
def srcAddr (f : SampleFormat) (s : State) (y x : Nat) : Nat :=
  sampleAddr s.srcBase s.srcStride (sampleBytes f) y x

/-- `dst_addr(y, x)` (R61). -/
def dstAddr (f : SampleFormat) (s : State) (y x : Nat) : Nat :=
  sampleAddr s.dstBase s.dstStride (sampleBytes f) y x

/-- `DI[i]` (R39); no command names an entry above 27. -/
def State.diAt (s : State) (i : Nat) : Word := s.di[i]?.getD 0

/-- `sext_32(DI[i])` (R39). -/
def State.diInt (s : State) (i : Nat) : Int := (s.diAt i).toInt

/-- `ACC = {ACC_HI, ACC_LO}` (R41). -/
def State.acc (s : State) : BitVec 64 := s.accHi ++ s.accLo

/-- `DI[a], DI[a+d], …, DI[a+6d]` as integers. -/
def State.diSevenInt (s : State) (a d : Nat) : Seven Int :=
  ⟨s.diInt a, s.diInt (a + d), s.diInt (a + 2 * d), s.diInt (a + 3 * d), s.diInt (a + 4 * d),
    s.diInt (a + 5 * d), s.diInt (a + 6 * d)⟩

/-- `DI[a], DI[a+d], …, DI[a+6d]` as binary32. -/
def State.diSevenFlt (s : State) (a d : Nat) : Seven Word :=
  ⟨s.diAt a, s.diAt (a + d), s.diAt (a + 2 * d), s.diAt (a + 3 * d), s.diAt (a + 4 * d),
    s.diAt (a + 5 * d), s.diAt (a + 6 * d)⟩

end Sys2Proof.Machine
end

