-- ==== Sys2Proof/Machine/PlaneBuffer.lean ====
section
/-! DEFINITION. Machine/PlaneBuffer.lean: the border-extended buffer `E` and the Stage-A store as
sequences of elements, the mirror of one row and of the rows above and below (40_plane_buffer R101 to
R103), and the meaning of `XREAD` (R107). -/

namespace Sys2Proof.Machine

/-- The sequence with element `i` set to `v`; elements never written before hold `d`. -/
def setPad {α : Type} (d : α) : List α → Nat → α → List α
  | [], 0, v => [v]
  | [], i + 1, v => d :: setPad d [] i v
  | _ :: l, 0, v => v :: l
  | a :: l, i + 1, v => a :: setPad d l i v

/-- The row pitch of `E` in elements (R101). -/
def extPitch (W : Nat) : Nat := W + 16

/-- `E[r][c]` of a buffer of pitch `p` (R101). -/
def extAt (p : Nat) (e : List Word) (r c : Nat) : Word := e.getD (r * p + c) 0

/-- `E[r][c] <- v` in a buffer of pitch `p` (R101). -/
def extSet (p : Nat) (e : List Word) (r c : Nat) (v : Word) : List Word := setPad 0 e (r * p + c) v

/-- Left and right margin of buffer row `8 + y` at distance `k` (R102). -/
def mirrorCols (W y : Nat) (e : List Word) (k : Nat) : List Word :=
  let p := extPitch W
  let left := extSet p e (8 + y) (7 - k) (extAt p e (8 + y) (8 + k))
  extSet p left (8 + y) (8 + W + k) (extAt p left (8 + y) (8 + W - 1 - k))

/-- The margins of buffer row `8 + y` (R102). -/
def mirrorRow (W y : Nat) (e : List Word) : List Word := (List.range 8).foldl (mirrorCols W y) e

/-- Top and bottom margin element of column `c` at distance `k` (R102). -/
def mirrorCell (W H k : Nat) (e : List Word) (c : Nat) : List Word :=
  let p := extPitch W
  let top := extSet p e (7 - k) c (extAt p e (8 + k) c)
  extSet p top (H + 8 + k) c (extAt p top (H + 7 - k) c)

/-- The top and bottom margins, whole padded rows, margins included (R102). -/
def mirrorRows (W H : Nat) (e : List Word) : List Word :=
  (List.range 8).foldl (fun e k => (List.range (W + 16)).foldl (mirrorCell W H k) e) e

/-- `m(i, N)`: the plane index that buffer index `i` reflects (R103). -/
def mirrorIndex (i N : Nat) : Nat :=
  if i < 8 then 7 - i else if i < N + 8 then i - 8 else 2 * N + 7 - i

/-- `E[r][c]` of the state, for the current `W` (R101). -/
def State.extElem (s : State) (r c : Nat) : Word := extAt (extPitch s.planeW) s.ext r c

/-- `DO[0] <- w` (R40). -/
def setDout0 (w : Word) (s : State) : State := { s with dout := s.dout.set 0 w }

/-- `XREAD` (R107): one element of `E`, zero-extended. -/
def execXread (s : State) : Host.Outcome State Fault Refusal :=
  if s.status.extValid = false then .next (raiseError .notExtended 0 s)
  else if s.planeH + 16 ≤ (s.diAt 0).toNat ∨ s.planeW + 16 ≤ (s.diAt 1).toNat then
    .next (raiseError .badIndex 0 s)
  else .next (complete (setDout0 (s.extElem (s.diAt 0).toNat (s.diAt 1).toNat) s))

end Sys2Proof.Machine
end

