-- ==== Sys2Proof/Machine/Transform.lean ====
section
/-! DEFINITION. Machine/Transform.lean: the seven-input butterfly in both domains, Stage A with its
sliding schedule, Stage B, and the meanings of `DIAG_A` and `DIAG_B` (41_stage_a, 42_stage_b). -/

namespace Sys2Proof.Machine

/-- `BF_INT` (R121), in exact integers. -/
def bfInt (a : Seven Int) : Quad Int :=
  let p0 := a.a0 + a.a6
  let p1 := a.a1 + a.a5
  let p2 := a.a2 + a.a4
  let d := a.a3 + a.a3
  let s0 := d + p0
  let s3 := d - p0
  let s := p2 + p1
  let s2 := p2 - p1
  ⟨s0 + s, 2 * s3 + s2, s0 - s, s3 - 2 * s2⟩

/-- The binary32 value 255. -/
def flt255 : Word := 0x437F0000#32

/-- The pre-scale step of `BF_FLT`: a product with 255 where `scale = 255`, no operation where
`scale = 1` (R122). -/
def preScale (n scale : Nat) (w : Word) : Word := if scale = 255 then fmul n w flt255 else w

/-- How many draws one `BF_FLT` may take. -/
def bfDraws : Nat := 32

/-- `BF_FLT` (R122), one rounding per operation, in the order given there.  `n` is its first draw. -/
def bfFlt (n scale : Nat) (a : Seven Word) : Quad Word :=
  let p0 := preScale (n + 3) scale (fadd n a.a0 a.a6)
  let p1 := preScale (n + 4) scale (fadd (n + 1) a.a1 a.a5)
  let p2 := preScale (n + 5) scale (fadd (n + 2) a.a2 a.a4)
  let q := preScale (n + 6) scale a.a3
  let d := fadd (n + 7) q q
  let s0 := fadd (n + 8) d p0
  let s3 := fsub (n + 9) d p0
  let s := fadd (n + 10) p2 p1
  let s2 := fsub (n + 11) p2 p1
  ⟨fadd (n + 12) s0 s,
   fadd (n + 14) (fadd (n + 13) s3 s3) s2,
   fsub (n + 15) s0 s,
   fsub (n + 17) s3 (fadd (n + 16) s2 s2)⟩

/-- The integer of a datapath value; the store of an integer-domain `RUN` holds no other (R47). -/
def coefInt : Coef → Int
  | .int z => z
  | .flt _ => 0

/-- The pattern of a datapath value; the store of a float-domain `RUN` holds no other (R47). -/
def coefFlt : Coef → Word
  | .int _ => 0
  | .flt w => w

/-- A function at the seven inputs. -/
def sevenMap {α β : Type} (f : α → β) (a : Seven α) : Seven β :=
  ⟨f a.a0, f a.a1, f a.a2, f a.a3, f a.a4, f a.a5, f a.a6⟩

/-- A function at the four outputs. -/
def quadMap {α β : Type} (f : α → β) (q : Quad α) : Quad β := ⟨f q.t0, f q.t1, f q.t2, f q.t3⟩

/-- The seven elements of buffer column `c` in rows `r0 … r0 + 6` (R123). -/
def columnOf (p : Nat) (e : List Word) (r0 c : Nat) : Seven Word :=
  ⟨extAt p e r0 c, extAt p e (r0 + 1) c, extAt p e (r0 + 2) c, extAt p e (r0 + 3) c,
    extAt p e (r0 + 4) c, extAt p e (r0 + 5) c, extAt p e (r0 + 6) c⟩

/-- `STAGE_A(r0, c)` (R123): the samples as unsigned integers, or as binary32 with pre-scale 255. -/
def stageA (n : Nat) (flt : Bool) (p : Nat) (e : List Word) (r0 c : Nat) : Quad Coef :=
  if flt then quadMap .flt (bfFlt n 255 (columnOf p e r0 c))
  else quadMap .int (bfInt (sevenMap (fun w => (w.toNat : Int)) (columnOf p e r0 c)))

/-- A slot of the Stage-A store that nothing wrote. -/
def emptySlot : Quad Coef := ⟨.int 0, .int 0, .int 0, .int 0⟩

/-- `COLC[j]` (R124). -/
def slotAt (colc : List (Quad Coef)) (j : Nat) : Quad Coef := colc.getD j emptySlot

/-- `STAGE_A_GROUP(y, j - 8)` (R125): slots `j … j + 3` from buffer columns `j + 5 … j + 8`. -/
def stageAGroup (n : Nat) (flt : Bool) (p : Nat) (e : List Word) (y j : Nat)
    (colc : List (Quad Coef)) : List (Quad Coef) :=
  (List.range 4).foldl
    (fun cs i =>
      setPad emptySlot cs (j + i) (stageA (n + bfDraws * i) flt p e (y + 5) (j + i + 5))) colc

/-- The Stage-A work the schedule of R126 puts before Stage B of output `(y, x)`: the two lookahead
groups at the start of a row, and the group of `x` where `x mod 4 = 0`. -/
def stageASchedule (n : Nat) (flt : Bool) (p : Nat) (e : List Word) (y x : Nat)
    (colc : List (Quad Coef)) : List (Quad Coef) :=
  let primed :=
    if x = 0 then
      stageAGroup (n + 4 * bfDraws) flt p e y 4 (stageAGroup n flt p e y 0 colc)
    else colc
  if x % 4 = 0 then stageAGroup (n + 8 * bfDraws) flt p e y (x + 8) primed else primed

/-- The seven Stage-A results that Stage B of output column `x` reads, slots `x … x + 6` (R141). -/
def sevenSlots (colc : List (Quad Coef)) (x : Nat) : Seven (Quad Coef) :=
  ⟨slotAt colc x, slotAt colc (x + 1), slotAt colc (x + 2), slotAt colc (x + 3),
    slotAt colc (x + 4), slotAt colc (x + 5), slotAt colc (x + 6)⟩

/-- One butterfly of Stage B on datapath values: `scale = 1` (R141). -/
def stageBRow (n : Nat) (flt : Bool) (a : Seven Coef) : Quad Coef :=
  if flt then quadMap .flt (bfFlt n 1 (sevenMap coefFlt a))
  else quadMap .int (bfInt (sevenMap coefInt a))

/-- The block from the four butterflies `U^0 … U^3`: `block[4·h + k] = U^k_h` (R141, R142). -/
def blockOf {α : Type} (u0 u1 u2 u3 : Quad α) : Vector α 16 :=
  #v[u0.t0, u1.t0, u2.t0, u3.t0,
     u0.t1, u1.t1, u2.t1, u3.t1,
     u0.t2, u1.t2, u2.t2, u3.t2,
     u0.t3, u1.t3, u2.t3, u3.t3]

/-- `STAGE_B` on seven Stage-A results (R141). -/
def stageB (n : Nat) (flt : Bool) (a : Seven (Quad Coef)) : Vector Coef 16 :=
  blockOf
    (stageBRow n flt (sevenMap Quad.t0 a))
    (stageBRow (n + bfDraws) flt (sevenMap Quad.t1 a))
    (stageBRow (n + 2 * bfDraws) flt (sevenMap Quad.t2 a))
    (stageBRow (n + 3 * bfDraws) flt (sevenMap Quad.t3 a))

/-- `U_h mod 2^32` at the sixteen or four outputs of an integer diagnostic (R130, R145). -/
def wrapQuad (q : Quad Int) : Quad Word := quadMap (BitVec.ofInt 32) q

/-- `DO[0..3] <- T_0 … T_3` (R130). -/
def setDout4 (q : Quad Word) (s : State) : State :=
  { s with dout := (((s.dout.set 0 q.t0).set 1 q.t1).set 2 q.t2).set 3 q.t3 }

/-- `DO[0..15]`, all of them (R145). -/
def setDout16 (d : Vector Word 16) (s : State) : State := { s with dout := d }

/-- `DIAG_A` (R130). -/
def execDiagA (s : State) : Host.Outcome State Fault Refusal :=
  match formatOf s.fmt with
  | none => .next (raiseError .badFormat 0 s)
  | some f =>
    if isFloat f then
      .next (complete (drawOn (setDout4 (bfFlt s.drawn 255 (s.diSevenFlt 0 1)) s)))
    else .next (complete (setDout4 (wrapQuad (bfInt (s.diSevenInt 0 1))) s))

/-- `DIAG_B` (R145): `DI[4·n + k]` stands for `COLC[x + n][k]`. -/
def execDiagB (s : State) : Host.Outcome State Fault Refusal :=
  match formatOf s.fmt with
  | none => .next (raiseError .badFormat 0 s)
  | some f =>
    if isFloat f then
      .next (complete (drawOn (setDout16
        (blockOf
          (bfFlt s.drawn 1 (s.diSevenFlt 0 4))
          (bfFlt (s.drawn + bfDraws) 1 (s.diSevenFlt 1 4))
          (bfFlt (s.drawn + 2 * bfDraws) 1 (s.diSevenFlt 2 4))
          (bfFlt (s.drawn + 3 * bfDraws) 1 (s.diSevenFlt 3 4))) s)))
    else
      .next (complete (setDout16
        (blockOf
          (wrapQuad (bfInt (s.diSevenInt 0 4)))
          (wrapQuad (bfInt (s.diSevenInt 1 4)))
          (wrapQuad (bfInt (s.diSevenInt 2 4)))
          (wrapQuad (bfInt (s.diSevenInt 3 4)))) s))

end Sys2Proof.Machine
end

