-- ==== Sys2Proof/Machine/Scorer.lean ====
section
/-! DEFINITION. Machine/Scorer.lean: the threshold-and-accumulate scorer in both domains and the meaning
of `DIAG_S` (43_scorer). -/

namespace Sys2Proof.Machine

/-- The non-DC coefficients in ascending order (R162, R168). -/
def nonDc : List (Fin 16) := [1, 2, 3, 4, 5, 6, 7, 8, 9, 10, 11, 12, 13, 14, 15]

/-- The first test of R162 and R165, on the integer `b`: outside the noise band, in unsigned 32-bit
arithmetic (C3). -/
def outsideBand (b : Int) (t1 : Nat) : Bool := decide (u32 (b + t1) > u32 (2 * t1))

/-- The second test of R162 and R165: large. -/
def isLarge (b : Int) (t1 : Nat) : Bool :=
  decide (u32 (b + u32 (2 * t1)) > u32 (2 * (u32 (2 * t1) : Int)))

/-- What an integer coefficient adds to `v` (R162). -/
def contribInt (b : Int) (t1 factor : Nat) : Int :=
  if outsideBand b t1 then
    if isLarge b t1 then b * factor
    else 2 * b.sign * ((b.natAbs : Int) - t1) * factor
  else 0

/-- `SCORE_INT` (R162): `THR[0]` is not read. -/
def scoreInt (block : Vector Int 16) (thr : Vector Word 16) (factor : Vector (BitVec 16) 16) : Int :=
  nonDc.foldl (fun v i => v + contribInt block[i] thr[i].toNat factor[i].toNat)
    (block[0] * factor[0].toNat)

/-- The binary32 value 2. -/
def flt2 : Word := 0x40000000#32

/-- One coefficient of `SCORE_FLT` (R165): the sum `v` after it.  `n` is its first draw. -/
def addFlt (n : Nat) (v b : Word) (t1 factor : Nat) : Word :=
  if outsideBand (cvtU32 n b) t1 then
    if isLarge (cvtU32 n b) t1 then fadd (n + 4) v (fmul (n + 3) b (f32 factor))
    else if fPos b then
      fadd (n + 4) v (fmul (n + 3) (fmul (n + 2) flt2 (fsub (n + 1) b (f32 t1))) (f32 factor))
    else if fZero b then v
    else fadd (n + 4) v (fmul (n + 3) (fmul (n + 2) flt2 (fadd (n + 1) b (f32 t1))) (f32 factor))
  else v

/-- `SCORE_FLT` (R165), in ascending order, each contribution added at once (R168).  `n` is its first
draw; coefficient `i` draws from `n + 8·i`. -/
def scoreFlt (n : Nat) (block thr : Vector Word 16) (factor : Vector (BitVec 16) 16) : Word :=
  nonDc.foldl (fun v i => addFlt (n + 8 * i.val) v block[i] thr[i].toNat factor[i].toNat)
    (fmul n block[0] (f32 factor[0].toNat))

/-- The sixteen values of a function of the index, in order. -/
def sixteen {α : Type} (f : Nat → α) : Vector α 16 :=
  #v[f 0, f 1, f 2, f 3, f 4, f 5, f 6, f 7, f 8, f 9, f 10, f 11, f 12, f 13, f 14, f 15]

/-- `{ACC_HI, ACC_LO} <- v mod 2^64` (R41, R170). -/
def setAccInt (v : Int) (s : State) : State :=
  { s with
    accLo := (BitVec.ofInt 64 v).extractLsb' 0 32
    accHi := (BitVec.ofInt 64 v).extractLsb' 32 32 }

/-- `ACC_LO <- bits32(v); ACC_HI <- 0` (R41, R170). -/
def setAccFlt (v : Word) (s : State) : State := { s with accLo := v, accHi := 0 }

/-- `DIAG_S` (R170). -/
def execDiagS (s : State) : Host.Outcome State Fault Refusal :=
  match formatOf s.fmt with
  | none => .next (raiseError .badFormat 0 s)
  | some f =>
    if s.status.thrValid = false then .next (raiseError .noThr 0 s)
    else if isFloat f then
      .next (complete (drawOn
        (setAccFlt (scoreFlt s.drawn (sixteen s.diAt) s.thr s.params.factorRom) s)))
    else .next (complete (setAccInt (scoreInt (sixteen s.diInt) s.thr s.params.factorRom) s))

end Sys2Proof.Machine
end

