-- ==== Sys2Proof/Machine/Quantize.lean ====
section
/-! DEFINITION. Machine/Quantize.lean: the output quantizer in both domains and the meaning of `DIAG_Q`
(44_quantize). -/

namespace Sys2Proof.Machine

/-- `r` of `QUANT_INT`: `(v + 2^17) >> 18`, exactly (R180). -/
def rescaleInt (v : Int) : Int := shiftRightFloor (v + 2 ^ 17) 18

/-- `QUANT_INT` (R180): the cast to the storage width, or the clamp to `[0, peak]` where `OUT_CLAMP`
holds. -/
def quantInt (f : SampleFormat) (clamp : Bool) (v : Int) : Word :=
  if clamp then BitVec.ofInt 32 (min (max (rescaleInt v) 0) (peakOf f))
  else BitVec.ofInt 32 (rescaleInt v % 2 ^ (8 * sampleBytes f))

/-- The binary32 value `2^-18` (R181). -/
def fltInv2p18 : Word := 0x36800000#32

/-- `INV255`, that is `f32(1/255)` (R181). -/
def fltInv255 : Word := 0x3B808081#32

/-- `QUANT_FLT` (R181), left to right.  `n` is its first draw. -/
def quantFlt (n : Nat) (v : Word) : Word := fmul (n + 1) (fmul n v fltInv2p18) fltInv255

/-- `DIAG_Q` (R184). -/
def execDiagQ (s : State) : Host.Outcome State Fault Refusal :=
  match formatOf s.fmt with
  | none => .next (raiseError .badFormat 0 s)
  | some f =>
    if isFloat f then .next (complete (drawOn (setDout0 (quantFlt s.drawn s.accLo) s)))
    else .next (complete (setDout0 (quantInt f s.params.outClamp s.acc.toInt) s))

end Sys2Proof.Machine
end

