-- ==== Sys2Proof/Machine/Control.lean ====
section
/-! DEFINITION. Machine/Control.lean: the meanings of `NOP` and `SETQP`, and the derivation of the
threshold table (45_control R203 to R205). -/

namespace Sys2Proof.Machine

/-- `THRESH(qp, peak, i)` for `qp` in 1..63 (R204), in the exact integer forms given there. -/
def thresh (qp peak i : Nat) : Nat :=
  if i % 2 = 0 ∧ i / 4 % 2 = 0 then (2 * (16 * qp - 1) * peak + 255) / 510
  else if i % 2 = 1 ∧ i / 4 % 2 = 1 then (2 * (40 * qp - 1) * peak + 255) / 510
  else (isqrt (2560 * peak ^ 2 * qp ^ 2) - 2 * peak + 255) / 510

/-- The sixteen thresholds of `SETQP` (R204). -/
def threshTable (qp peak : Nat) : Vector Word 16 := sixteen fun i => BitVec.ofNat 32 (thresh qp peak i)

/-- `THR`, `QP` and `THR_VALID` as `SETQP` leaves them (R204). -/
def installThr (table : Vector Word 16) (qp : Nat) (s : State) : State :=
  { s with
    thr := table
    qp := BitVec.ofNat 6 qp
    status := { s.status with thrValid := true } }

/-- `NOP` (R203): nothing but its completion. -/
def execNop (s : State) : Host.Outcome State Fault Refusal := .next (complete s)

/-- `SETQP qp` (R204). -/
def execSetqp (qp : Nat) (s : State) : Host.Outcome State Fault Refusal :=
  match formatOf s.fmt with
  | none => .next (raiseError .badFormat 0 s)
  | some f =>
    if qp = 0 then .next (raiseError .badQp 0 s)
    else .next (complete (installThr (threshTable qp (peakOf f)) qp s))

end Sys2Proof.Machine
end

