-- ==== Sys2Proof/Machine/Run.lean ====
section
/-! DEFINITION. Machine/Run.lean: `RUN` (45_control R206 to R208): its checks, the two phases as
sequencer steps of one port access each, and the whole command as those steps to its end.  A sequencer
step is what the port makes single-copy atomic (20_memory R66, R68). -/

namespace Sys2Proof.Machine

/-- The checks of R207 on one plane descriptor: true where it is illegal. -/
def badPlane (f : SampleFormat) (W H : Nat) (base stride : Word) : Bool :=
  decide (base.toNat % sampleBytes f ≠ 0)
    || decide (stride.toNat % sampleBytes f ≠ 0)
    || decide (stride.toNat < W * sampleBytes f)
    || decide (2 ^ Config.addrW ≤
        base.toNat + (H - 1) * stride.toNat + W * sampleBytes f - 1)

/-- The geometry checks of R207: true where one of them fails. -/
def badGeometry (f : SampleFormat) (s : State) : Bool :=
  decide (s.planeW = 0) || decide (s.planeW % 16 ≠ 0)
    || decide (s.planeH = 0) || decide (s.planeH % 16 ≠ 0)
    || badPlane f s.planeW s.planeH s.srcBase s.srcStride
    || badPlane f s.planeW s.planeH s.dstBase s.dstStride

/-- The capacity check of R207 and R223: true where the plane does not fit. -/
def overCapacity (f : SampleFormat) (s : State) : Bool :=
  decide (s.params.maxWidth < s.planeW)
    || decide (s.params.scratchBytes < (s.planeW + 16) * (s.planeH + 24) * sampleBytes f)

/-- `RUN_CHECKS` (R207): the first check that fails. -/
def runCheck (s : State) : Option ErrCode :=
  match formatOf s.fmt with
  | none => some .badFormat
  | some f =>
    if badGeometry f s then some .badGeometry
    else if overCapacity f s then some .capacity
    else if s.status.thrValid = false then some .noThr
    else none

/-- A `RUN` that has passed its checks, before its first access (R206, R106). -/
def beginExtend (s : State) : State :=
  { s with
    status := { s.status with extValid := false }
    phase := .extend
    row := 0
    col := 0 }

/-- The checks and the start of a `RUN` (R206). -/
def runStart (s : State) : State :=
  match runCheck s with
  | some c => raiseError c 0 s
  | none => beginExtend s

/-- `E` after the sample of `(y, x)` is stored and, where it ends a row or the plane, after the margins
that R102 writes then. -/
def extendStore (W H y x : Nat) (v : Word) (e : List Word) : List Word :=
  let inner := extSet (extPitch W) e (8 + y) (8 + x) v
  if x + 1 < W then inner
  else if y + 1 < H then mirrorRow W y inner
  else mirrorRows W H (mirrorRow W y inner)

/-- The sequencer at the next sample, and at the next phase after the last one (R68, R106). -/
def extendNext (s : State) : State :=
  if s.col + 1 < s.planeW then { s with col := s.col + 1 }
  else if s.row + 1 < s.planeH then { s with row := s.row + 1, col := 0 }
  else
    { s with
      status := { s.status with extValid := true }
      phase := .filter
      row := 0
      col := 0 }

/-- One sequencer step of `EXTEND` (R102): the read of sample `(y, x)`, a bus error ending the command
(R76, R224).  A failed read leaves in `E` the elements stored so far over the old ones: I2 leaves these
contents open, and they are the model's choice (DESIGN CHOICE, log entry 3). -/
def extendTick (f : SampleFormat) (s : State) : State :=
  let a := srcAddr f s s.row s.col
  let n := sampleBytes f
  let s1 := drawOn (portIssue false a n s)
  if busFaultAt s.params a false then raiseError .busError (BitVec.ofNat 32 a) s1
  else
    extendNext
      { s1 with
        ext := extendStore s.planeW s.planeH s.row s.col (loadSample s.drawn a n s) s.ext }

/-- The output word of a coefficient block (R208): scorer, then quantizer.  The draws are those of the
sequencer step with first draw `n`. -/
def scoreOf (n : Nat) (flt : Bool) (s : State) (block : Vector Coef 16) : Coef :=
  if flt then
    .flt (scoreFlt (n + 16 * bfDraws) (sixteen fun i => coefFlt (block[i]?.getD (.int 0))) s.thr
      s.params.factorRom)
  else
    .int (scoreInt (sixteen fun i => coefInt (block[i]?.getD (.int 0))) s.thr s.params.factorRom)

/-- `QUANT` in the domain of the format (R208). -/
def quantOf (n : Nat) (f : SampleFormat) (s : State) (v : Coef) : Word :=
  if isFloat f then quantFlt (n + 21 * bfDraws) (coefFlt v)
  else quantInt f s.params.outClamp (coefInt v)

/-- The internal work of output `(y, x)` (R208): the Stage-A groups that the schedule puts here, Stage B,
the scorer.  It writes only hidden state.  What `COLC`, `block` and `v` hold after the command is what its
last output left: R47 and I2 leave it open, and it is the model's choice (DESIGN CHOICE, log entry 3). -/
def filterCompute (f : SampleFormat) (s : State) : State :=
  let n := s.drawn
  let colc := stageASchedule n (isFloat f) (extPitch s.planeW) s.ext s.row s.col s.colc
  let block := stageB (n + 12 * bfDraws) (isFloat f) (sevenSlots colc s.col)
  { s with colc := colc, block := block, accV := scoreOf n (isFloat f) s block }

/-- The sequencer at the next output sample, and the completion of the command after the last one
(R68, R202). -/
def filterNext (s : State) : State :=
  if s.col + 1 < s.planeW then { s with col := s.col + 1 }
  else if s.row + 1 < s.planeH then { s with row := s.row + 1, col := 0 }
  else complete s

/-- One sequencer step of `FILTER` (R208): the work of output `(y, x)` and its write, a bus error ending
the command with any value in the bytes of the failed write (R76, R224, I4). -/
def filterTick (f : SampleFormat) (s : State) : State :=
  let a := dstAddr f s s.row s.col
  let n := sampleBytes f
  let s1 := filterCompute f s
  let w := quantOf s.drawn f s s1.accV
  let s2 := drawOn (portIssue true a n s1)
  if busFaultAt s.params a true then
    raiseError .busError (BitVec.ofNat 32 a) (storeSample a n (Config.freeMem s.drawn) s2)
  else filterNext (storeSample a n w s2)

/-- One sequencer step of a `RUN` in flight; no step of any other phase.  `FMT` cannot become illegal
under a `RUN` (R262), so the branch without a format is never taken by a run from reset. -/
def runTick (s : State) : State :=
  match s.phase with
  | .idle => s
  | .issued => s
  | .extend =>
    match formatOf s.fmt with
    | none => raiseError .badFormat 0 s
    | some f => extendTick f s
  | .filter =>
    match formatOf s.fmt with
    | none => raiseError .badFormat 0 s
    | some f => filterTick f s

/-- At most `k` sequencer steps, fewer if the command completes before. -/
def runTicks : Nat → State → State
  | 0, s => s
  | k + 1, s => if s.phase = .idle then s else runTicks k (runTick s)

/-- More sequencer steps than any `RUN` in flight has left: each phase makes at most one for each sample,
and one for each row if `W` is 0. -/
def tickBound (s : State) : Nat := 2 * ((s.planeW + 1) * (s.planeH + 1)) + 2

/-- A `RUN` in flight, to its end (R202: the time is finite). -/
def runToEnd (s : State) : State := runTicks (tickBound s) s

/-- `RUN` (R206). -/
def execRun (s : State) : Host.Outcome State Fault Refusal := .next (runToEnd (runStart s))

end Sys2Proof.Machine
end

