-- ==== Sys2Proof/Machine/Dispatch.lean ====
section
/-! DEFINITION. Machine/Dispatch.lean: one arm for each command of the table, one meaning for each arm. -/

namespace Sys2Proof.Machine

def exec (i : Instr) (s : State) : Host.Outcome State Fault Refusal :=
  match i with
  | .nop => Sys2Proof.Machine.execNop s
  | .setqp qp => Sys2Proof.Machine.execSetqp qp s
  | .run => Sys2Proof.Machine.execRun s
  | .diagA => Sys2Proof.Machine.execDiagA s
  | .diagB => Sys2Proof.Machine.execDiagB s
  | .diagS => Sys2Proof.Machine.execDiagS s
  | .diagQ => Sys2Proof.Machine.execDiagQ s
  | .xread => Sys2Proof.Machine.execXread s

end Sys2Proof.Machine
end

