-- ==== Sys2Proof/Machine/Registers.lean ====
section
/-! DEFINITION. Machine/Registers.lean: the register window (10_state R20 to R42): which register stands
at an offset, what a read of it gives, and what a write that is performed does. -/

namespace Sys2Proof.Machine

/-- The registers of R42. -/
inductive Reg where
  | id
  | paramMaxW
  | paramScratch
  | paramOpt
  | cmd
  | status
  | ie
  | qp
  | fmt
  | width
  | height
  | errAddr
  | srcBase
  | srcStride
  | dstBase
  | dstStride
  | thr (i : Fin 16)
  | factor (i : Fin 16)
  | di (i : Fin 28)
  | dout (i : Fin 16)
  | accLo
  | accHi
  deriving DecidableEq, Repr

/-- The number of bytes in the register window (R20). -/
def windowBytes : Nat := 4096

/-- The byte offset of a bus address in the register window, `none` where it lies outside (R20). -/
def windowOffset (p : Params) (addr : Nat) : Option Nat :=
  if p.regBase ≤ addr ∧ addr < p.regBase + windowBytes then some (addr - p.regBase) else none

/-- Element `i` of a register array of `n` words that starts at offset `base`, if `off` is one of
them. -/
def arrayIndex (base n off : Nat) : Option (Fin n) :=
  if h : (base ≤ off ∧ off % 4 = 0) ∧ (off - base) / 4 < n then some ⟨(off - base) / 4, h.2⟩ else none

/-- The register at a word-aligned offset, `none` for a reserved offset (R20, R42). -/
def regAt (off : Nat) : Option Reg :=
  match off with
  | 0x000 => some .id
  | 0x004 => some .paramMaxW
  | 0x008 => some .paramScratch
  | 0x00C => some .paramOpt
  | 0x010 => some .cmd
  | 0x014 => some .status
  | 0x018 => some .ie
  | 0x01C => some .qp
  | 0x020 => some .fmt
  | 0x024 => some .width
  | 0x028 => some .height
  | 0x02C => some .errAddr
  | 0x030 => some .srcBase
  | 0x034 => some .srcStride
  | 0x038 => some .dstBase
  | 0x03C => some .dstStride
  | 0x1C0 => some .accLo
  | 0x1C4 => some .accHi
  | _ =>
    ((arrayIndex 0x040 16 off).map Reg.thr).or <|
    ((arrayIndex 0x080 16 off).map Reg.factor).or <|
    ((arrayIndex 0x100 28 off).map Reg.di).or <|
    ((arrayIndex 0x180 16 off).map Reg.dout)

/-- The offset of a register in the window (R42). -/
def regOffset (r : Reg) : Nat :=
  match r with
  | .id => 0x000
  | .paramMaxW => 0x004
  | .paramScratch => 0x008
  | .paramOpt => 0x00C
  | .cmd => 0x010
  | .status => 0x014
  | .ie => 0x018
  | .qp => 0x01C
  | .fmt => 0x020
  | .width => 0x024
  | .height => 0x028
  | .errAddr => 0x02C
  | .srcBase => 0x030
  | .srcStride => 0x034
  | .dstBase => 0x038
  | .dstStride => 0x03C
  | .thr i => 0x040 + 4 * i.val
  | .factor i => 0x080 + 4 * i.val
  | .di i => 0x100 + 4 * i.val
  | .dout i => 0x180 + 4 * i.val
  | .accLo => 0x1C0
  | .accHi => 0x1C4

/-- The word `FMT` reads as (R27). -/
def fmtWord (f : Fmt) : Word := BitVec.ofNat 32 (f.stype.toNat + f.bits.toNat * 2 ^ 8)

/-- What a write of `w` leaves in `FMT` (R27): reserved bits are ignored. -/
def fmtOfWord (w : Word) : Fmt := ⟨w.extractLsb' 0 2, w.extractLsb' 8 6⟩

/-- The current value of a register (R21 to R41); reserved bits read as 0 (R20). -/
def readReg (r : Reg) (s : State) : Word :=
  match r with
  | .id => 0x50503701#32
  | .paramMaxW => BitVec.ofNat 32 s.params.maxWidth
  | .paramScratch => BitVec.ofNat 32 (min s.params.scratchBytes 0xFFFFFFFF)
  | .paramOpt => BitVec.ofNat 32 s.params.outClamp.toNat
  | .cmd => s.cmd
  | .status => statusWord s.status
  | .ie => ieWord s.ie
  | .qp => s.qp.setWidth 32
  | .fmt => fmtWord s.fmt
  | .width => s.width.setWidth 32
  | .height => s.height.setWidth 32
  | .errAddr => s.errAddr
  | .srcBase => s.srcBase
  | .srcStride => s.srcStride
  | .dstBase => s.dstBase
  | .dstStride => s.dstStride
  | .thr i => s.thr[i]
  | .factor i => s.params.factorRom[i].setWidth 32
  | .di i => s.di[i]
  | .dout i => s.dout[i]
  | .accLo => s.accLo
  | .accHi => s.accHi

/-- A host write that is performed while no command executes (R20 to R41, R29, R32, R37): a read-only
register ignores it.  A write to `CMD` issues a command (R23, R200). -/
def writeReg (r : Reg) (w : Word) (s : State) : State :=
  match r with
  | .id => s
  | .paramMaxW => s
  | .paramScratch => s
  | .paramOpt => s
  | .cmd => issue w s
  | .status => { s with status := statusClear w s.status }
  | .ie => { s with ie := ieOfWord w }
  | .qp => s
  | .fmt =>
    { s with
      fmt := fmtOfWord w
      status := { s.status with thrValid := false, extValid := false } }
  | .width =>
    { s with width := w.setWidth 16, status := { s.status with extValid := false } }
  | .height =>
    { s with height := w.setWidth 16, status := { s.status with extValid := false } }
  | .errAddr => s
  | .srcBase => { s with srcBase := w }
  | .srcStride => { s with srcStride := w }
  | .dstBase => { s with dstBase := w }
  | .dstStride => { s with dstStride := w }
  | .thr i => { s with thr := s.thr.set i w, status := { s.status with thrValid := true } }
  | .factor _ => s
  | .di i => { s with di := s.di.set i w }
  | .dout _ => s
  | .accLo => { s with accLo := w }
  | .accHi => { s with accHi := w }

/-- A host write to a register while a command executes (R262): `STATUS` and `IE` are written, every
other write is dropped or ignored and sets `WOVR`. -/
def writeRegBusy (r : Option Reg) (w : Word) (s : State) : State :=
  match r with
  | some .status => { s with status := statusClear w s.status }
  | some .ie => { s with ie := ieOfWord w }
  | _ => { s with status := { s.status with wovr := true } }

end Sys2Proof.Machine
end

