-- ==== Sys2Proof/Machine/HostBus.lean ====
section
/-! DEFINITION. Machine/HostBus.lean: what the outside world does to the core, one stimulus at a time, and
how far the command in flight gets between two of them (10_state R20, R23; 45_control R200 to R202;
20_memory R60, R70 to R72; 70_reset_and_hazards R250, R251, R260 to R263). -/

namespace Sys2Proof.Machine

/-- The issued command, executed to its completion (R201, R202): an illegal word raises `ILLEGAL_CMD`
before any operand is read (R225). -/
def execIssued (s : State) : Host.Outcome State Fault Refusal :=
  match decode s.cmd with
  | .ok i => exec i s
  | .error _ => .next (raiseError .illegalCmd 0 s)

/-- One sequencer step of the command in flight.  A `RUN` takes one step for its checks and one for each
access; every other command executes in one step. -/
def seqStep (s : State) : Host.Outcome State Fault Refusal :=
  match s.phase with
  | .idle => .next s
  | .issued => if decode s.cmd = .ok .run then .next (runStart s) else execIssued s
  | .extend => .next (runTick s)
  | .filter => .next (runTick s)

/-- At most `k` sequencer steps, fewer if the command completes before. -/
def advance : Nat → State → Host.Outcome State Fault Refusal
  | 0, s => .next s
  | k + 1, s =>
    if s.phase = .idle then .next s
    else
      match seqStep s with
      | .next t => advance k t
      | .fault r => .fault r
      | .refused r => .refused r

/-- The command in flight to its completion, at once (R202, R270); an idle core stays as it is (R242). -/
def settle (s : State) : Host.Outcome State Fault Refusal :=
  match s.phase with
  | .idle => .next s
  | .issued => execIssued s
  | .extend => .next (runToEnd s)
  | .filter => .next (runToEnd s)

/-- The time between two stimuli: the command completes, or it makes so many sequencer steps (I22). -/
def progress (pause : Option Nat) (s : State) : Host.Outcome State Fault Refusal :=
  match pause with
  | none => settle s
  | some k => advance k s

/-- The registers that a command writes, whose read while it executes gives the old or the new value
(R261). -/
def commandWrites (i : Instr) (r : Reg) : Bool :=
  match i, r with
  | .setqp _, .thr _ => true
  | .setqp _, .qp => true
  | .diagA, .dout _ => true
  | .diagB, .dout _ => true
  | .diagQ, .dout _ => true
  | .xread, .dout _ => true
  | .diagS, .accLo => true
  | .diagS, .accHi => true
  | _, _ => false

/-- The new value of a register that the issued command writes (R261); its old value where the word is
illegal. -/
def valueAfter (r : Reg) (s : State) : Word :=
  match execIssued s with
  | .next t => readReg r t
  | .fault _ => readReg r s
  | .refused _ => readReg r s

/-- Is the register one that the issued command writes (R261)? -/
def writtenInFlight (r : Reg) (s : State) : Bool :=
  match decode s.cmd with
  | .ok i => s.phase == .issued && commandWrites i r
  | .error _ => false

/-- A host read of a register while a command executes (R261): a register that the command writes reads
its old or its new value, by a free choice for each read (I10); every other one its current value. -/
def readRegBusy (r : Reg) (s : State) : Word :=
  if writtenInFlight r s then
    if (Config.freeSeen s.seen).getLsbD 0 then readReg r s else valueAfter r s
  else readReg r s

/-- One aligned 32-bit access of the window (R20): its offset is a multiple of 4 and it is four bytes
wide. -/
def goodAccess (off width : Nat) : Bool := width == 4 && off % 4 == 0

/-- The answer to a host access (R20). -/
def respond (a : HostResponse) (s : State) : State := { s with response := a }

/-- A host write on the register window (R20, R23, R262).  A word write to a reserved offset is ignored,
and sets `WOVR` while a command executes. -/
def serveRegWrite (addr width : Nat) (data : Word) (s : State) : State :=
  match windowOffset s.params addr with
  | none => respond .silent s
  | some off =>
    if goodAccess off width = false then respond .busError s
    else if s.status.busy then respond .written (writeRegBusy (regAt off) data s)
    else
      match regAt off with
      | none => respond .written s
      | some r => respond .written (writeReg r data s)

/-- A host read on the register window (R20, R261).  A word read of a reserved offset gives 0. -/
def serveRegRead (addr width : Nat) (s : State) : State :=
  match windowOffset s.params addr with
  | none => respond .silent s
  | some off =>
    if goodAccess off width = false then respond .busError s
    else
      match regAt off with
      | none => respond (.value 0) s
      | some r =>
        if s.status.busy then
          respond (.value (readRegBusy r s)) { s with seen := s.seen + 1 }
        else respond (.value (readReg r s)) s

/-- A host write to memory (R88).  While a command executes it is also recorded with the bytes it
replaces, because a `RUN` may still read them (R263). -/
def serveMemWrite (addr : Nat) (width : MemWidth) (data : Word) (s : State) :
    Host.Outcome State Fault Refusal :=
  let n := widthBytes width
  if 2 ^ Config.addrW < addr + n then .fault .hostAddressOutsideMemory
  else
    .next <| respond .memWritten
      { s with
        mem := memWrite s.mem addr n data
        races :=
          if s.phase = .idle then s.races else ⟨addr, n, memRead s.mem addr n⟩ :: s.races }

/-- A `RUN` is in flight, from its issue to its completion (R200, R202, R263). -/
def runInFlight (s : State) : Bool :=
  match s.phase with
  | .idle => false
  | .issued => decide (decode s.cmd = .ok .run)
  | .extend => true
  | .filter => true

/-- A byte of a destination sample (R61); the stride padding is none (R66). -/
def inDstPlane (f : SampleFormat) (s : State) (b : Nat) : Bool :=
  (List.range s.planeH).any fun y =>
    decide (dstAddr f s y 0 ≤ b) && decide (b < dstAddr f s y 0 + s.planeW * sampleBytes f)

/-- The bytes that a host read of `n` bytes at `addr` may see torn: the destination samples of the `RUN` in
flight, unless the read is one aligned access of a sample's width (R263, I11). -/
def tornByte (addr n : Nat) (s : State) (b : Nat) : Bool :=
  match formatOf s.fmt with
  | none => false
  | some f =>
    runInFlight s && inDstPlane f s b && !(n == sampleBytes f && addr % sampleBytes f == 0)

/-- `MemRead` of the `n` bytes from `a` as the host sees it, where byte `b` may be torn if `torn b`: a torn
byte shows that byte of the free value, every other one what memory holds (R62, I11). -/
def readTorn (torn : Nat → Bool) (m : Memory) (a : Nat) : Nat → Nat → Nat
  | 0, _ => 0
  | n + 1, free =>
    (if torn a then free % 256 else (readByte m a).toNat) + 256 * readTorn torn m (a + 1) n (free / 256)

/-- A host read of memory (R88).  A destination sample read during a `RUN` shows what the accesses made so
far have left, in their order (R70); where the read tears destination samples, their bytes show any value
and every other byte shows what memory holds (R263, I11). -/
def serveMemRead (addr : Nat) (width : MemWidth) (s : State) : Host.Outcome State Fault Refusal :=
  let n := widthBytes width
  let torn := tornByte addr n s
  if 2 ^ Config.addrW < addr + n then .fault .hostAddressOutsideMemory
  else if (List.range n).any fun k => torn (addr + k) then
    .next <| respond
      (.memValue (BitVec.ofNat 32 (readTorn torn s.mem addr n (Config.freeSeen s.seen).toNat)))
      { s with seen := s.seen + 1 }
  else .next (respond (.memValue (memRead s.mem addr n)) s)

/-- Memory after the reset input is asserted (R251): accesses completed stand; the bytes of a write in
progress hold any value (I9). -/
def memAfterReset (s : State) : Memory :=
  match s.phase, formatOf s.fmt with
  | .filter, some f =>
    memWrite s.mem (dstAddr f s s.row s.col) (sampleBytes f) (Config.freeMem s.drawn)
  | _, _ => s.mem

/-- The reset input (R250, R251): every register at its reset value, the command in flight aborted.  The
parameters and the stimuli are not the core's; the contents of the scratch storage and of the hidden
values are unspecified and unobservable, and stay (log entry 3). -/
def resetSignal (s : State) : State :=
  { State.reset with
    params := s.params
    ext := s.ext
    colc := s.colc
    block := s.block
    accV := s.accV
    mem := memAfterReset s
    script := s.script
    drawn := s.drawn + Config.drawStride
    seen := s.seen }

/-- One stimulus, served. -/
def serve (a : HostAct) (s : State) : Host.Outcome State Fault Refusal :=
  match a with
  | .regWrite addr width data => .next (serveRegWrite addr width data s)
  | .regRead addr width => .next (serveRegRead addr width s)
  | .memWrite addr width data => serveMemWrite addr width data s
  | .memRead addr width => serveMemRead addr width s
  | .resetCore => .next (resetSignal s)

/-- The next stimulus is served and the time until the one after it passes; with none to come, the
command in flight completes. -/
def hostStep (s : State) : Host.Outcome State Fault Refusal :=
  match s.script with
  | [] => settle s
  | ev :: rest =>
    match serve ev.act { s with script := rest } with
    | .next t => progress ev.pause t
    | .fault r => .fault r
    | .refused r => .refused r

/-- The stimulus that issues a command and lets it complete: a host write to `CMD` (R23). -/
def commandEvent (p : Params) (w : Word) : HostEvent :=
  ⟨.regWrite (p.regBase + regOffset .cmd) 4 w, none⟩

/-- An idle core whose next stimulus issues the command word `w`. -/
def withCommand (w : Word) (s : State) : State :=
  { s with
    script := commandEvent s.params w :: s.script
    phase := .idle
    status := { s.status with busy := false } }

end Sys2Proof.Machine
end

