-- ==== Sys2Proof/Machine/Step.lean ====
section
/-! DEFINITION. Machine/Step.lean: one step of the machine.  The core fetches no instruction (R44): a
command comes in by a host write to `CMD`, and the stimuli of the host stand in State in the order in
which they reach the core. -/

namespace Sys2Proof.Machine

/-- One step: the next stimulus of the host and the time until the one after it. -/
def step (s : State) : Host.Outcome State Fault Refusal := hostStep s

/-- The state whose very next step issues and runs the command word of a table row (R23, R200): the host's
write to `CMD` is the next stimulus, and the core is idle, as an issue needs. -/
def State.withFetchWord (s : State) (nbits w : Nat) : State := withCommand (commandWord nbits w) s

end Sys2Proof.Machine
end

