-- ==== Sys2Proof/Machine/HostScript.lean ====
section
/-! DEFINITION. Machine/HostScript.lean: the host script of 30_encoding R88 and R89 as stimuli.  A
statement lets the command in flight complete before the next one, unless `duringCommand` says how far
it gets; so a `wait` is one read of `STATUS` that finds `BUSY` at 0, and every poll that finds it at 1 is
one more read. -/

namespace Sys2Proof.Machine

/-- A stimulus after which the command in flight completes. -/
def afterCommand (a : HostAct) : HostEvent := ⟨a, none⟩

/-- A stimulus after which the command in flight makes `k` sequencer steps. -/
def duringCommand (k : Nat) (a : HostAct) : HostEvent := ⟨a, some k⟩

/-- `wr REG, imm` (R88) on a core whose window stands at `base`. -/
def scriptWr (base : Nat) (r : Reg) (imm : Word) : HostEvent :=
  afterCommand (.regWrite (base + regOffset r) 4 imm)

/-- `rd REG` (R88). -/
def scriptRd (base : Nat) (r : Reg) : HostEvent := afterCommand (.regRead (base + regOffset r) 4)

/-- `mw8`, `mw16`, `mw32 a, imm` (R88). -/
def scriptMw (width : MemWidth) (a : Nat) (imm : Word) : HostEvent :=
  afterCommand (.memWrite a width imm)

/-- `mr8`, `mr16`, `mr32 a` (R88). -/
def scriptMr (width : MemWidth) (a : Nat) : HostEvent := afterCommand (.memRead a width)

/-- `nop`, `setqp q`, `run`, `diag_a`, `diag_b`, `diag_s`, `diag_q`, `xread` (R89): a write of the
command's word to `CMD`. -/
def scriptCommand (base : Nat) (i : Instr) : HostEvent := scriptWr base .cmd (encode i)

/-- `wait` (R89). -/
def scriptWait (base : Nat) : HostEvent := scriptRd base .status

/-- `setfmt u8`, `setfmt u16 b`, `setfmt f32` (R89). -/
def scriptSetfmt (base : Nat) (f : SampleFormat) : HostEvent :=
  match f with
  | .u8 => scriptWr base .fmt 0x0800#32
  | .u16 bits => scriptWr base .fmt (BitVec.ofNat 32 (bits * 2 ^ 8 + 0x1))
  | .f32 => scriptWr base .fmt 0x2002#32

/-- `ack` (R89): clears `DONE`, `ERR` and `WOVR`. -/
def scriptAck (base : Nat) : HostEvent := scriptWr base .status 0x0000000E#32

end Sys2Proof.Machine
end

