-- ==== Sys2Proof/Safety.lean ====
section
/-! DEFINITION. Safety.lean: the states a core can be in.  Each clause is what the spec says of every
moment of a core's life; a step from a state with all of them leads to one with all of them. -/

namespace Sys2Proof.Machine

/-- `BUSY` is 1 exactly while a command is in flight (R24, R200, R202, R242). -/
def State.busyMatchesPhase (s : State) : Prop := s.status.busy = true ↔ s.phase ≠ .idle

/-- While `BUSY` is 1, `DONE`, `ERR` and `ERRCODE` read as 0 (R200, R261). -/
def State.busyIsClean (s : State) : Prop :=
  s.status.busy = true → s.status.done = false ∧ s.status.err = false ∧ s.status.errCode = .none

/-- `DONE` and `ERR` are never both set (R232), `ERR` comes with a code, and `DONE` with none
(R24, R220). -/
def State.completionRecord (s : State) : Prop :=
  ¬(s.status.done = true ∧ s.status.err = true) ∧
    (s.status.err = true → s.status.errCode ≠ .none) ∧
    (s.status.done = true → s.status.errCode = .none)

/-- `ERRADDR` is 0 unless the last error was `BUS_ERROR` (R33). -/
def State.errAddrMeaning (s : State) : Prop := s.status.errCode ≠ .busError → s.errAddr = 0

/-- The geometry and format that the checks of a `RUN` accept for the buffer (R207, R107). -/
def State.extGeometry (s : State) : Prop :=
  (∃ f, formatOf s.fmt = some f) ∧ s.planeW % 16 = 0 ∧ 16 ≤ s.planeW ∧ s.planeH % 16 = 0 ∧ 16 ≤ s.planeH

/-- `EXT_VALID` is clear during `EXTEND` and set during `FILTER` (R106), and where it is set the format
and the geometry are those of a `RUN` that passed its checks (R106, R107). -/
def State.extValidMeaning (s : State) : Prop :=
  (s.phase = .extend → s.status.extValid = false) ∧ (s.phase = .filter → s.status.extValid = true) ∧
    (s.status.extValid = true → s.extGeometry)

/-- A `RUN` in flight has a format and a geometry that its checks accept (R207, R262). -/
def State.runInFlightChecked (s : State) : Prop :=
  (s.phase = .extend ∨ s.phase = .filter) →
    ∃ f, formatOf s.fmt = some f ∧ badGeometry f s = false ∧ overCapacity f s = false ∧
      s.row < s.planeH ∧ s.col < s.planeW

/-- Every entry of memory lies in the memory space (R48, R60). -/
def State.memInSpace (s : State) : Prop := ∀ c ∈ s.mem, c.1 < 2 ^ Config.addrW

/-- What is true of a core at every moment. -/
structure State.Coherent (s : State) : Prop where
  memWf : s.mem.wf = true
  memInSpace : s.memInSpace
  busy : s.busyMatchesPhase
  clean : s.busyIsClean
  record : s.completionRecord
  errAddr : s.errAddrMeaning
  extValid : s.extValidMeaning
  inFlight : s.runInFlightChecked

end Sys2Proof.Machine
end

