-- ==== Sys2Proof/Certificates/Slice0/Obligations.lean ====
section
/-! DEFINITION. Obligations.lean: what the model is claimed to do, each statement from the rules of spec/
it names.  `Sys2Proof.Claims` holds the words the statements use, written from the spec and not from the
model's code. -/

namespace Sys2Proof.Claims

open Sys2Proof.Machine

/-- A core with no command in flight (R24, R242). -/
def Idle (s : State) : Prop := s.status.busy = false ∧ s.phase = .idle

/-- `STATUS` after a command that completes without error (R200, R202). -/
def doneStatus (st : Status) : Status := { st with busy := false, done := true }

/-- `STATUS` after a command that ends with `code` (R226). -/
def errStatus (code : ErrCode) (st : Status) : Status :=
  { st with busy := false, err := true, errCode := code }

/-- The state after a command that raises `code` with `ERRADDR = 0` before it writes anything (R226). -/
def failed (code : ErrCode) (s : State) : State :=
  { s with status := errStatus code s.status, errAddr := 0, phase := .idle }

/-- The state after issue of `w` by the next stimulus, `rest` being the stimuli behind it (R200). -/
def issued (w : Word) (rest : List HostEvent) (s : State) : State :=
  { s with
    cmd := w
    status := { s.status with busy := true, done := false, err := false, errCode := .none }
    errAddr := 0
    phase := .issued
    port := []
    races := []
    script := rest
    response := .written }

/-- The next stimulus is a host write of `w` to `CMD`, after which the command completes (R23). -/
def nextWritesCmd (s : State) (w : Word) (rest : List HostEvent) : Prop :=
  s.script = ⟨.regWrite (s.params.regBase + 0x010) 4 w, none⟩ :: rest

/-- `w` is illegal by R84 or R85, bit field by bit field of R80. -/
def IllegalBits (w : Word) : Prop :=
  w.toNat / 2 ^ 4 % 2 ^ 4 ≠ 0 ∨ w.toNat / 2 ^ 14 ≠ 0 ∨
    (3 ≤ w.toNat % 16 ∧ w.toNat % 16 ≤ 7) ∨ 13 ≤ w.toNat % 16 ∨
    (w.toNat % 16 ≠ 1 ∧ w.toNat / 2 ^ 8 % 2 ^ 6 ≠ 0)

/-- `fmt_ok` (R28). -/
def FmtOk (s : State) : Prop :=
  (s.fmt.stype = 0 ∧ s.fmt.bits = 8) ∨
    (s.fmt.stype = 1 ∧ 9 ≤ s.fmt.bits.toNat ∧ s.fmt.bits.toNat ≤ 16) ∨
    (s.fmt.stype = 2 ∧ s.fmt.bits = 32)

/-- The integer formats with their storage size and peak (R27, R28). -/
def IntFormat (s : State) (bytes peak : Nat) : Prop :=
  (s.fmt.stype = 0 ∧ s.fmt.bits = 8 ∧ bytes = 1 ∧ peak = 255) ∨
    (s.fmt.stype = 1 ∧ 9 ≤ s.fmt.bits.toNat ∧ s.fmt.bits.toNat ≤ 16 ∧ bytes = 2 ∧
      peak = 2 ^ s.fmt.bits.toNat - 1)

/-- The float format (R27, R28). -/
def FltFormat (s : State) : Prop := s.fmt.stype = 2 ∧ s.fmt.bits = 32

/-- A legal format with its storage size (R27, R28). -/
def LegalFormat (s : State) (bytes : Nat) : Prop :=
  (∃ peak, IntFormat s bytes peak) ∨ (FltFormat s ∧ bytes = 4)

/-- The value every register of R42 has after reset, for the parameters `p` (R42, R250). -/
def resetValue (p : Params) : Reg → Word
  | .id => 0x50503701#32
  | .paramMaxW => BitVec.ofNat 32 p.maxWidth
  | .paramScratch => BitVec.ofNat 32 (min p.scratchBytes 0xFFFFFFFF)
  | .paramOpt => if p.outClamp then 1#32 else 0#32
  | .factor i => BitVec.ofNat 32 p.factorRom[i].toNat
  | _ => 0#32

/-- The numbers of the error codes (R220). -/
def codeNumber : ErrCode → Nat
  | .none => 0
  | .illegalCmd => 1
  | .badFormat => 2
  | .badQp => 3
  | .badGeometry => 4
  | .capacity => 5
  | .noThr => 6
  | .notExtended => 7
  | .badIndex => 8
  | .busError => 9

/-- What an idle core's registers read as, bit field by bit field (R21 to R41). -/
def regValue (s : State) : Reg → Word
  | .id => 0x50503701#32
  | .paramMaxW => BitVec.ofNat 32 s.params.maxWidth
  | .paramScratch => BitVec.ofNat 32 (min s.params.scratchBytes 0xFFFFFFFF)
  | .paramOpt => if s.params.outClamp then 1#32 else 0#32
  | .cmd => s.cmd
  | .status => BitVec.ofNat 32
      (s.status.busy.toNat * 2 ^ 0 + s.status.done.toNat * 2 ^ 1 + s.status.err.toNat * 2 ^ 2
        + s.status.wovr.toNat * 2 ^ 3 + s.status.thrValid.toNat * 2 ^ 4
        + s.status.extValid.toNat * 2 ^ 5 + codeNumber s.status.errCode * 2 ^ 8)
  | .ie => BitVec.ofNat 32 (s.ie.doneIe.toNat * 2 ^ 0 + s.ie.errIe.toNat * 2 ^ 1)
  | .qp => BitVec.ofNat 32 s.qp.toNat
  | .fmt => BitVec.ofNat 32 (s.fmt.stype.toNat * 2 ^ 0 + s.fmt.bits.toNat * 2 ^ 8)
  | .width => BitVec.ofNat 32 s.width.toNat
  | .height => BitVec.ofNat 32 s.height.toNat
  | .errAddr => s.errAddr
  | .srcBase => s.srcBase
  | .srcStride => s.srcStride
  | .dstBase => s.dstBase
  | .dstStride => s.dstStride
  | .thr i => s.thr[i]
  | .factor i => BitVec.ofNat 32 s.params.factorRom[i].toNat
  | .di i => s.di[i]
  | .dout i => s.dout[i]
  | .accLo => s.accLo
  | .accHi => s.accHi

/-- The weights of R128, output `k` on input `j`. -/
def weight (k j : Nat) : Int :=
  (([[1, 1, 1, 2, 1, 1, 1], [-2, -1, 1, 4, 1, -1, -2], [1, -1, -1, 2, -1, -1, 1],
    [-1, 2, -2, 2, -2, 2, -1]] : List (List Int)).getD k []).getD j 0

/-- Output `k` of the integer butterfly on `a 0 … a 6`, as the weighted sum of R128. -/
def butterfly (k : Nat) (a : Nat → Int) : Int := ∑ j ∈ Finset.range 7, weight k j * a j

/-- `A` and `B` of R204: `sqrt(10)` where the index bit is set, else 2. -/
noncomputable def threshFactor (bit : Nat) : ℝ := if bit = 1 then Real.sqrt 10 else 2

/-- The threshold formula of R204, read as C1 says. -/
noncomputable def threshReal (qp peak i : Nat) : ℝ :=
  (threshFactor (i % 2) * threshFactor (i / 4 % 2) * qp * 4 - 1) * peak / 255

/-- What coefficient `b` adds to `v` in the integer domain: the literal tests of R162. -/
def contribution (b t1 factor : Int) : Int :=
  if 2 * t1 % 2 ^ 32 < (b + t1) % 2 ^ 32 then
    if 2 * (2 * t1 % 2 ^ 32) % 2 ^ 32 < (b + 2 * t1 % 2 ^ 32) % 2 ^ 32 then b * factor
    else 2 * b.sign * (|b| - t1) * factor
  else 0

/-- The accumulation `v` of R162 over a block. -/
def scoreSum (block : Nat → Int) (thr : Vector Word 16) (factor : Vector (BitVec 16) 16) : Int :=
  block 0 * factor[0].toNat +
    ∑ i ∈ Finset.Icc 1 15, contribution (block i) (thr.toList.getD i 0).toNat
      (factor.toList.getD i 0).toNat

/-- `w` is the output word of `QUANT_INT` for the sum `v` (R180): `r` is the integer nearest to `v / 2^18`,
ties upward. -/
def QuantInt (bytes peak : Nat) (clamp : Bool) (v : Int) (w : Word) : Prop :=
  ∃ r : Int, 2 ^ 18 * r - 2 ^ 17 ≤ v ∧ v < 2 ^ 18 * r + 2 ^ 17 ∧
    (clamp = false → (w.toNat : Int) = r % 2 ^ (8 * bytes)) ∧
    (clamp = true → (w.toNat : Int) = min (max r 0) peak)

/-- One plane descriptor passes the checks of R207. -/
def PlaneOk (base stride : Word) (bytes W H : Nat) : Prop :=
  base.toNat % bytes = 0 ∧ stride.toNat % bytes = 0 ∧ W * bytes ≤ stride.toNat ∧
    base.toNat + (H - 1) * stride.toNat + W * bytes - 1 < 2 ^ 32

/-- The geometry passes the checks of R207. -/
def GeometryOk (bytes : Nat) (s : State) : Prop :=
  s.width.toNat ≠ 0 ∧ s.width.toNat % 16 = 0 ∧ s.height.toNat ≠ 0 ∧ s.height.toNat % 16 = 0 ∧
    PlaneOk s.srcBase s.srcStride bytes s.width.toNat s.height.toNat ∧
    PlaneOk s.dstBase s.dstStride bytes s.width.toNat s.height.toNat

/-- The plane fits the scratch storage (R207, R223). -/
def CapacityOk (bytes : Nat) (s : State) : Prop :=
  s.width.toNat ≤ s.params.maxWidth ∧
    (s.width.toNat + 16) * (s.height.toNat + 24) * bytes ≤ s.params.scratchBytes

/-- A `RUN` passes its checks (R207). -/
def RunReady (bytes : Nat) (s : State) : Prop :=
  LegalFormat s bytes ∧ GeometryOk bytes s ∧ CapacityOk bytes s ∧ s.status.thrValid = true

/-- `src_addr(y, x)` (R61). -/
def srcAt (bytes : Nat) (s : State) (y x : Nat) : Nat :=
  s.srcBase.toNat + y * s.srcStride.toNat + x * bytes

/-- `dst_addr(y, x)` (R61). -/
def dstAt (bytes : Nat) (s : State) (y x : Nat) : Nat :=
  s.dstBase.toNat + y * s.dstStride.toNat + x * bytes

/-- No source read gets a bus error (I5). -/
def ReadsAnswered (bytes : Nat) (s : State) : Prop :=
  ∀ y < s.height.toNat, ∀ x < s.width.toNat,
    busFaultAt s.params (srcAt bytes s y x) false = false

/-- No destination write gets a bus error (I5). -/
def WritesAnswered (bytes : Nat) (s : State) : Prop :=
  ∀ y < s.height.toNat, ∀ x < s.width.toNat,
    busFaultAt s.params (dstAt bytes s y x) true = false

/-- The sample that memory holds for `(y, x)` of the source (R62, R102). -/
def sample (bytes : Nat) (s : State) (y x : Nat) : Word :=
  BitVec.ofNat 32
    (∑ k ∈ Finset.range bytes, (readByte s.mem (srcAt bytes s y x + k)).toNat * 2 ^ (8 * k))

/-- `m(i, N)` (R103). -/
def mirrored (i N : Nat) : Nat := if i < 8 then 7 - i else if i < N + 8 then i - 8 else 2 * N + 7 - i

/-- A recorded host write meets source sample `(y, x)`. -/
def Meets (bytes : Nat) (s : State) (y x : Nat) (r : HostRace) : Prop :=
  r.addr < srcAt bytes s y x + bytes ∧ srcAt bytes s y x < r.addr + r.width

/-- `v` is a value that a `RUN` may read as `P(y, x)` (R62, R263, I11): what memory holds, where the host has
not written the sample since the issue; that or a value it replaced, where each of its writes there was one
access of exactly the sample; any `S`-byte value otherwise. -/
def SourceRead (bytes : Nat) (s : State) (y x : Nat) (v : Word) : Prop :=
  ((∀ r ∈ s.races, ¬Meets bytes s y x r) → v = sample bytes s y x) ∧
    ((∀ r ∈ s.races, Meets bytes s y x r → r.addr = srcAt bytes s y x ∧ r.width = bytes) →
      v = sample bytes s y x ∨ ∃ r ∈ s.races, Meets bytes s y x r ∧ v = r.old) ∧
    (v.toNat < 2 ^ (8 * bytes) ∨ ∃ r ∈ s.races, Meets bytes s y x r ∧ v = r.old)

/-- `p` is the source plane as a `RUN` reads it. -/
def SourcePlane (bytes : Nat) (s : State) (p : Nat → Nat → Word) : Prop :=
  ∀ y < s.height.toNat, ∀ x < s.width.toNat, SourceRead bytes s y x (p y x)

/-- `E[r][c]` by the closed form of R103, for the source plane `p`. -/
def extended (p : Nat → Nat → Word) (s : State) (r c : Nat) : Word :=
  p (mirrored r s.height.toNat) (mirrored c s.width.toNat)

/-- Coefficient `i = 4·h + v` of output `(y, x)`, the double sum of R143 over the 7×7 window. -/
def coefSum (p : Nat → Nat → Word) (s : State) (y x i : Nat) : Int :=
  ∑ n ∈ Finset.range 7, ∑ j ∈ Finset.range 7,
    weight (i / 4) n * weight (i % 4) j * (extended p s (y + 5 + j) (x + 5 + n)).toNat

/-- The word in memory of the destination sample `(y, x)` (R63). -/
def stored (bytes : Nat) (s : State) (m : Memory) (y x : Nat) : Word :=
  BitVec.ofNat 32
    (∑ k ∈ Finset.range bytes, (readByte m (dstAt bytes s y x + k)).toNat * 2 ^ (8 * k))

/-- The seven values of a function of the tap. -/
def taps {α : Type} (g : Nat → α) : Seven α := ⟨g 0, g 1, g 2, g 3, g 4, g 5, g 6⟩

/-- Output `k` of `BF_FLT` from the pair sums `p0`, `p1`, `p2` and the centre `q`, every step rounded once in
the order of R122; `d` are the draws of its operations. -/
def fltStages (d : Nat → Nat) (p0 p1 p2 q : Word) (k : Nat) : Word :=
  let dd := fadd (d 7) q q
  let s0 := fadd (d 8) dd p0
  let s3 := fsub (d 9) dd p0
  let u := fadd (d 10) p2 p1
  let s2 := fsub (d 11) p2 p1
  match k with
  | 0 => fadd (d 12) s0 u
  | 1 => fadd (d 14) (fadd (d 13) s3 s3) s2
  | 2 => fsub (d 15) s0 u
  | _ => fsub (d 17) s3 (fadd (d 16) s2 s2)

/-- Output `k` of `BF_FLT` with `scale = 1` on `a 0 … a 6`: no product (R122). -/
def butterflyFlt1 (d : Nat → Nat) (a : Nat → Word) (k : Nat) : Word :=
  fltStages d (fadd (d 0) (a 0) (a 6)) (fadd (d 1) (a 1) (a 5)) (fadd (d 2) (a 2) (a 4)) (a 3) k

/-- Output `k` of `BF_FLT` with `scale = 255` on `a 0 … a 6`: a product with 255.0 on each pair sum and on the
centre sample before it is doubled (R122). -/
def butterflyFlt255 (d : Nat → Nat) (a : Nat → Word) (k : Nat) : Word :=
  fltStages d (fmul (d 3) (fadd (d 0) (a 0) (a 6)) 0x437F0000#32)
    (fmul (d 4) (fadd (d 1) (a 1) (a 5)) 0x437F0000#32)
    (fmul (d 5) (fadd (d 2) (a 2) (a 4)) 0x437F0000#32) (fmul (d 6) (a 3) 0x437F0000#32) k

/-- `c` is a value of `CVT_U32(b)` (R166): `trunc(b) mod 2^32` where `b` is finite and `|trunc(b)| < 2^63`, any
32-bit value elsewhere (I3). -/
def ConvertsTo (b : Word) (c : Nat) : Prop :=
  c < 2 ^ 32 ∧
    (isNaN b = false → isInf b = false → |(valUnits b).tdiv (2 ^ 149)| < 2 ^ 63 →
      (c : Int) = (valUnits b).tdiv (2 ^ 149) % 2 ^ 32)

/-- `v` after coefficient `b` (R165), with `c` its conversion to an integer, `d` the draws of the operations:
nothing in the noise band, the whole product above it, `2·(b ∓ t1)·factor` between for `b > 0` and for
`b < 0` or a NaN, nothing there for a zero. -/
def addContributionFlt (d : Nat → Nat) (c : Nat) (v b : Word) (t1 factor : Nat) : Word :=
  if 2 * t1 % 2 ^ 32 < (c + t1) % 2 ^ 32 then
    if 2 * (2 * t1 % 2 ^ 32) % 2 ^ 32 < (c + 2 * t1 % 2 ^ 32) % 2 ^ 32 then
      fadd (d 0) v (fmul (d 1) b (f32 factor))
    else if isNaN b = false ∧ 0 < valUnits b then
      fadd (d 0) v (fmul (d 1) (fmul (d 2) 0x40000000#32 (fsub (d 3) b (f32 t1))) (f32 factor))
    else if b = 0x00000000#32 ∨ b = 0x80000000#32 then v
    else fadd (d 0) v (fmul (d 1) (fmul (d 2) 0x40000000#32 (fadd (d 3) b (f32 t1))) (f32 factor))
  else v

/-- The accumulation `v` of R165 after coefficients `0 … i`, in ascending order (R168); `c i` is the
conversion of coefficient `i` and `d i` are its draws. -/
def scoreSumFlt (d : Nat → Nat → Nat) (c : Nat → Nat) (block : Nat → Word) (thr : Vector Word 16)
    (factor : Vector (BitVec 16) 16) : Nat → Word
  | 0 => fmul (d 0 0) (block 0) (f32 factor[0].toNat)
  | i + 1 =>
    addContributionFlt (d (i + 1)) (c (i + 1)) (scoreSumFlt d c block thr factor i) (block (i + 1))
      (thr.toList.getD (i + 1) 0).toNat (factor.toList.getD (i + 1) 0).toNat

/-- `w` is an output word of `(y, x)` in the float domain (R208) for the source plane `p`: Stage A with
pre-scale 255 on the seven columns of the window, Stage B without, the scorer, and the two products of R181.
The draws `d` and the conversions `c` stand for what I3 and I7 leave open. -/
def OutFlt (p : Nat → Nat → Word) (s : State) (y x : Nat) (w : Word) : Prop :=
  ∃ (d : Nat → Nat → Nat) (c : Nat → Nat) (block : Nat → Word),
    (∀ h < 4, ∀ v < 4, block (4 * h + v) =
      butterflyFlt1 (d (7 + v))
        (fun n => butterflyFlt255 (d n) (fun j => extended p s (y + 5 + j) (x + 5 + n)) v) h) ∧
    (∀ i, 1 ≤ i → i < 16 → ConvertsTo (block i) (c i)) ∧
    w = fmul (d 27 1)
      (fmul (d 27 0) (scoreSumFlt (fun i => d (11 + i)) c block s.thr s.params.factorRom 15)
        0x36800000#32) 0x3B808081#32

/-- `w` is an output word of `(y, x)` for the source plane `p` (R208), in the domain of the format. -/
def OutWord (bytes : Nat) (p : Nat → Nat → Word) (s : State) (y x : Nat) (w : Word) : Prop :=
  (∀ peak, IntFormat s bytes peak →
    QuantInt bytes peak s.params.outClamp (scoreSum (coefSum p s y x) s.thr s.params.factorRom) w) ∧
  (FltFormat s → OutFlt p s y x w)

/-- Address `a` is a byte of the destination plane (R61, R66): padding is none. -/
def InDst (bytes : Nat) (s : State) (a : Nat) : Prop :=
  ∃ y < s.height.toNat, ∃ x < s.width.toNat, dstAt bytes s y x ≤ a ∧ a < dstAt bytes s y x + bytes

/-- The samples of a plane in row-major order (R68). -/
def rowMajor (H W : Nat) : List (Nat × Nat) :=
  (List.range H).flatMap fun y => (List.range W).map fun x => (y, x)

/-- `(y', x')` comes before `(y, x)` in row-major order (R68, R224). -/
def Before (y' x' y x : Nat) : Prop := y' < y ∨ (y' = y ∧ x' < x)

/-- A finite binary32 pattern. -/
def FiniteFlt (w : Word) : Prop := isNaN w = false ∧ isInf w = false

/-- A quiet NaN: exponent all ones, fraction not zero and its top bit set (I7). -/
def QuietNaN (w : Word) : Prop := w.toNat / 2 ^ 22 % 2 ^ 9 = 0x1FF

/-- `r` is the correct rounding of the exact value `z / 2^k` units of `2^-149`, to nearest with ties to
even (R14): no finite value is nearer, one as near is `r` itself or `r` is the even one.  `r` is infinite
exactly where the value lies at or above half a place beyond the largest finite value: that clause is IEEE
754's, which R14 names (PRESUMED, log entry 21). -/
def RoundsTo (z : Int) (k : Nat) (r : Word) : Prop :=
  isNaN r = false ∧
    (isInf r = true ↔ (2 ^ 25 - 1) * 2 ^ 252 * 2 ^ k ≤ |z|) ∧
    (isInf r = true → (fSign r = true ↔ z < 0)) ∧
    (isInf r = false → ∀ c, FiniteFlt c →
      |valUnits r * 2 ^ k - z| ≤ |valUnits c * 2 ^ k - z| ∧
        (|valUnits r * 2 ^ k - z| = |valUnits c * 2 ^ k - z| →
          valUnits c = valUnits r ∨ r.toNat % 2 = 0))

end Sys2Proof.Claims

open Sys2Proof Sys2Proof.Machine Sys2Proof.Claims

/-! ### Command words -/

/-- R90: the worked encodings, and `SETQP` with `qp = 0`, which is legal and raises `BAD_QP`. -/
def Obligations.WorkedEncodingsDecode : Prop :=
  decode 0x00000101#32 = .ok (.setqp 1) ∧ decode 0x00003F01#32 = .ok (.setqp 63) ∧
    decode 0x00000002#32 = .ok .run ∧
    encode (.setqp 1) = 0x00000101#32 ∧ encode (.setqp 63) = 0x00003F01#32 ∧
    encode .run = 0x00000002#32 ∧
    IllegalBits 0x00000102#32 ∧ (∃ e, decode 0x00000102#32 = .error e) ∧
    IllegalBits 0x00000004#32 ∧ (∃ e, decode 0x00000004#32 = .error e) ∧
    decode 0x00000001#32 = .ok (.setqp 0) ∧
    ∀ s : State, FmtOk s → exec (.setqp 0) s = .next (failed .badQp s)

/-- R83: the fixed words of the opcode map decode to their rows. -/
def Obligations.OpcodeMapWordsDecode : Prop :=
  decode 0b00000000000000000000000000000000#32 = .ok .nop ∧
    decode 0b00000000000000000000010100000001#32 = .ok (.setqp 5) ∧
    decode 0b00000000000000000000000000000010#32 = .ok .run ∧
    decode 0b00000000000000000000000000001000#32 = .ok .diagA ∧
    decode 0b00000000000000000000000000001001#32 = .ok .diagB ∧
    decode 0b00000000000000000000000000001010#32 = .ok .diagS ∧
    decode 0b00000000000000000000000000001011#32 = .ok .diagQ ∧
    decode 0b00000000000000000000000000001100#32 = .ok .xread

/-- R83: decoding the word of a well-formed command gives the command back, with every `qp` the field
admits. -/
def Obligations.DecodeOfEncodeIsIdentity : Prop :=
  ∀ i : Instr, i.wf = true → decode (encode i) = .ok i

/-- R86: every word is exactly one row of R83 (and is that row's own word) or illegal by R84 or R85. -/
def Obligations.EveryWordIsOneRowOrIllegal : Prop :=
  ∀ w : Word,
    (∀ i, decode w = .ok i ↔ (i.wf = true ∧ encode i = w)) ∧
      ((∃ e, decode w = .error e) ↔ IllegalBits w)

/-- R200: a host write of `w` to `CMD` while no command executes issues it, and the step runs the
decoded command on the issued state. The stimulus that carries the write and the time it takes are the
model's choice (log entries 5 and 6). -/
def Obligations.StepIssuesAndRunsCommand : Prop :=
  ∀ (s : State) (w : Word) (rest : List HostEvent) (i : Instr),
    s.status.busy = false → nextWritesCmd s w rest → decode w = .ok i →
      step s = exec i (issued w rest s)

/-- R84, R85, R225: an illegal word is issued like any command and completes at once with `ILLEGAL_CMD`;
no state but that of issue and completion changes, whatever the operands. How a host write reaches the
core is the model's choice (log entry 5). -/
def Obligations.IllegalWordCompletesWithIllegalCmd : Prop :=
  ∀ (s : State) (w : Word) (rest : List HostEvent),
    s.status.busy = false → nextWritesCmd s w rest → IllegalBits w →
      step s = .next (failed .illegalCmd (issued w rest s))

/-! ### Reset and the invariants of every step -/

/-- R42, R250: after reset, at power-on and by the reset input at any time, every register of the map
holds its reset value, `irq` is low, no command executes and the port has issued no access. That the
parameters are those of before is the model's reading (log entry 9). -/
def Obligations.ResetLeavesResetValues : Prop :=
  (∀ r : Reg, readReg r State.reset = resetValue State.reset.params r) ∧
    State.reset.irq = false ∧ Idle State.reset ∧ State.reset.port = [] ∧
    ∀ s : State, ∃ t : State,
      serve .resetCore s = .next t ∧ t.params = s.params ∧
        (∀ r : Reg, readReg r t = resetValue s.params r) ∧ t.irq = false ∧ Idle t ∧ t.port = []

/-- The reset state is coherent (the invariant of `EveryStepKeepsCoherence`). The canonical form of
memory and the contents of reset memory are the model's choice (log entry 4). -/
def Obligations.ResetStateIsCoherent : Prop := State.reset.Coherent

/-- Every step from a coherent state leads to a coherent one: memory stays canonical and inside the
memory space, `BUSY` marks a command in flight, the completion record and `ERRADDR` keep their meaning,
and `EXT_VALID` and a `RUN` in flight stand only on a geometry that passed the checks. The canonical
form of memory is the model's choice (log entry 4). -/
def Obligations.EveryStepKeepsCoherence : Prop :=
  ∀ s t : State, s.Coherent → step s = .next t → t.Coherent

/-- R10, R38: no step changes a parameter, so `FACTOR` and the `PARAM_*` registers never change. That
State carries them is the model's choice (log entry 1). -/
def Obligations.EveryStepKeepsParameters : Prop :=
  ∀ s t : State, step s = .next t → t.params = s.params

/-- R254: what a command issued right after reset does: `NOP` completes, `XREAD` raises `NOT_EXTENDED`,
every other command raises `BAD_FORMAT`. The reading of R254 and the stimulus are the model's (log
entries 16 and 5). -/
def Obligations.CommandsRightAfterReset : Prop :=
  ∀ i : Instr, i.wf = true →
    ∃ t : State, step (State.reset.withFetchWord 32 (encode i).toNat) = .next t ∧ Idle t ∧
      (i = .nop → t.status.done = true ∧ t.status.err = false) ∧
      (i = .xread → t.status.err = true ∧ t.status.errCode = .notExtended) ∧
      (i ≠ .nop → i ≠ .xread → t.status.err = true ∧ t.status.errCode = .badFormat)

/-- R251: reset while a `RUN` filters aborts it; every byte of memory stays but the bytes of the write
in progress. Which accesses a reset can cut short is the model's choice (log entry 9). -/
def Obligations.ResetAbortsRun : Prop :=
  ∀ (s : State) (bytes : Nat), LegalFormat s bytes →
    ∃ t : State, serve .resetCore s = .next t ∧ Idle t ∧ t.status.done = false ∧ t.status.err = false ∧
      t.irq = false ∧
      (s.phase ≠ .filter → t.mem = s.mem) ∧
      ∀ a, (a < dstAt bytes s s.row s.col ∨ dstAt bytes s s.row s.col + bytes ≤ a) →
        readByte t.mem a = readByte s.mem a

/-! ### The register window -/

/-- R42: each register answers at its own offset and at no other. -/
def Obligations.RegisterMapIsOneToOne : Prop :=
  regAt 0x000 = some .id ∧ regAt 0x004 = some .paramMaxW ∧ regAt 0x008 = some .paramScratch ∧
    regAt 0x00C = some .paramOpt ∧ regAt 0x010 = some .cmd ∧ regAt 0x014 = some .status ∧
    regAt 0x018 = some .ie ∧ regAt 0x01C = some .qp ∧ regAt 0x020 = some .fmt ∧
    regAt 0x024 = some .width ∧ regAt 0x028 = some .height ∧ regAt 0x02C = some .errAddr ∧
    regAt 0x030 = some .srcBase ∧ regAt 0x034 = some .srcStride ∧ regAt 0x038 = some .dstBase ∧
    regAt 0x03C = some .dstStride ∧ (∀ i : Fin 16, regAt (0x040 + 4 * i.val) = some (.thr i)) ∧
    (∀ i : Fin 16, regAt (0x080 + 4 * i.val) = some (.factor i)) ∧
    (∀ i : Fin 28, regAt (0x100 + 4 * i.val) = some (.di i)) ∧
    (∀ i : Fin 16, regAt (0x180 + 4 * i.val) = some (.dout i)) ∧
    regAt 0x1C0 = some .accLo ∧ regAt 0x1C4 = some .accHi ∧
    (∀ r : Reg, regOffset r < 4096 ∧ regOffset r % 4 = 0 ∧ regAt (regOffset r) = some r) ∧
    ∀ (off : Nat) (r : Reg), regAt off = some r → regOffset r = off

/-- R20: an access of another width or alignment gets a bus error and changes nothing; a reserved offset
reads as 0 and ignores a write; reserved bits read as 0 and ignore writes. The answer to an ignored
write of a reserved offset is the model's choice (log entry 10). -/
def Obligations.WindowAccessRules : Prop :=
  (∀ (s : State) (off width : Nat) (data : Word), off < 4096 → (width ≠ 4 ∨ off % 4 ≠ 0) →
    serveRegWrite (s.params.regBase + off) width data s = { s with response := .busError } ∧
    serveRegRead (s.params.regBase + off) width s = { s with response := .busError }) ∧
  (∀ (s : State) (off : Nat) (data : Word), off < 4096 → off % 4 = 0 → regAt off = none →
    serveRegRead (s.params.regBase + off) 4 s = { s with response := .value 0 } ∧
    (s.status.busy = false →
      serveRegWrite (s.params.regBase + off) 4 data s = { s with response := .written })) ∧
  (∀ s : State,
    readReg .status s &&& 0xFFFF00C0#32 = 0 ∧ readReg .ie s &&& 0xFFFFFFFC#32 = 0 ∧
    readReg .fmt s &&& 0xFFFFC0FC#32 = 0 ∧ readReg .width s &&& 0xFFFF0000#32 = 0 ∧
    readReg .height s &&& 0xFFFF0000#32 = 0 ∧ readReg .qp s &&& 0xFFFFFFC0#32 = 0 ∧
    readReg .paramOpt s &&& 0xFFFFFFFE#32 = 0) ∧
  (∀ (s : State) (w : Word),
    writeReg .status w s = writeReg .status (w &&& 0x0000000E#32) s ∧
    writeReg .ie w s = writeReg .ie (w &&& 0x00000003#32) s ∧
    writeReg .fmt w s = writeReg .fmt (w &&& 0x00003F03#32) s ∧
    writeReg .width w s = writeReg .width (w &&& 0x0000FFFF#32) s ∧
    writeReg .height w s = writeReg .height (w &&& 0x0000FFFF#32) s)

/-- R20 to R23, R26, R27, R30 to R41: a host access to a register of an idle core, as a whole state. A
write to a read-write register leaves `w`, reserved bits dropped, in that register and changes no other
but the validity bits that the rules name; one to `CMD` issues the word; one to a read-only register
changes nothing; a read of any register, `CMD` among them, gives its value and changes nothing. The
answer that the host sees is the model's choice (log entry 10). -/
def Obligations.HostReadsWhatItWrote : Prop :=
  ∀ s : State, s.status.busy = false →
    (∀ w : Word,
      let wr := fun off => serveRegWrite (s.params.regBase + off) 4 w s
      wr 0x010 = issued w s.script s ∧
      wr 0x018 = { s with
        ie := ⟨decide (w.toNat % 2 = 1), decide (w.toNat / 2 % 2 = 1)⟩, response := .written } ∧
      wr 0x020 = { s with
        fmt := ⟨BitVec.ofNat 2 w.toNat, BitVec.ofNat 6 (w.toNat / 2 ^ 8)⟩
        status := { s.status with thrValid := false, extValid := false }, response := .written } ∧
      wr 0x024 = { s with
        width := BitVec.ofNat 16 w.toNat
        status := { s.status with extValid := false }, response := .written } ∧
      wr 0x028 = { s with
        height := BitVec.ofNat 16 w.toNat
        status := { s.status with extValid := false }, response := .written } ∧
      wr 0x030 = { s with srcBase := w, response := .written } ∧
      wr 0x034 = { s with srcStride := w, response := .written } ∧
      wr 0x038 = { s with dstBase := w, response := .written } ∧
      wr 0x03C = { s with dstStride := w, response := .written } ∧
      (∀ i : Fin 16, wr (0x040 + 4 * i.val) = { s with
        thr := s.thr.set i w, status := { s.status with thrValid := true }, response := .written }) ∧
      (∀ i : Fin 28, wr (0x100 + 4 * i.val) = { s with di := s.di.set i w, response := .written }) ∧
      wr 0x1C0 = { s with accLo := w, response := .written } ∧
      wr 0x1C4 = { s with accHi := w, response := .written } ∧
      (∀ off ∈ [0x000, 0x004, 0x008, 0x00C, 0x01C, 0x02C], wr off = { s with response := .written }) ∧
      (∀ i : Fin 16, wr (0x080 + 4 * i.val) = { s with response := .written } ∧
        wr (0x180 + 4 * i.val) = { s with response := .written })) ∧
    (∀ r : Reg, serveRegRead (s.params.regBase + regOffset r) 4 s =
      { s with response := .value (regValue s r) })

/-- R25: a write of `w` to `STATUS` clears each of `DONE`, `ERR` and `WOVR` whose bit in `w` is 1 and
leaves all else, busy or not; `ERRCODE` stays. -/
def Obligations.StatusWriteOneToClear : Prop :=
  ∀ (s : State) (w : Word), ∃ st : Status,
    serveRegWrite (s.params.regBase + 0x014) 4 w s = { s with status := st, response := .written } ∧
      (st.done = true ↔ s.status.done = true ∧ w.toNat / 2 % 2 = 0) ∧
      (st.err = true ↔ s.status.err = true ∧ w.toNat / 4 % 2 = 0) ∧
      (st.wovr = true ↔ s.status.wovr = true ∧ w.toNat / 8 % 2 = 0) ∧
      st.busy = s.status.busy ∧ st.thrValid = s.status.thrValid ∧ st.extValid = s.status.extValid ∧
      st.errCode = s.status.errCode

/-- R29, R32: a performed write to `FMT` clears `THR_VALID` and `EXT_VALID`, even of the same value; one
to `WIDTH` or `HEIGHT` clears `EXT_VALID`; no other flag changes. -/
def Obligations.FormatAndGeometryWritesInvalidate : Prop :=
  ∀ (s : State) (w : Word), s.status.busy = false →
    (serveRegWrite (s.params.regBase + 0x020) 4 w s).status =
      { s.status with thrValid := false, extValid := false } ∧
    (serveRegWrite (s.params.regBase + 0x024) 4 w s).status = { s.status with extValid := false } ∧
    (serveRegWrite (s.params.regBase + 0x028) 4 w s).status = { s.status with extValid := false }

/-- R36, R37, R30: a performed host write to `THR[i]` sets `THR_VALID`, writes that entry alone and does
not change `QP`. -/
def Obligations.ThresholdWriteValidates : Prop :=
  ∀ (s : State) (w : Word) (i : Fin 16), s.status.busy = false →
    ∃ t, t = serveRegWrite (s.params.regBase + 0x040 + 4 * i.val) 4 w s ∧ t.status.thrValid = true ∧
      t.thr[i] = w ∧ (∀ j : Fin 16, j ≠ i → t.thr[j] = s.thr[j]) ∧ t.qp = s.qp ∧
      t = { s with
        thr := t.thr, status := { s.status with thrValid := true }, response := .written }

/-- R230: `irq` follows the current registers, `WOVR` does not raise it, and each of the ways named
there takes it low. -/
def Obligations.InterruptIsLevelSensitive : Prop :=
  (∀ s : State, s.irq = true ↔
    ((s.status.done = true ∧ s.ie.doneIe = true) ∨ (s.status.err = true ∧ s.ie.errIe = true))) ∧
  (∀ (s : State) (b : Bool), ({ s with status := { s.status with wovr := b } } : State).irq = s.irq) ∧
  (∀ s : State, (serveRegWrite (s.params.regBase + 0x014) 4 0x00000006#32 s).irq = false) ∧
  (∀ s : State, (serveRegWrite (s.params.regBase + 0x018) 4 0x00000000#32 s).irq = false) ∧
  (∀ (s : State) (w : Word), s.status.busy = false →
    (serveRegWrite (s.params.regBase + 0x010) 4 w s).irq = false) ∧
  State.reset.irq = false

/-! ### While a command executes -/

/-- R262: while `BUSY` is 1 a host write to any register but `STATUS` and `IE`, to a read-only register
or to a reserved offset has no effect but `WOVR`; one to `STATUS` or `IE` is performed. The answer to a
dropped or ignored write is the model's choice (log entry 10). -/
def Obligations.BusyWritesAreDropped : Prop :=
  ∀ (s : State) (off : Nat) (w : Word), s.status.busy = true → off < 4096 → off % 4 = 0 →
    (off ≠ 0x014 → off ≠ 0x018 →
      serveRegWrite (s.params.regBase + off) 4 w s =
        { s with status := { s.status with wovr := true }, response := .written }) ∧
    (off = 0x014 →
      serveRegWrite (s.params.regBase + off) 4 w s =
        { writeReg .status w s with response := .written }) ∧
    (off = 0x018 →
      serveRegWrite (s.params.regBase + off) 4 w s =
        { s with
          ie := ⟨decide (w.toNat % 2 = 1), decide (w.toNat / 2 % 2 = 1)⟩, response := .written })

/-- R261, R263: a host read while `BUSY` is 1. `STATUS` reads `BUSY` as 1 and `DONE`, `ERR`, `ERRCODE`
as 0 with the current other flags; a register that the executing command writes reads its old value or
the value the command leaves in it; every other register reads its current value; no architectural state
changes. A read of memory shows what memory holds, but for the bytes of destination samples of a `RUN`
in flight that it does not read as one aligned sample. What counts as the new value is the model's
choice (log entry 7), and so is the order in which a host sees the destination (log entry 8). -/
def Obligations.BusyReadsOldOrNew : Prop :=
  (∀ (s : State) (r : Reg), s.Coherent → s.status.busy = true →
    ∃ v : Word,
      serveRegRead (s.params.regBase + regOffset r) 4 s =
        { s with response := .value v, seen := s.seen + 1 } ∧
      (r = .status → v = statusWord
        ⟨true, false, false, s.status.wovr, s.status.thrValid, s.status.extValid, .none⟩) ∧
      (v = readReg r s ∨
        ∃ (i : Instr) (t : State), s.phase = .issued ∧ decode s.cmd = .ok i ∧
          commandWrites i r = true ∧ exec i s = .next t ∧ v = readReg r t)) ∧
  ∀ (s : State) (addr : Nat) (width : MemWidth), addr + widthBytes width ≤ 2 ^ 32 →
    ∃ (t : State) (v : Word), serve (.memRead addr width) s = .next t ∧
      t = { s with response := .memValue v, seen := t.seen } ∧
      ∀ k < widthBytes width,
        (s.phase = .idle ∨ (s.phase = .issued ∧ decode s.cmd ≠ .ok .run) ∨
          ∀ bytes, LegalFormat s bytes →
            ¬InDst bytes s (addr + k) ∨ (widthBytes width = bytes ∧ addr % bytes = 0)) →
        v.toNat / 2 ^ (8 * k) % 2 ^ 8 = (readByte s.mem (addr + k)).toNat

/-- R74, R262, R75, R265: whatever the host does while a command executes, short of reset, the operands
of the command stay as they were at its issue. Busy or idle, no host access short of reset changes `E`. A
host write to memory leaves its bytes there, little-endian, and every other byte and every register as
they were; the source it may write is not copied to `E`. The record that a write leaves while a command
executes is the model's own (log entry 8). -/
def Obligations.OperandsFixedWhileBusy : Prop :=
  (∀ (s t : State) (a : HostAct), s.status.busy = true → a ≠ .resetCore → serve a s = .next t →
    t.cmd = s.cmd ∧ t.fmt = s.fmt ∧ t.width = s.width ∧ t.height = s.height ∧
      t.srcBase = s.srcBase ∧ t.srcStride = s.srcStride ∧ t.dstBase = s.dstBase ∧
      t.dstStride = s.dstStride ∧ t.thr = s.thr ∧ t.di = s.di ∧ t.accLo = s.accLo ∧
      t.accHi = s.accHi ∧ t.params = s.params ∧ t.status.thrValid = s.status.thrValid ∧
      t.status.extValid = s.status.extValid ∧ t.phase = s.phase ∧ t.row = s.row ∧ t.col = s.col) ∧
  (∀ (s t : State) (a : HostAct), a ≠ .resetCore → serve a s = .next t → t.ext = s.ext) ∧
  ∀ (s : State) (addr : Nat) (width : MemWidth) (w : Word), addr + widthBytes width ≤ 2 ^ 32 →
    ∃ t : State, serve (.memWrite addr width w) s = .next t ∧
      t = { s with mem := t.mem, races := t.races, response := .memWritten } ∧
      (s.phase = .idle → t.races = s.races) ∧
      (s.mem.wf = true → ∀ k < widthBytes width,
        (readByte t.mem (addr + k)).toNat = w.toNat / 2 ^ (8 * k) % 2 ^ 8) ∧
      ∀ a, a < addr ∨ addr + widthBytes width ≤ a → readByte t.mem a = readByte s.mem a

/-- R202, R270: the time from issue to completion does not matter: however many sequencer steps pass
between two stimuli that leave the core alone, the command ends in the state it reaches at once. The
sequencer steps are the model's choice (log entry 6). -/
def Obligations.InterleavingEndsAsAtOnce : Prop :=
  ∀ (s t : State) (k : Nat), advance k s = .next t → settle t = settle s

/-- R200, R202: every command completes: from any coherent state with a command in flight and no more
stimuli, the next step ends it, with exactly one of `DONE` and `ERR` set and `BUSY` clear. When a
command completes is the model's choice (log entry 6). -/
def Obligations.EveryCommandCompletes : Prop :=
  ∀ s : State, s.Coherent → s.status.busy = true → s.script = [] →
    ∃ t : State, step s = .next t ∧ Idle t ∧
      ((t.status.done = true ∧ t.status.err = false ∧ t.status.errCode = .none) ∨
        (t.status.done = false ∧ t.status.err = true ∧ t.status.errCode ≠ .none))

/-! ### Memory -/

/-- R62, R63, R64: what is written little-endian is read back, byte `k` of the value at address `a + k`,
and every other byte is unchanged. The canonical form of memory, which a write keeps, is the model's
choice (log entry 4). -/
def Obligations.MemoryIsLittleEndian : Prop :=
  ∀ (m : Memory) (a n : Nat) (w : Word), m.wf = true → n ≤ 4 →
    (memRead (memWrite m a n w) a n).toNat = w.toNat % 2 ^ (8 * n) ∧
      (memRead m a n).toNat = ∑ k ∈ Finset.range n, (readByte m (a + k)).toNat * 2 ^ (8 * k) ∧
      (∀ k < n, (readByte (memWrite m a n w) (a + k)).toNat = w.toNat / 2 ^ (8 * k) % 2 ^ 8) ∧
      (∀ b, (b < a ∨ a + n ≤ b) → readByte (memWrite m a n w) b = readByte m b) ∧
      (memWrite m a n w).wf = true

/-- R48, R60: no command but `RUN` issues an access of the memory port or touches the scratch space. The
record of the port is the model's own (log entry 19). -/
def Obligations.OnlyRunUsesThePort : Prop :=
  ∀ (i : Instr) (s t : State), i ≠ .run → exec i s = .next t →
    t.port = s.port ∧ t.mem = s.mem ∧ t.ext = s.ext ∧ t.colc = s.colc ∧ t.block = s.block

/-! ### NOP and SETQP -/

/-- R203: `NOP` completes without error, whatever the format, and does nothing else. -/
def Obligations.NopCompletes : Prop :=
  ∀ s : State, exec .nop s = .next { s with status := doneStatus s.status, phase := .idle }

/-- R204, C1: `SETQP` with `qp` in 1..63 and a legal format completes; entry `i` of `THR` is the
formula's real value rounded to the nearest integer; `QP` and `THR_VALID` are set and nothing else
changes. -/
def Obligations.SetqpInstallsRoundedThresholds : Prop :=
  ∀ (s : State) (qp bytes peak : Nat), 1 ≤ qp → qp ≤ 63 →
    (IntFormat s bytes peak ∨ (FltFormat s ∧ peak = 255)) →
    ∃ t : State, exec (.setqp qp) s = .next t ∧
      (∀ i : Fin 16, ((t.thr[i].toNat : Nat) : ℤ) = round (threshReal qp peak i.val)) ∧
      t = { s with
        thr := t.thr
        qp := BitVec.ofNat 6 qp
        status := doneStatus { s.status with thrValid := true }
        phase := .idle }

/-- R205: every threshold class is strictly increasing in `qp`, for the peak of every legal format, and
the largest threshold is below `2^20`. -/
def Obligations.ThresholdsIncreaseWithQp : Prop :=
  ∀ (qp peak i : Nat), (peak = 255 ∨ ∃ b, 9 ≤ b ∧ b ≤ 16 ∧ peak = 2 ^ b - 1) → 1 ≤ qp → i < 16 →
    (qp < 63 → thresh qp peak i < thresh (qp + 1) peak i) ∧ (qp ≤ 63 → thresh qp peak i ≤ 647383)

/-- R221, R28: with an illegal format the six commands that need one raise `BAD_FORMAT` and change
nothing else, before any other check; `NOP` and `XREAD` do not check it. -/
def Obligations.IllegalFormatRaisesBadFormat : Prop :=
  ∀ s : State, ¬FmtOk s →
    (∀ i : Instr, i ≠ .nop → i ≠ .xread → exec i s = .next (failed .badFormat s)) ∧
      (∃ t, exec .nop s = .next t ∧ t.status.done = true) ∧
      (s.status.errCode = .none → ∃ t, exec .xread s = .next t ∧ t.status.errCode ≠ .badFormat)

/-- R222: without a threshold table `DIAG_S`, and a `RUN` whose other checks pass, raise `NO_THR` and
change nothing else. -/
def Obligations.NoTableRaisesNoThr : Prop :=
  ∀ s : State, s.status.thrValid = false →
    (FmtOk s → exec .diagS s = .next (failed .noThr s)) ∧
      ∀ bytes, LegalFormat s bytes → GeometryOk bytes s → CapacityOk bytes s →
        exec .run s = .next (failed .noThr s)

/-! ### The diagnostic commands -/

/-- R130, R128: in the integer domain `DIAG_A` leaves in `DO[k]` the weighted sum of the seven operands
`mod 2^32`, for `k` in 0..3, and changes nothing else. -/
def Obligations.DiagAIntegerResult : Prop :=
  ∀ (s : State) (bytes peak : Nat), IntFormat s bytes peak →
    ∃ t : State, exec .diagA s = .next t ∧
      (∀ k : Fin 16, k.val < 4 →
        t.dout[k] = BitVec.ofInt 32 (butterfly k.val fun j => (s.di.toList.getD j 0).toInt)) ∧
      (∀ k : Fin 16, 4 ≤ k.val → t.dout[k] = s.dout[k]) ∧
      t = { s with dout := t.dout, status := doneStatus s.status, phase := .idle }

/-- R130, R122: in the float domain `DIAG_A` evaluates the butterfly with pre-scale 255, every step
rounded once, in the order given; it changes nothing else but the counter of free values. -/
def Obligations.DiagAFloatResult : Prop :=
  ∀ s : State, FltFormat s →
    ∃ (t : State) (n : Nat → Nat), exec .diagA s = .next t ∧
      (let a := fun j => s.di.toList.getD j 0
       let c : Word := 0x437F0000#32
       let p0 := fmul (n 3) (fadd (n 0) (a 0) (a 6)) c
       let p1 := fmul (n 4) (fadd (n 1) (a 1) (a 5)) c
       let p2 := fmul (n 5) (fadd (n 2) (a 2) (a 4)) c
       let q := fmul (n 6) (a 3) c
       let d := fadd (n 7) q q
       let s0 := fadd (n 8) d p0
       let s3 := fsub (n 9) d p0
       let u := fadd (n 10) p2 p1
       let s2 := fsub (n 11) p2 p1
       t.dout[0] = fadd (n 12) s0 u ∧ t.dout[1] = fadd (n 14) (fadd (n 13) s3 s3) s2 ∧
         t.dout[2] = fsub (n 15) s0 u ∧ t.dout[3] = fsub (n 17) s3 (fadd (n 16) s2 s2)) ∧
      (∀ k : Fin 16, 4 ≤ k.val → t.dout[k] = s.dout[k]) ∧
      t = { s with
        dout := t.dout, drawn := t.drawn, status := doneStatus s.status, phase := .idle }

/-- R145, R128: in the integer domain `DIAG_B` leaves in `DO[4h + k]` output `h` of the butterfly over
the operands `DI[4n + k]`, `n` in 0..6, `mod 2^32`, and changes nothing else. -/
def Obligations.DiagBIntegerResult : Prop :=
  ∀ (s : State) (bytes peak : Nat), IntFormat s bytes peak →
    ∃ t : State, exec .diagB s = .next t ∧
      (∀ i : Fin 16, t.dout[i] = BitVec.ofInt 32
        (butterfly (i.val / 4) fun n => (s.di.toList.getD (4 * n + i.val % 4) 0).toInt)) ∧
      t = { s with dout := t.dout, status := doneStatus s.status, phase := .idle }

/-- R145, R122: in the float domain `DIAG_B` leaves in `DO[4h + k]` output `h` of the butterfly over the
operands `DI[4n + k]`, `n` in 0..6, without pre-scale, every step rounded once, in the order given; it
changes nothing else but the counter of free values. -/
def Obligations.DiagBFloatResult : Prop :=
  ∀ s : State, FltFormat s →
    ∃ (t : State) (n : Nat → Nat → Nat), exec .diagB s = .next t ∧
      (∀ k < 4,
        let a := fun j => s.di.toList.getD (4 * j + k) 0
        let p0 := fadd (n k 0) (a 0) (a 6)
        let p1 := fadd (n k 1) (a 1) (a 5)
        let p2 := fadd (n k 2) (a 2) (a 4)
        let d := fadd (n k 7) (a 3) (a 3)
        let s0 := fadd (n k 8) d p0
        let s3 := fsub (n k 9) d p0
        let u := fadd (n k 10) p2 p1
        let s2 := fsub (n k 11) p2 p1
        t.dout.toList.getD k 0 = fadd (n k 12) s0 u ∧
          t.dout.toList.getD (4 + k) 0 = fadd (n k 14) (fadd (n k 13) s3 s3) s2 ∧
          t.dout.toList.getD (8 + k) 0 = fsub (n k 15) s0 u ∧
          t.dout.toList.getD (12 + k) 0 = fsub (n k 17) s3 (fadd (n k 16) s2 s2)) ∧
      t = { s with
        dout := t.dout, drawn := t.drawn, status := doneStatus s.status, phase := .idle }

/-- R170, R162, R164: in the integer domain with a table, `DIAG_S` leaves in `ACC` the sum of R162
exactly: its magnitude is below `2^54`, so the 64-bit register holds it with its sign. Nothing else
changes. -/
def Obligations.DiagSIntegerResult : Prop :=
  ∀ (s : State) (bytes peak : Nat), IntFormat s bytes peak → s.status.thrValid = true →
    ∃ (t : State) (v : Int), exec .diagS s = .next t ∧
      v = scoreSum (fun i => (s.di.toList.getD i 0).toInt) s.thr s.params.factorRom ∧
      |v| < 2 ^ 54 ∧ (t.accHi ++ t.accLo : BitVec 64).toInt = v ∧
      t = { s with
        accLo := t.accLo, accHi := t.accHi, status := doneStatus s.status, phase := .idle }

/-- R170, R165, R166, R168: in the float domain with a table, `DIAG_S` leaves in `ACC_LO` the binary32
sum of R165, each contribution added in ascending order, and 0 in `ACC_HI`; nothing else changes but the
counter of free values. -/
def Obligations.DiagSFloatResult : Prop :=
  ∀ s : State, FltFormat s → s.status.thrValid = true →
    ∃ (t : State) (d : Nat → Nat → Nat) (c : Nat → Nat), exec .diagS s = .next t ∧
      (∀ i, 1 ≤ i → i < 16 → ConvertsTo (s.di.toList.getD i 0) (c i)) ∧
      t.accLo =
        scoreSumFlt d c (fun i => s.di.toList.getD i 0) s.thr s.params.factorRom 15 ∧
      t.accHi = 0 ∧
      t = { s with
        accLo := t.accLo, accHi := t.accHi, drawn := t.drawn
        status := doneStatus s.status, phase := .idle }

/-- R184, R180: in the integer domain `DIAG_Q` leaves in `DO[0]` the quantized value of the signed
64-bit `ACC`, wrapped to the storage width or clamped as `OUT_CLAMP` says, and changes nothing else; it
needs no table. -/
def Obligations.DiagQIntegerResult : Prop :=
  ∀ (s : State) (bytes peak : Nat), IntFormat s bytes peak →
    ∃ t : State, exec .diagQ s = .next t ∧
      QuantInt bytes peak s.params.outClamp (s.accHi ++ s.accLo : BitVec 64).toInt t.dout[0] ∧
      (∀ k : Fin 16, k ≠ 0 → t.dout[k] = s.dout[k]) ∧
      t = { s with dout := t.dout, status := doneStatus s.status, phase := .idle }

/-- R184, R181: in the float domain `DIAG_Q` leaves in `DO[0]` the product of `ACC_LO` with `2^-18` and
then with `INV255`, ignores `ACC_HI`, and changes nothing else but the counter of free values. -/
def Obligations.DiagQFloatResult : Prop :=
  ∀ s : State, FltFormat s →
    ∃ (t : State) (n m : Nat), exec .diagQ s = .next t ∧
      t.dout[0] = fmul n (fmul m s.accLo 0x36800000#32) 0x3B808081#32 ∧
      (∀ k : Fin 16, k ≠ 0 → t.dout[k] = s.dout[k]) ∧
      t = { s with
        dout := t.dout, drawn := t.drawn, status := doneStatus s.status, phase := .idle }

/-- R107: with a valid buffer and coordinates in range, `XREAD` leaves the element in `DO[0]`, whatever
the format, and changes nothing else. -/
def Obligations.XreadReadsElement : Prop :=
  ∀ s : State, s.status.extValid = true →
    (s.di[0]).toNat < s.height.toNat + 16 → (s.di[1]).toNat < s.width.toNat + 16 →
    ∃ t : State, exec .xread s = .next t ∧
      t.dout[0] = s.ext.getD ((s.di[0]).toNat * (s.width.toNat + 16) + (s.di[1]).toNat) 0 ∧
      (∀ k : Fin 16, k ≠ 0 → t.dout[k] = s.dout[k]) ∧
      t = { s with dout := t.dout, status := doneStatus s.status, phase := .idle }

/-- R107, R229: without a valid buffer `XREAD` raises `NOT_EXTENDED`; with one, coordinates out of range
raise `BAD_INDEX`; nothing else changes. -/
def Obligations.XreadRaisesItsErrors : Prop :=
  ∀ s : State,
    (s.status.extValid = false → exec .xread s = .next (failed .notExtended s)) ∧
      (s.status.extValid = true →
        (s.height.toNat + 16 ≤ (s.di[0]).toNat ∨ s.width.toNat + 16 ≤ (s.di[1]).toNat) →
        exec .xread s = .next (failed .badIndex s))

/-! ### The scorer -/

/-- R163: for thresholds below `2^30` and 32-bit coefficients the two unsigned tests are the magnitude
tests, and the contribution is the three-way rule of the glossary, continuous at `2·t1`. -/
def Obligations.UnsignedTestsAreMagnitudeTests : Prop :=
  ∀ (b : Int) (t1 factor : Nat), -2 ^ 31 ≤ b → b < 2 ^ 31 → t1 < 2 ^ 30 →
    (outsideBand b t1 = true ↔ (t1 : Int) < |b|) ∧ (isLarge b t1 = true ↔ 2 * (t1 : Int) < |b|) ∧
      (|b| ≤ t1 → contribInt b t1 factor = 0) ∧
      ((t1 : Int) < |b| → |b| ≤ 2 * t1 → contribInt b t1 factor = 2 * b.sign * (|b| - t1) * factor) ∧
      (|b| = 2 * (t1 : Int) → contribInt b t1 factor = b * factor) ∧
      (2 * (t1 : Int) < |b| → contribInt b t1 factor = b * factor)

/-- R167, R166: a finite float coefficient with `|trunc(b)| < 2^31` is classified by its magnitude
truncated toward zero. -/
def Obligations.FloatClassifiedByTruncation : Prop :=
  ∀ (n : Nat) (b : Word) (t1 : Nat), FiniteFlt b → |truncInt b| < 2 ^ 31 → t1 < 2 ^ 30 →
    (outsideBand (cvtU32 n b) t1 = true ↔ t1 < magUnits b / 2 ^ 149) ∧
      (isLarge (cvtU32 n b) t1 = true ↔ 2 * t1 < magUnits b / 2 ^ 149)

/-- R169: `THR[0]` has no effect: with any other value there, `DIAG_S` and `RUN` end in the same state
but for that entry. Both start from the same counters of free values (log entry 2). -/
def Obligations.FirstThresholdIsNeverUsed : Prop :=
  ∀ (s t : State) (w : Word) (i : Instr), i = .diagS ∨ i = .run → exec i s = .next t →
    exec i { s with thr := s.thr.set 0 w } = .next { t with thr := t.thr.set 0 w }

/-! ### Binary32 -/

/-- R14: the sum of finite operands is the exact sum rounded once, to nearest with ties to even. Where it
rounds to an infinity is IEEE 754's, which R14 names (PRESUMED, log entry 21). -/
def Obligations.FloatSumRoundsOnce : Prop :=
  ∀ (n : Nat) (a b : Word), FiniteFlt a → FiniteFlt b →
    RoundsTo (valUnits a + valUnits b) 0 (fadd n a b) ∧
      RoundsTo (valUnits a - valUnits b) 0 (fsub n a b)

/-- R14: the product of finite operands is the exact product rounded once, to nearest with ties to even,
subnormals kept. Where it rounds to an infinity is IEEE 754's, which R14 names (PRESUMED, log entry
21). -/
def Obligations.FloatProductRoundsOnce : Prop :=
  ∀ (n : Nat) (a b : Word), FiniteFlt a → FiniteFlt b →
    RoundsTo (valUnits a * valUnits b) 149 (fmul n a b)

/-- R14, I7: operands that are not finite, and the signs of zero results: a NaN operand, `∞ − ∞` and `0·∞`
make a quiet NaN; a sum or difference with an infinite operand, or with two that agree, is that infinity,
`fsub` turning the sign of its second operand; a product with an infinite operand and no zero is infinite,
on either side; a product has the product of the signs; an exact zero sum is `+0` unless both operands are
`−0`, and an exact zero difference unless the first is `−0` and the second `+0`. The infinities and the
signs of zeros are IEEE 754's, which R14 names (PRESUMED, log entry 21). -/
def Obligations.FloatSpecialOperands : Prop :=
  ∀ (n : Nat) (a b : Word),
    (isNaN a = true ∨ isNaN b = true →
      QuietNaN (fadd n a b) ∧ QuietNaN (fsub n a b) ∧ QuietNaN (fmul n a b)) ∧
    (isInf a = true → isInf b = true → fSign a ≠ fSign b → QuietNaN (fadd n a b)) ∧
    (isInf a = true → isInf b = true → fSign a = fSign b → QuietNaN (fsub n a b)) ∧
    (isInf a = true → valUnits b = 0 → QuietNaN (fmul n a b) ∧ QuietNaN (fmul n b a)) ∧
    (isInf a = true → isInf b = true → fSign a = fSign b → fadd n a b = a ∧ a = b) ∧
    (isInf a = true → isInf b = true → fSign a ≠ fSign b → fsub n a b = a) ∧
    (isInf a = true → FiniteFlt b →
      fadd n a b = a ∧ fadd n b a = a ∧ fsub n a b = a ∧ fsub n b a = a ^^^ 0x80000000#32) ∧
    (isInf a = true → isNaN b = false → valUnits b ≠ 0 →
      isInf (fmul n a b) = true ∧ (fSign (fmul n a b) = true ↔ fSign a ≠ fSign b) ∧
      isInf (fmul n b a) = true ∧ (fSign (fmul n b a) = true ↔ fSign a ≠ fSign b)) ∧
    (FiniteFlt a → FiniteFlt b → valUnits a - valUnits b = 0 →
      fsub n a b = if a = 0x80000000#32 ∧ b = 0x00000000#32 then 0x80000000#32 else 0x00000000#32) ∧
    (FiniteFlt a → FiniteFlt b → valUnits a + valUnits b = 0 →
      fadd n a b = if a = 0x80000000#32 ∧ b = 0x80000000#32 then 0x80000000#32 else 0x00000000#32) ∧
    (FiniteFlt a → FiniteFlt b → (fSign (fmul n a b) = true ↔ fSign a ≠ fSign b))

/-- R14, R165, R182: `f32(k)` is the integer `k` rounded once, to nearest with ties to even, and exact
below `2^24`, so for every factor and every threshold that `SETQP` installs; the product with `2^-18` is
exact for every finite `v` with `2^-108 ≤ |v|`. Where `f32` rounds to an infinity is IEEE 754's, which R14
names (PRESUMED, log entry 21). -/
def Obligations.ConversionAndRescaleAreExact : Prop :=
  (∀ k : Int, RoundsTo (k * 2 ^ 149) 0 (f32 k)) ∧
    (∀ k : Nat, k < 2 ^ 24 → FiniteFlt (f32 k) ∧ valUnits (f32 k) = k * 2 ^ 149) ∧
    ∀ (n : Nat) (v : Word), FiniteFlt v → 2 ^ 41 ≤ |valUnits v| →
      FiniteFlt (fmul n v fltInv2p18) ∧ valUnits (fmul n v fltInv2p18) * 2 ^ 18 = valUnits v

/-! ### The window, the transform and the quantizer of a RUN -/

/-- R127: along a row, Stage B of output `x` finds in slots `x … x + 6` of the Stage-A store exactly the
Stage-A results of buffer columns `x + 5 … x + 11`, whatever the store held before the row; `colc k` is
the store after the work of column `k`. -/
def Obligations.SlidingWindowIsDirect : Prop :=
  ∀ (flt : Bool) (p y W : Nat) (e : List Word) (n : Nat → Nat) (c0 : List (Quad Coef))
    (colc : Nat → List (Quad Coef)),
    colc 0 = stageASchedule (n 0) flt p e y 0 c0 →
    (∀ x, x + 1 < W → colc (x + 1) = stageASchedule (n (x + 1)) flt p e y (x + 1) (colc x)) →
    ∀ x < W, ∀ k < 7, ∃ d, slotAt (colc x) (x + k) = stageA d flt p e (y + 5) (x + 5 + k) ∧
      (flt = false → ∀ d', slotAt (colc x) (x + k) = stageA d' flt p e (y + 5) (x + 5 + k))

/-- R143, R144: in the integer domain the block of a 7×7 window of samples at most `M` is the double sum
of weights, and no coefficient exceeds `72·M`. -/
def Obligations.BlockIsBoundedDoubleSum : Prop :=
  ∀ (p y x M : Nat) (e : List Word), (∀ r c, (extAt p e r c).toNat ≤ M) →
    ∀ (d : Nat → Nat) (i : Fin 16),
      ∃ z : Int,
        (stageB (d 7) false (taps fun n => stageA (d n) false p e (y + 5) (x + 5 + n)))[i] = .int z ∧
        z = ∑ n ∈ Finset.range 7, ∑ j ∈ Finset.range 7,
          weight (i.val / 4) n * weight (i.val % 4) j * (extAt p e (y + 5 + j) (x + 5 + n)).toNat ∧
        |z| ≤ 72 * M

/-- R183, R143: in the integer domain a flat window of a legal sample value comes back exactly, under
both output policies and every threshold table, with `FACTOR[0] = 4096`. -/
def Obligations.FlatWindowComesBack : Prop :=
  ∀ (f : SampleFormat) (clamp : Bool) (a : Nat) (thr : Vector Word 16)
    (factor : Vector (BitVec 16) 16), (f = .u8 ∨ ∃ b, 9 ≤ b ∧ b ≤ 16 ∧ f = .u16 b) → a ≤ peakOf f →
    factor[0] = 4096 →
    (quantInt f clamp
      (scoreInt (blockOf
        (bfInt (taps fun _ => (bfInt (taps fun _ => (a : Int))).t0))
        (bfInt (taps fun _ => (bfInt (taps fun _ => (a : Int))).t1))
        (bfInt (taps fun _ => (bfInt (taps fun _ => (a : Int))).t2))
        (bfInt (taps fun _ => (bfInt (taps fun _ => (a : Int))).t3))) thr factor)).toNat = a

/-! ### RUN -/

/-- R207: the checks of a `RUN` in their order; a failed one changes nothing but the completion record,
and no access is made. -/
def Obligations.RunChecksInOrder : Prop :=
  ∀ (s : State) (bytes : Nat),
    (¬FmtOk s → exec .run s = .next (failed .badFormat s)) ∧
      (LegalFormat s bytes → ¬GeometryOk bytes s → exec .run s = .next (failed .badGeometry s)) ∧
      (LegalFormat s bytes → GeometryOk bytes s → ¬CapacityOk bytes s →
        exec .run s = .next (failed .capacity s)) ∧
      (LegalFormat s bytes → GeometryOk bytes s → CapacityOk bytes s → s.status.thrValid = false →
        exec .run s = .next (failed .noThr s))

/-- R103, R106, R263: a `RUN` whose reads are answered leaves `EXT_VALID` set and in every element of
`E` the mirrored source sample of the closed form, read before any write, even where a later write
fails; where the host wrote the source since the issue, the sample is a value that R263 allows. -/
def Obligations.RunBuildsMirroredBuffer : Prop :=
  ∀ (s : State) (bytes : Nat), RunReady bytes s → ReadsAnswered bytes s →
    ∃ (t : State) (p : Nat → Nat → Word), exec .run s = .next t ∧ t.status.extValid = true ∧
      SourcePlane bytes s p ∧
      ∀ r < s.height.toNat + 16, ∀ c < s.width.toNat + 16,
        t.ext.getD (r * (s.width.toNat + 16) + c) 0 = extended p s r c

/-- R206, R208, R66: a `RUN` whose accesses are answered completes with `DONE` and `EXT_VALID`; of
memory it changes destination samples only, no stride padding; of the registers only `STATUS`. The
hidden fields named are those of log entry 3. -/
def Obligations.RunCompletesWithItsFrame : Prop :=
  ∀ (s : State) (bytes : Nat), RunReady bytes s → ReadsAnswered bytes s → WritesAnswered bytes s →
    ∃ t : State, exec .run s = .next t ∧
      (∀ a, ¬InDst bytes s a → readByte t.mem a = readByte s.mem a) ∧
      t = { s with
        status := doneStatus { s.status with extValid := true }
        phase := .idle
        ext := t.ext, colc := t.colc, block := t.block, accV := t.accV, row := t.row, col := t.col
        mem := t.mem, port := t.port, drawn := t.drawn }

/-- R208, R69, R143, R162, R180: in the integer domain every destination sample is the quantized, scored
transform of the 7×7 window of the mirrored source plane as the `RUN` reads it before its first write,
whether or not the two planes overlap. -/
def Obligations.RunFiltersIntegerPlane : Prop :=
  ∀ (s t : State) (bytes peak : Nat), RunReady bytes s → IntFormat s bytes peak → s.mem.wf = true →
    ReadsAnswered bytes s → WritesAnswered bytes s → exec .run s = .next t →
    ∃ p : Nat → Nat → Word, SourcePlane bytes s p ∧
      ∀ y < s.height.toNat, ∀ x < s.width.toNat,
        QuantInt bytes peak s.params.outClamp
          (scoreSum (coefSum p s y x) s.thr s.params.factorRom) (stored bytes s t.mem y x)

/-- R208, R69, R122, R165, R181: the same in the float domain, every operation rounded once in the order
of the rules, with free draws where a NaN or an out-of-range conversion leaves a value open. The draws
are those of log entry 12. -/
def Obligations.RunFiltersFloatPlane : Prop :=
  ∀ s t : State, RunReady 4 s → FltFormat s → s.mem.wf = true → ReadsAnswered 4 s →
    WritesAnswered 4 s → exec .run s = .next t →
    ∃ p : Nat → Nat → Word, SourcePlane 4 s p ∧
      ∀ y < s.height.toNat, ∀ x < s.width.toNat, OutFlt p s y x (stored 4 s t.mem y x)

/-- R68, R66, R60: the accesses of a `RUN` whose accesses are answered: every source sample read once in
row-major order, then every destination sample written once in row-major order, nothing else. The record
of the port is the model's own (log entry 19). -/
def Obligations.RunAccessOrder : Prop :=
  ∀ (s t : State) (bytes : Nat), RunReady bytes s → ReadsAnswered bytes s → WritesAnswered bytes s →
    exec .run s = .next t →
    t.port.reverse = s.port.reverse
      ++ (rowMajor s.height.toNat s.width.toNat).map (fun q => ⟨false, srcAt bytes s q.1 q.2, bytes⟩)
      ++ (rowMajor s.height.toNat s.width.toNat).map (fun q => ⟨true, dstAt bytes s q.1 q.2, bytes⟩)

/-- R224, R76, R106: the first read that gets a bus error ends the `RUN` with `BUS_ERROR` and its
address; no further access is made, memory is untouched and `EXT_VALID` is clear. `BUS_FAULT` as ranges
and the record of the port are the model's choice (log entries 11 and 19). -/
def Obligations.RunStopsAtFailedRead : Prop :=
  ∀ (s : State) (bytes y x : Nat), RunReady bytes s → y < s.height.toNat → x < s.width.toNat →
    busFaultAt s.params (srcAt bytes s y x) false = true →
    (∀ y' < s.height.toNat, ∀ x' < s.width.toNat, Before y' x' y x →
      busFaultAt s.params (srcAt bytes s y' x') false = false) →
    ∃ t : State, exec .run s = .next t ∧
      t.status = errStatus .busError { s.status with extValid := false } ∧
      t.errAddr.toNat = srcAt bytes s y x ∧ t.mem = s.mem ∧ t.phase = .idle ∧
      t.port.head? = some ⟨false, srcAt bytes s y x, bytes⟩ ∧
      t.port.length = s.port.length + (y * s.width.toNat + x + 1)

/-- R224, R76, R106, I4: the first write that gets a bus error ends the `RUN` with `BUS_ERROR` and its
address; `EXT_VALID` is set; the destination samples before it in row-major order hold their output
words; every byte of memory is unchanged but those of these samples and its own. `BUS_FAULT` as ranges,
the free bytes of the failed write and the record of the port are the model's choice (log entries 11, 13
and 19). -/
def Obligations.RunStopsAtFailedWrite : Prop :=
  ∀ (s : State) (bytes y x : Nat), RunReady bytes s → ReadsAnswered bytes s →
    y < s.height.toNat → x < s.width.toNat →
    busFaultAt s.params (dstAt bytes s y x) true = true →
    (∀ y' < s.height.toNat, ∀ x' < s.width.toNat, Before y' x' y x →
      busFaultAt s.params (dstAt bytes s y' x') true = false) →
    ∃ (t : State) (p : Nat → Nat → Word), exec .run s = .next t ∧
      t.status = errStatus .busError { s.status with extValid := true } ∧
      t.errAddr.toNat = dstAt bytes s y x ∧ t.phase = .idle ∧
      SourcePlane bytes s p ∧
      (s.mem.wf = true → ∀ y' < s.height.toNat, ∀ x' < s.width.toNat, Before y' x' y x →
        OutWord bytes p s y' x' (stored bytes s t.mem y' x')) ∧
      (∀ a, (∀ y' < s.height.toNat, ∀ x' < s.width.toNat, (Before y' x' y x ∨ (y' = y ∧ x' = x)) →
        a < dstAt bytes s y' x' ∨ dstAt bytes s y' x' + bytes ≤ a) →
        readByte t.mem a = readByte s.mem a) ∧
      t.port.head? = some ⟨true, dstAt bytes s y x, bytes⟩ ∧
      t.port.length =
        s.port.length + s.height.toNat * s.width.toNat + (y * s.width.toNat + x + 1)

/-- R209: what a `RUN` writes does not depend on the scratch storage before it, on `DI`, `DO`, `ACC`,
`QP` or on the sequencer's last indices. Both runs start from the same counters of free values (log
entry 2). The record of the port is the model's own (log entry 19). -/
def Obligations.RunIgnoresOldScratchAndDiagnostics : Prop :=
  ∀ (s t t' : State) (bytes : Nat) (ext : List Word) (colc : List (Quad Coef)) (block : Vector Coef 16)
    (v : Coef) (di : Vector Word 28) (dout : Vector Word 16) (lo hi : Word) (qp : BitVec 6)
    (row col : Nat), RunReady bytes s →
    exec .run s = .next t →
    exec .run { s with
      ext := ext, colc := colc, block := block, accV := v, di := di, dout := dout, accLo := lo
      accHi := hi, qp := qp, row := row, col := col } = .next t' →
    t'.mem = t.mem ∧ t'.status = t.status ∧ t'.errAddr = t.errAddr ∧ t'.port = t.port
end

