-- ==== Sys2Proof/Laws/Arith.lean ====
section
/-! SUPPORT. Laws/Arith.lean: what the integer primitives compute: the residue of `u32`, the floor of the
shift, the integer square root, and the bounds of the quantizer's shift. -/

namespace Sys2Proof.Machine

/-- `u32` is the residue modulo `2^32` (R13). -/
theorem u32_eq (a : Int) : (u32 a : Int) = a % 2 ^ 32 := by
  unfold u32; omega

/-- `u32` is a 32-bit value. -/
theorem u32_lt (a : Int) : u32 a < 2 ^ 32 := by
  unfold u32; omega

/-- `u32` keeps a 32-bit value. -/
theorem u32_of_lt {a : Int} (h : 0 ≤ a) (h' : a < 2 ^ 32) : (u32 a : Int) = a := by
  rw [u32_eq, Int.emod_eq_of_lt h h']

/-- One more bit of the root: with the root between `r` and `r + 2^k`, the result is the root. -/
theorem isqrtBits_spec (n k r : Nat) (h : r * r ≤ n) (h' : n < (r + 2 ^ k) * (r + 2 ^ k)) :
    isqrtBits n k r * isqrtBits n k r ≤ n ∧ n < (isqrtBits n k r + 1) * (isqrtBits n k r + 1) := by
  induction k generalizing r with
  | zero => exact ⟨h, by simpa [isqrtBits] using h'⟩
  | succ k ih =>
    rw [isqrtBits]
    split_ifs with hc
    · exact ih _ hc (by rwa [Nat.pow_succ, Nat.mul_two, ← Nat.add_assoc] at h')
    · exact ih _ h (by omega)

/-- `isqrt(n)` is the largest integer whose square is at most `n` (R204). -/
theorem isqrt_spec (n : Nat) : isqrt n * isqrt n ≤ n ∧ n < (isqrt n + 1) * (isqrt n + 1) := by
  refine isqrtBits_spec n _ 0 (by simp) ?_
  have h := Nat.lt_log2_self (n := n)
  refine h.trans_le ?_
  rw [Nat.zero_add, ← Nat.pow_add]
  exact Nat.pow_le_pow_right (by norm_num) (by omega)

/-- `isqrt` is the square root of the library. -/
theorem isqrt_eq_sqrt (n : Nat) : isqrt n = Nat.sqrt n :=
  Nat.eq_sqrt.2 (isqrt_spec n)

/-- The rescaled value is the integer nearest to `v / 2^18`, ties upward (R180). -/
theorem rescaleInt_bounds (v : Int) :
    2 ^ 18 * rescaleInt v - 2 ^ 17 ≤ v ∧ v < 2 ^ 18 * rescaleInt v + 2 ^ 17 := by
  unfold rescaleInt shiftRightFloor; omega

end Sys2Proof.Machine
end

