-- ==== Sys2Proof/Laws/Buffer.lean ====
section
/-! SUPPORT. Laws/Buffer.lean: reading an element of a sequence, of the extended buffer and of the Stage-A
store after one of them is set, and what the copies of one mirror step leave. -/

namespace Sys2Proof.Machine

/-- The element that was set reads as the new value. -/
theorem getD_setPad_same {α : Type} (d : α) (l : List α) (i : Nat) (v e : α) :
    (setPad d l i v).getD i e = v := by
  induction i generalizing l with
  | zero => cases l <;> simp [setPad]
  | succ i ih => cases l <;> simpa [setPad] using ih _

/-- Every other element reads as before. -/
theorem getD_setPad_other {α : Type} (d : α) (l : List α) (i j : Nat) (v : α) (h : j ≠ i) :
    (setPad d l i v).getD j d = l.getD j d := by
  induction i generalizing l j with
  | zero =>
    cases j with
    | zero => exact absurd rfl h
    | succ j => cases l <;> simp [setPad]
  | succ i ih =>
    cases j with
    | zero => cases l <;> simp [setPad]
    | succ j =>
      cases l with
      | nil => simpa [setPad] using ih [] j (by omega)
      | cons a l => simpa [setPad] using ih l j (by omega)

/-- Two positions inside a buffer of pitch `p` coincide only where row and column do. -/
theorem position_inj {p r c r' c' : Nat} (hc : c < p) (hc' : c' < p) (h : r * p + c = r' * p + c') :
    r = r' ∧ c = c' := by
  have hr : r = r' := by
    have h1 : (r * p + c) / p = r := by
      rw [Nat.mul_comm, Nat.mul_add_div (by omega), Nat.div_eq_of_lt hc, Nat.add_zero]
    have h2 : (r' * p + c') / p = r' := by
      rw [Nat.mul_comm, Nat.mul_add_div (by omega), Nat.div_eq_of_lt hc', Nat.add_zero]
    rw [← h1, ← h2, h]
  subst hr
  exact ⟨rfl, by omega⟩

/-- `E[r][c]` after `E[r'][c'] <- v`, for columns inside the pitch. -/
theorem extAt_extSet {p r c r' c' : Nat} (e : List Word) (v : Word) (hc : c < p) (hc' : c' < p) :
    extAt p (extSet p e r' c' v) r c = if r = r' ∧ c = c' then v else extAt p e r c := by
  unfold extAt extSet
  split_ifs with h
  · obtain ⟨rfl, rfl⟩ := h
    exact getD_setPad_same _ _ _ _ _
  · refine getD_setPad_other _ _ _ _ _ fun he => h (position_inj hc hc' he)

/-- Slot `k` of the Stage-A store after slot `j` is set. -/
theorem slotAt_setPad (cs : List (Quad Coef)) (j k : Nat) (q : Quad Coef) :
    slotAt (setPad emptySlot cs j q) k = if k = j then q else slotAt cs k := by
  unfold slotAt
  split_ifs with h
  · subst h; exact getD_setPad_same _ _ _ _ _
  · exact getD_setPad_other _ _ _ _ _ h

/-- The two margin copies of one row at distance `k` (R102): every element but the two reads as before,
and those two read as the elements they reflect. -/
theorem extAt_mirrorCols {W y k r c : Nat} (e : List Word) (hW : 16 ≤ W) (hk : k < 8) (hc : c < W + 16) :
    extAt (W + 16) (mirrorCols W y e k) r c =
      if r = 8 + y ∧ c = 7 - k then extAt (W + 16) e (8 + y) (8 + k)
      else if r = 8 + y ∧ c = 8 + W + k then extAt (W + 16) e (8 + y) (8 + W - 1 - k)
      else extAt (W + 16) e r c := by
  simp only [mirrorCols, extPitch]
  rw [extAt_extSet _ _ hc (by omega), extAt_extSet _ _ (by omega) (by omega),
    extAt_extSet _ _ hc (by omega)]
  split_ifs <;> first | rfl | omega

/-- The two margin copies of one column at distance `k` (R102). -/
theorem extAt_mirrorCell {W H k r c c' : Nat} (e : List Word) (hH : 16 ≤ H) (hk : k < 8)
    (hc : c < W + 16) (hc' : c' < W + 16) :
    extAt (W + 16) (mirrorCell W H k e c') r c =
      if r = 7 - k ∧ c = c' then extAt (W + 16) e (8 + k) c'
      else if r = H + 8 + k ∧ c = c' then extAt (W + 16) e (H + 7 - k) c'
      else extAt (W + 16) e r c := by
  simp only [mirrorCell, extPitch]
  rw [extAt_extSet _ _ hc hc', extAt_extSet _ _ hc' hc', extAt_extSet _ _ hc hc']
  split_ifs <;> first | rfl | omega

/-- The whole mirror of one row (R102): margins read as the interior elements they reflect, every other
element as before. -/
theorem extAt_mirrorRow {W y r c : Nat} (e : List Word) (hW : 16 ≤ W) (hc : c < W + 16) :
    extAt (W + 16) (mirrorRow W y e) r c =
      if r = 8 + y then extAt (W + 16) e r (8 + mirrorIndex c W) else extAt (W + 16) e r c := by
  have h : ∀ n ≤ 8, ∀ r c, c < W + 16 →
      extAt (W + 16) ((List.range n).foldl (mirrorCols W y) e) r c =
        if r = 8 + y ∧ (8 ≤ c + n ∧ c < 8 ∨ 8 + W ≤ c ∧ c < 8 + W + n) then
          extAt (W + 16) e r (8 + mirrorIndex c W)
        else extAt (W + 16) e r c := by
    intro n hn
    induction n with
    | zero => intro r c _; rw [if_neg (by omega)]; rfl
    | succ n ih =>
      intro r c hc
      rw [List.range_succ, List.foldl_append, List.foldl_cons, List.foldl_nil,
        extAt_mirrorCols _ hW (by omega) hc, ih (by omega) r c hc,
        ih (by omega) (8 + y) (8 + n) (by omega), ih (by omega) (8 + y) (8 + W - 1 - n) (by omega)]
      by_cases h1 : r = 8 + y ∧ c = 7 - n
      · rw [if_pos h1, if_neg (by omega), if_pos (by omega), h1.1, h1.2, mirrorIndex,
          if_pos (by omega)]
        congr 1
        omega
      · rw [if_neg h1]
        by_cases h2 : r = 8 + y ∧ c = 8 + W + n
        · rw [if_pos h2, if_neg (by omega), if_pos (by omega), h2.1, h2.2, mirrorIndex,
            if_neg (by omega), if_neg (by omega)]
          congr 1
          omega
        · rw [if_neg h2]
          exact if_congr (by omega) rfl rfl
  unfold mirrorRow
  rw [h 8 le_rfl r c hc]
  by_cases hr : r = 8 + y
  · by_cases hi : 8 ≤ c ∧ c < 8 + W
    · rw [if_neg (by omega), if_pos hr, mirrorIndex, if_neg (by omega), if_pos (by omega)]
      congr 1
      omega
    · rw [if_pos (by omega), if_pos hr]
  · rw [if_neg (by omega), if_neg hr]

/-- The mirror of all columns at distance `k` (R102). -/
theorem extAt_mirrorCells {W H k r c : Nat} (e : List Word) (hH : 16 ≤ H) (hk : k < 8)
    (hc : c < W + 16) :
    extAt (W + 16) ((List.range (W + 16)).foldl (mirrorCell W H k) e) r c =
      if r = 7 - k then extAt (W + 16) e (8 + k) c
      else if r = H + 8 + k then extAt (W + 16) e (H + 7 - k) c
      else extAt (W + 16) e r c := by
  have h : ∀ n ≤ W + 16, ∀ r c, c < W + 16 →
      extAt (W + 16) ((List.range n).foldl (mirrorCell W H k) e) r c =
        if r = 7 - k ∧ c < n then extAt (W + 16) e (8 + k) c
        else if r = H + 8 + k ∧ c < n then extAt (W + 16) e (H + 7 - k) c
        else extAt (W + 16) e r c := by
    intro n hn
    induction n with
    | zero => intro r c _; rw [if_neg (by omega), if_neg (by omega)]; rfl
    | succ n ih =>
      intro r c hc
      rw [List.range_succ, List.foldl_append, List.foldl_cons, List.foldl_nil,
        extAt_mirrorCell _ hH hk hc (by omega), ih (by omega) r c hc,
        ih (by omega) (8 + k) n (by omega), ih (by omega) (H + 7 - k) n (by omega),
        if_neg (by omega : ¬(8 + k = 7 - k ∧ n < n)), if_neg (by omega : ¬(8 + k = H + 8 + k ∧ n < n)),
        if_neg (by omega : ¬(H + 7 - k = 7 - k ∧ n < n)),
        if_neg (by omega : ¬(H + 7 - k = H + 8 + k ∧ n < n))]
      by_cases hcn : c = n
      · subst hcn
        by_cases h1 : r = 7 - k
        · rw [if_pos ⟨h1, rfl⟩, if_pos ⟨h1, by omega⟩]
        · by_cases h2 : r = H + 8 + k
          · rw [if_neg (by omega), if_pos ⟨h2, rfl⟩, if_neg (by omega), if_pos ⟨h2, by omega⟩]
          · rw [if_neg (by omega), if_neg (by omega), if_neg (by omega), if_neg (by omega),
              if_neg (by omega), if_neg (by omega)]
      · rw [if_neg (by omega), if_neg (by omega)]
        exact if_congr (by omega) rfl (if_congr (by omega) rfl rfl)
  rw [h (W + 16) le_rfl r c hc]
  exact if_congr (by omega) rfl (if_congr (by omega) rfl rfl)

/-- The top and bottom margins (R102): every row reads as the interior row it reflects. -/
theorem extAt_mirrorRows {W H r c : Nat} (e : List Word) (hH : 16 ≤ H) (hr : r < H + 16)
    (hc : c < W + 16) :
    extAt (W + 16) (mirrorRows W H e) r c = extAt (W + 16) e (8 + mirrorIndex r H) c := by
  have h : ∀ n ≤ 8, ∀ r c, c < W + 16 → r < H + 16 →
      extAt (W + 16)
        ((List.range n).foldl (fun e k => (List.range (W + 16)).foldl (mirrorCell W H k) e) e) r c =
        if 8 ≤ r + n ∧ r < 8 ∨ 8 + H ≤ r ∧ r < 8 + H + n then
          extAt (W + 16) e (8 + mirrorIndex r H) c
        else extAt (W + 16) e r c := by
    intro n hn
    induction n with
    | zero => intro r c _ _; rw [if_neg (by omega)]; rfl
    | succ n ih =>
      intro r c hc hr
      rw [List.range_succ (n := n), List.foldl_append, List.foldl_cons, List.foldl_nil,
        extAt_mirrorCells _ hH (by omega) hc, ih (by omega) r c hc hr,
        ih (by omega) (8 + n) c hc (by omega), ih (by omega) (H + 7 - n) c hc (by omega)]
      by_cases h1 : r = 7 - n
      · rw [if_pos h1, if_neg (by omega), if_pos (by omega), h1, mirrorIndex, if_pos (by omega)]
        congr 1
        omega
      · rw [if_neg h1]
        by_cases h2 : r = H + 8 + n
        · rw [if_pos h2, if_neg (by omega), if_pos (by omega), h2, mirrorIndex,
            if_neg (by omega), if_neg (by omega)]
          congr 1
          omega
        · rw [if_neg h2]
          exact if_congr (by omega) rfl rfl
  unfold mirrorRows
  rw [h 8 le_rfl r c hc hr]
  split_ifs with hm
  · rfl
  · rw [mirrorIndex, if_neg (by omega), if_pos (by omega)]
    congr 1
    omega

/-- `m(i, N)` is a plane index (R103, R105). -/
theorem mirrorIndex_lt {i N : Nat} (hN : 8 ≤ N) (hi : i < N + 16) : mirrorIndex i N < N := by
  unfold mirrorIndex
  split_ifs <;> omega

/-- A Stage-A group (R125): its four slots read as the four transforms, every other slot as before. -/
theorem slotAt_stageAGroup (n : Nat) (flt : Bool) (p : Nat) (e : List Word) (y j k : Nat)
    (cs : List (Quad Coef)) :
    slotAt (stageAGroup n flt p e y j cs) k =
      if j ≤ k ∧ k < j + 4 then stageA (n + bfDraws * (k - j)) flt p e (y + 5) (k + 5)
      else slotAt cs k := by
  unfold stageAGroup
  have hr : List.range 4 = [0, 1, 2, 3] := rfl
  simp only [hr, List.foldl_cons, List.foldl_nil, slotAt_setPad]
  by_cases h : j ≤ k ∧ k < j + 4
  · rw [if_pos h]
    obtain ⟨i, hi⟩ : ∃ i, k = j + i := ⟨k - j, by omega⟩
    subst hi
    obtain rfl | rfl | rfl | rfl : i = 0 ∨ i = 1 ∨ i = 2 ∨ i = 3 := by omega
    all_goals simp
  · rw [if_neg h, if_neg (by omega), if_neg (by omega), if_neg (by omega), if_neg (by omega)]

end Sys2Proof.Machine
end

