-- ==== Sys2Proof/Laws/State.lean ====
section
/-! SUPPORT. Laws/State.lean: what each named update of State does to each field, so that no proof
unfolds a record update. -/

namespace Sys2Proof.Machine

variable (s : State)

/-! The update `issue`, field by field. -/

@[simp] theorem issue_params (w : Word) : (issue w s).params = s.params := rfl
@[simp] theorem issue_cmd (w : Word) : (issue w s).cmd = w := rfl
@[simp] theorem issue_status (w : Word) :
    (issue w s).status = { s.status with busy := true, done := false, err := false, errCode := .none } := rfl
@[simp] theorem issue_ie (w : Word) : (issue w s).ie = s.ie := rfl
@[simp] theorem issue_qp (w : Word) : (issue w s).qp = s.qp := rfl
@[simp] theorem issue_fmt (w : Word) : (issue w s).fmt = s.fmt := rfl
@[simp] theorem issue_width (w : Word) : (issue w s).width = s.width := rfl
@[simp] theorem issue_height (w : Word) : (issue w s).height = s.height := rfl
@[simp] theorem issue_errAddr (w : Word) : (issue w s).errAddr = 0 := rfl
@[simp] theorem issue_srcBase (w : Word) : (issue w s).srcBase = s.srcBase := rfl
@[simp] theorem issue_srcStride (w : Word) : (issue w s).srcStride = s.srcStride := rfl
@[simp] theorem issue_dstBase (w : Word) : (issue w s).dstBase = s.dstBase := rfl
@[simp] theorem issue_dstStride (w : Word) : (issue w s).dstStride = s.dstStride := rfl
@[simp] theorem issue_thr (w : Word) : (issue w s).thr = s.thr := rfl
@[simp] theorem issue_di (w : Word) : (issue w s).di = s.di := rfl
@[simp] theorem issue_dout (w : Word) : (issue w s).dout = s.dout := rfl
@[simp] theorem issue_accLo (w : Word) : (issue w s).accLo = s.accLo := rfl
@[simp] theorem issue_accHi (w : Word) : (issue w s).accHi = s.accHi := rfl
@[simp] theorem issue_ext (w : Word) : (issue w s).ext = s.ext := rfl
@[simp] theorem issue_colc (w : Word) : (issue w s).colc = s.colc := rfl
@[simp] theorem issue_block (w : Word) : (issue w s).block = s.block := rfl
@[simp] theorem issue_accV (w : Word) : (issue w s).accV = s.accV := rfl
@[simp] theorem issue_phase (w : Word) : (issue w s).phase = .issued := rfl
@[simp] theorem issue_row (w : Word) : (issue w s).row = s.row := rfl
@[simp] theorem issue_col (w : Word) : (issue w s).col = s.col := rfl
@[simp] theorem issue_mem (w : Word) : (issue w s).mem = s.mem := rfl
@[simp] theorem issue_port (w : Word) : (issue w s).port = [] := rfl
@[simp] theorem issue_races (w : Word) : (issue w s).races = [] := rfl
@[simp] theorem issue_script (w : Word) : (issue w s).script = s.script := rfl
@[simp] theorem issue_response (w : Word) : (issue w s).response = s.response := rfl
@[simp] theorem issue_drawn (w : Word) : (issue w s).drawn = s.drawn := rfl
@[simp] theorem issue_seen (w : Word) : (issue w s).seen = s.seen := rfl

/-! The update `complete`, field by field. -/

@[simp] theorem complete_params : (complete s).params = s.params := rfl
@[simp] theorem complete_cmd : (complete s).cmd = s.cmd := rfl
@[simp] theorem complete_status :
    (complete s).status = { s.status with busy := false, done := true } := rfl
@[simp] theorem complete_ie : (complete s).ie = s.ie := rfl
@[simp] theorem complete_qp : (complete s).qp = s.qp := rfl
@[simp] theorem complete_fmt : (complete s).fmt = s.fmt := rfl
@[simp] theorem complete_width : (complete s).width = s.width := rfl
@[simp] theorem complete_height : (complete s).height = s.height := rfl
@[simp] theorem complete_errAddr : (complete s).errAddr = s.errAddr := rfl
@[simp] theorem complete_srcBase : (complete s).srcBase = s.srcBase := rfl
@[simp] theorem complete_srcStride : (complete s).srcStride = s.srcStride := rfl
@[simp] theorem complete_dstBase : (complete s).dstBase = s.dstBase := rfl
@[simp] theorem complete_dstStride : (complete s).dstStride = s.dstStride := rfl
@[simp] theorem complete_thr : (complete s).thr = s.thr := rfl
@[simp] theorem complete_di : (complete s).di = s.di := rfl
@[simp] theorem complete_dout : (complete s).dout = s.dout := rfl
@[simp] theorem complete_accLo : (complete s).accLo = s.accLo := rfl
@[simp] theorem complete_accHi : (complete s).accHi = s.accHi := rfl
@[simp] theorem complete_ext : (complete s).ext = s.ext := rfl
@[simp] theorem complete_colc : (complete s).colc = s.colc := rfl
@[simp] theorem complete_block : (complete s).block = s.block := rfl
@[simp] theorem complete_accV : (complete s).accV = s.accV := rfl
@[simp] theorem complete_phase : (complete s).phase = .idle := rfl
@[simp] theorem complete_row : (complete s).row = s.row := rfl
@[simp] theorem complete_col : (complete s).col = s.col := rfl
@[simp] theorem complete_mem : (complete s).mem = s.mem := rfl
@[simp] theorem complete_port : (complete s).port = s.port := rfl
@[simp] theorem complete_races : (complete s).races = s.races := rfl
@[simp] theorem complete_script : (complete s).script = s.script := rfl
@[simp] theorem complete_response : (complete s).response = s.response := rfl
@[simp] theorem complete_drawn : (complete s).drawn = s.drawn := rfl
@[simp] theorem complete_seen : (complete s).seen = s.seen := rfl

/-! The update `raiseError`, field by field. -/

@[simp] theorem raiseError_params (c : ErrCode) (a : Word) :
    (raiseError c a s).params = s.params := rfl
@[simp] theorem raiseError_cmd (c : ErrCode) (a : Word) : (raiseError c a s).cmd = s.cmd := rfl
@[simp] theorem raiseError_status (c : ErrCode) (a : Word) :
    (raiseError c a s).status = { s.status with busy := false, err := true, errCode := c } := rfl
@[simp] theorem raiseError_ie (c : ErrCode) (a : Word) : (raiseError c a s).ie = s.ie := rfl
@[simp] theorem raiseError_qp (c : ErrCode) (a : Word) : (raiseError c a s).qp = s.qp := rfl
@[simp] theorem raiseError_fmt (c : ErrCode) (a : Word) : (raiseError c a s).fmt = s.fmt := rfl
@[simp] theorem raiseError_width (c : ErrCode) (a : Word) :
    (raiseError c a s).width = s.width := rfl
@[simp] theorem raiseError_height (c : ErrCode) (a : Word) :
    (raiseError c a s).height = s.height := rfl
@[simp] theorem raiseError_errAddr (c : ErrCode) (a : Word) : (raiseError c a s).errAddr = a := rfl
@[simp] theorem raiseError_srcBase (c : ErrCode) (a : Word) :
    (raiseError c a s).srcBase = s.srcBase := rfl
@[simp] theorem raiseError_srcStride (c : ErrCode) (a : Word) :
    (raiseError c a s).srcStride = s.srcStride := rfl
@[simp] theorem raiseError_dstBase (c : ErrCode) (a : Word) :
    (raiseError c a s).dstBase = s.dstBase := rfl
@[simp] theorem raiseError_dstStride (c : ErrCode) (a : Word) :
    (raiseError c a s).dstStride = s.dstStride := rfl
@[simp] theorem raiseError_thr (c : ErrCode) (a : Word) : (raiseError c a s).thr = s.thr := rfl
@[simp] theorem raiseError_di (c : ErrCode) (a : Word) : (raiseError c a s).di = s.di := rfl
@[simp] theorem raiseError_dout (c : ErrCode) (a : Word) : (raiseError c a s).dout = s.dout := rfl
@[simp] theorem raiseError_accLo (c : ErrCode) (a : Word) :
    (raiseError c a s).accLo = s.accLo := rfl
@[simp] theorem raiseError_accHi (c : ErrCode) (a : Word) :
    (raiseError c a s).accHi = s.accHi := rfl
@[simp] theorem raiseError_ext (c : ErrCode) (a : Word) : (raiseError c a s).ext = s.ext := rfl
@[simp] theorem raiseError_colc (c : ErrCode) (a : Word) : (raiseError c a s).colc = s.colc := rfl
@[simp] theorem raiseError_block (c : ErrCode) (a : Word) :
    (raiseError c a s).block = s.block := rfl
@[simp] theorem raiseError_accV (c : ErrCode) (a : Word) : (raiseError c a s).accV = s.accV := rfl
@[simp] theorem raiseError_phase (c : ErrCode) (a : Word) : (raiseError c a s).phase = .idle := rfl
@[simp] theorem raiseError_row (c : ErrCode) (a : Word) : (raiseError c a s).row = s.row := rfl
@[simp] theorem raiseError_col (c : ErrCode) (a : Word) : (raiseError c a s).col = s.col := rfl
@[simp] theorem raiseError_mem (c : ErrCode) (a : Word) : (raiseError c a s).mem = s.mem := rfl
@[simp] theorem raiseError_port (c : ErrCode) (a : Word) : (raiseError c a s).port = s.port := rfl
@[simp] theorem raiseError_races (c : ErrCode) (a : Word) :
    (raiseError c a s).races = s.races := rfl
@[simp] theorem raiseError_script (c : ErrCode) (a : Word) :
    (raiseError c a s).script = s.script := rfl
@[simp] theorem raiseError_response (c : ErrCode) (a : Word) :
    (raiseError c a s).response = s.response := rfl
@[simp] theorem raiseError_drawn (c : ErrCode) (a : Word) :
    (raiseError c a s).drawn = s.drawn := rfl
@[simp] theorem raiseError_seen (c : ErrCode) (a : Word) : (raiseError c a s).seen = s.seen := rfl

/-! The update `drawOn`, field by field. -/

@[simp] theorem drawOn_params : (drawOn s).params = s.params := rfl
@[simp] theorem drawOn_cmd : (drawOn s).cmd = s.cmd := rfl
@[simp] theorem drawOn_status : (drawOn s).status = s.status := rfl
@[simp] theorem drawOn_ie : (drawOn s).ie = s.ie := rfl
@[simp] theorem drawOn_qp : (drawOn s).qp = s.qp := rfl
@[simp] theorem drawOn_fmt : (drawOn s).fmt = s.fmt := rfl
@[simp] theorem drawOn_width : (drawOn s).width = s.width := rfl
@[simp] theorem drawOn_height : (drawOn s).height = s.height := rfl
@[simp] theorem drawOn_errAddr : (drawOn s).errAddr = s.errAddr := rfl
@[simp] theorem drawOn_srcBase : (drawOn s).srcBase = s.srcBase := rfl
@[simp] theorem drawOn_srcStride : (drawOn s).srcStride = s.srcStride := rfl
@[simp] theorem drawOn_dstBase : (drawOn s).dstBase = s.dstBase := rfl
@[simp] theorem drawOn_dstStride : (drawOn s).dstStride = s.dstStride := rfl
@[simp] theorem drawOn_thr : (drawOn s).thr = s.thr := rfl
@[simp] theorem drawOn_di : (drawOn s).di = s.di := rfl
@[simp] theorem drawOn_dout : (drawOn s).dout = s.dout := rfl
@[simp] theorem drawOn_accLo : (drawOn s).accLo = s.accLo := rfl
@[simp] theorem drawOn_accHi : (drawOn s).accHi = s.accHi := rfl
@[simp] theorem drawOn_ext : (drawOn s).ext = s.ext := rfl
@[simp] theorem drawOn_colc : (drawOn s).colc = s.colc := rfl
@[simp] theorem drawOn_block : (drawOn s).block = s.block := rfl
@[simp] theorem drawOn_accV : (drawOn s).accV = s.accV := rfl
@[simp] theorem drawOn_phase : (drawOn s).phase = s.phase := rfl
@[simp] theorem drawOn_row : (drawOn s).row = s.row := rfl
@[simp] theorem drawOn_col : (drawOn s).col = s.col := rfl
@[simp] theorem drawOn_mem : (drawOn s).mem = s.mem := rfl
@[simp] theorem drawOn_port : (drawOn s).port = s.port := rfl
@[simp] theorem drawOn_races : (drawOn s).races = s.races := rfl
@[simp] theorem drawOn_script : (drawOn s).script = s.script := rfl
@[simp] theorem drawOn_response : (drawOn s).response = s.response := rfl
@[simp] theorem drawOn_drawn : (drawOn s).drawn = s.drawn + Config.drawStride := rfl
@[simp] theorem drawOn_seen : (drawOn s).seen = s.seen := rfl

/-! The update `portIssue`, field by field. -/

@[simp] theorem portIssue_params (b : Bool) (a n : Nat) :
    (portIssue b a n s).params = s.params := rfl
@[simp] theorem portIssue_cmd (b : Bool) (a n : Nat) : (portIssue b a n s).cmd = s.cmd := rfl
@[simp] theorem portIssue_status (b : Bool) (a n : Nat) :
    (portIssue b a n s).status = s.status := rfl
@[simp] theorem portIssue_ie (b : Bool) (a n : Nat) : (portIssue b a n s).ie = s.ie := rfl
@[simp] theorem portIssue_qp (b : Bool) (a n : Nat) : (portIssue b a n s).qp = s.qp := rfl
@[simp] theorem portIssue_fmt (b : Bool) (a n : Nat) : (portIssue b a n s).fmt = s.fmt := rfl
@[simp] theorem portIssue_width (b : Bool) (a n : Nat) : (portIssue b a n s).width = s.width := rfl
@[simp] theorem portIssue_height (b : Bool) (a n : Nat) :
    (portIssue b a n s).height = s.height := rfl
@[simp] theorem portIssue_errAddr (b : Bool) (a n : Nat) :
    (portIssue b a n s).errAddr = s.errAddr := rfl
@[simp] theorem portIssue_srcBase (b : Bool) (a n : Nat) :
    (portIssue b a n s).srcBase = s.srcBase := rfl
@[simp] theorem portIssue_srcStride (b : Bool) (a n : Nat) :
    (portIssue b a n s).srcStride = s.srcStride := rfl
@[simp] theorem portIssue_dstBase (b : Bool) (a n : Nat) :
    (portIssue b a n s).dstBase = s.dstBase := rfl
@[simp] theorem portIssue_dstStride (b : Bool) (a n : Nat) :
    (portIssue b a n s).dstStride = s.dstStride := rfl
@[simp] theorem portIssue_thr (b : Bool) (a n : Nat) : (portIssue b a n s).thr = s.thr := rfl
@[simp] theorem portIssue_di (b : Bool) (a n : Nat) : (portIssue b a n s).di = s.di := rfl
@[simp] theorem portIssue_dout (b : Bool) (a n : Nat) : (portIssue b a n s).dout = s.dout := rfl
@[simp] theorem portIssue_accLo (b : Bool) (a n : Nat) : (portIssue b a n s).accLo = s.accLo := rfl
@[simp] theorem portIssue_accHi (b : Bool) (a n : Nat) : (portIssue b a n s).accHi = s.accHi := rfl
@[simp] theorem portIssue_ext (b : Bool) (a n : Nat) : (portIssue b a n s).ext = s.ext := rfl
@[simp] theorem portIssue_colc (b : Bool) (a n : Nat) : (portIssue b a n s).colc = s.colc := rfl
@[simp] theorem portIssue_block (b : Bool) (a n : Nat) : (portIssue b a n s).block = s.block := rfl
@[simp] theorem portIssue_accV (b : Bool) (a n : Nat) : (portIssue b a n s).accV = s.accV := rfl
@[simp] theorem portIssue_phase (b : Bool) (a n : Nat) : (portIssue b a n s).phase = s.phase := rfl
@[simp] theorem portIssue_row (b : Bool) (a n : Nat) : (portIssue b a n s).row = s.row := rfl
@[simp] theorem portIssue_col (b : Bool) (a n : Nat) : (portIssue b a n s).col = s.col := rfl
@[simp] theorem portIssue_mem (b : Bool) (a n : Nat) : (portIssue b a n s).mem = s.mem := rfl
@[simp] theorem portIssue_port (b : Bool) (a n : Nat) :
    (portIssue b a n s).port = ⟨b, a, n⟩ :: s.port := rfl
@[simp] theorem portIssue_races (b : Bool) (a n : Nat) : (portIssue b a n s).races = s.races := rfl
@[simp] theorem portIssue_script (b : Bool) (a n : Nat) :
    (portIssue b a n s).script = s.script := rfl
@[simp] theorem portIssue_response (b : Bool) (a n : Nat) :
    (portIssue b a n s).response = s.response := rfl
@[simp] theorem portIssue_drawn (b : Bool) (a n : Nat) : (portIssue b a n s).drawn = s.drawn := rfl
@[simp] theorem portIssue_seen (b : Bool) (a n : Nat) : (portIssue b a n s).seen = s.seen := rfl

/-! The update `storeSample`, field by field. -/

@[simp] theorem storeSample_params (a n : Nat) (w : Word) :
    (storeSample a n w s).params = s.params := rfl
@[simp] theorem storeSample_cmd (a n : Nat) (w : Word) : (storeSample a n w s).cmd = s.cmd := rfl
@[simp] theorem storeSample_status (a n : Nat) (w : Word) :
    (storeSample a n w s).status = s.status := rfl
@[simp] theorem storeSample_ie (a n : Nat) (w : Word) : (storeSample a n w s).ie = s.ie := rfl
@[simp] theorem storeSample_qp (a n : Nat) (w : Word) : (storeSample a n w s).qp = s.qp := rfl
@[simp] theorem storeSample_fmt (a n : Nat) (w : Word) : (storeSample a n w s).fmt = s.fmt := rfl
@[simp] theorem storeSample_width (a n : Nat) (w : Word) :
    (storeSample a n w s).width = s.width := rfl
@[simp] theorem storeSample_height (a n : Nat) (w : Word) :
    (storeSample a n w s).height = s.height := rfl
@[simp] theorem storeSample_errAddr (a n : Nat) (w : Word) :
    (storeSample a n w s).errAddr = s.errAddr := rfl
@[simp] theorem storeSample_srcBase (a n : Nat) (w : Word) :
    (storeSample a n w s).srcBase = s.srcBase := rfl
@[simp] theorem storeSample_srcStride (a n : Nat) (w : Word) :
    (storeSample a n w s).srcStride = s.srcStride := rfl
@[simp] theorem storeSample_dstBase (a n : Nat) (w : Word) :
    (storeSample a n w s).dstBase = s.dstBase := rfl
@[simp] theorem storeSample_dstStride (a n : Nat) (w : Word) :
    (storeSample a n w s).dstStride = s.dstStride := rfl
@[simp] theorem storeSample_thr (a n : Nat) (w : Word) : (storeSample a n w s).thr = s.thr := rfl
@[simp] theorem storeSample_di (a n : Nat) (w : Word) : (storeSample a n w s).di = s.di := rfl
@[simp] theorem storeSample_dout (a n : Nat) (w : Word) : (storeSample a n w s).dout = s.dout := rfl
@[simp] theorem storeSample_accLo (a n : Nat) (w : Word) :
    (storeSample a n w s).accLo = s.accLo := rfl
@[simp] theorem storeSample_accHi (a n : Nat) (w : Word) :
    (storeSample a n w s).accHi = s.accHi := rfl
@[simp] theorem storeSample_ext (a n : Nat) (w : Word) : (storeSample a n w s).ext = s.ext := rfl
@[simp] theorem storeSample_colc (a n : Nat) (w : Word) : (storeSample a n w s).colc = s.colc := rfl
@[simp] theorem storeSample_block (a n : Nat) (w : Word) :
    (storeSample a n w s).block = s.block := rfl
@[simp] theorem storeSample_accV (a n : Nat) (w : Word) : (storeSample a n w s).accV = s.accV := rfl
@[simp] theorem storeSample_phase (a n : Nat) (w : Word) :
    (storeSample a n w s).phase = s.phase := rfl
@[simp] theorem storeSample_row (a n : Nat) (w : Word) : (storeSample a n w s).row = s.row := rfl
@[simp] theorem storeSample_col (a n : Nat) (w : Word) : (storeSample a n w s).col = s.col := rfl
@[simp] theorem storeSample_mem (a n : Nat) (w : Word) :
    (storeSample a n w s).mem = memWrite s.mem a n w := rfl
@[simp] theorem storeSample_port (a n : Nat) (w : Word) : (storeSample a n w s).port = s.port := rfl
@[simp] theorem storeSample_races (a n : Nat) (w : Word) :
    (storeSample a n w s).races = s.races := rfl
@[simp] theorem storeSample_script (a n : Nat) (w : Word) :
    (storeSample a n w s).script = s.script := rfl
@[simp] theorem storeSample_response (a n : Nat) (w : Word) :
    (storeSample a n w s).response = s.response := rfl
@[simp] theorem storeSample_drawn (a n : Nat) (w : Word) :
    (storeSample a n w s).drawn = s.drawn := rfl
@[simp] theorem storeSample_seen (a n : Nat) (w : Word) : (storeSample a n w s).seen = s.seen := rfl

/-! The update `setDout0`, field by field. -/

@[simp] theorem setDout0_params (w : Word) : (setDout0 w s).params = s.params := rfl
@[simp] theorem setDout0_cmd (w : Word) : (setDout0 w s).cmd = s.cmd := rfl
@[simp] theorem setDout0_status (w : Word) : (setDout0 w s).status = s.status := rfl
@[simp] theorem setDout0_ie (w : Word) : (setDout0 w s).ie = s.ie := rfl
@[simp] theorem setDout0_qp (w : Word) : (setDout0 w s).qp = s.qp := rfl
@[simp] theorem setDout0_fmt (w : Word) : (setDout0 w s).fmt = s.fmt := rfl
@[simp] theorem setDout0_width (w : Word) : (setDout0 w s).width = s.width := rfl
@[simp] theorem setDout0_height (w : Word) : (setDout0 w s).height = s.height := rfl
@[simp] theorem setDout0_errAddr (w : Word) : (setDout0 w s).errAddr = s.errAddr := rfl
@[simp] theorem setDout0_srcBase (w : Word) : (setDout0 w s).srcBase = s.srcBase := rfl
@[simp] theorem setDout0_srcStride (w : Word) : (setDout0 w s).srcStride = s.srcStride := rfl
@[simp] theorem setDout0_dstBase (w : Word) : (setDout0 w s).dstBase = s.dstBase := rfl
@[simp] theorem setDout0_dstStride (w : Word) : (setDout0 w s).dstStride = s.dstStride := rfl
@[simp] theorem setDout0_thr (w : Word) : (setDout0 w s).thr = s.thr := rfl
@[simp] theorem setDout0_di (w : Word) : (setDout0 w s).di = s.di := rfl
@[simp] theorem setDout0_dout (w : Word) : (setDout0 w s).dout = s.dout.set 0 w := rfl
@[simp] theorem setDout0_accLo (w : Word) : (setDout0 w s).accLo = s.accLo := rfl
@[simp] theorem setDout0_accHi (w : Word) : (setDout0 w s).accHi = s.accHi := rfl
@[simp] theorem setDout0_ext (w : Word) : (setDout0 w s).ext = s.ext := rfl
@[simp] theorem setDout0_colc (w : Word) : (setDout0 w s).colc = s.colc := rfl
@[simp] theorem setDout0_block (w : Word) : (setDout0 w s).block = s.block := rfl
@[simp] theorem setDout0_accV (w : Word) : (setDout0 w s).accV = s.accV := rfl
@[simp] theorem setDout0_phase (w : Word) : (setDout0 w s).phase = s.phase := rfl
@[simp] theorem setDout0_row (w : Word) : (setDout0 w s).row = s.row := rfl
@[simp] theorem setDout0_col (w : Word) : (setDout0 w s).col = s.col := rfl
@[simp] theorem setDout0_mem (w : Word) : (setDout0 w s).mem = s.mem := rfl
@[simp] theorem setDout0_port (w : Word) : (setDout0 w s).port = s.port := rfl
@[simp] theorem setDout0_races (w : Word) : (setDout0 w s).races = s.races := rfl
@[simp] theorem setDout0_script (w : Word) : (setDout0 w s).script = s.script := rfl
@[simp] theorem setDout0_response (w : Word) : (setDout0 w s).response = s.response := rfl
@[simp] theorem setDout0_drawn (w : Word) : (setDout0 w s).drawn = s.drawn := rfl
@[simp] theorem setDout0_seen (w : Word) : (setDout0 w s).seen = s.seen := rfl

/-! The update `setDout4`, field by field. -/

@[simp] theorem setDout4_params (q : Quad Word) : (setDout4 q s).params = s.params := rfl
@[simp] theorem setDout4_cmd (q : Quad Word) : (setDout4 q s).cmd = s.cmd := rfl
@[simp] theorem setDout4_status (q : Quad Word) : (setDout4 q s).status = s.status := rfl
@[simp] theorem setDout4_ie (q : Quad Word) : (setDout4 q s).ie = s.ie := rfl
@[simp] theorem setDout4_qp (q : Quad Word) : (setDout4 q s).qp = s.qp := rfl
@[simp] theorem setDout4_fmt (q : Quad Word) : (setDout4 q s).fmt = s.fmt := rfl
@[simp] theorem setDout4_width (q : Quad Word) : (setDout4 q s).width = s.width := rfl
@[simp] theorem setDout4_height (q : Quad Word) : (setDout4 q s).height = s.height := rfl
@[simp] theorem setDout4_errAddr (q : Quad Word) : (setDout4 q s).errAddr = s.errAddr := rfl
@[simp] theorem setDout4_srcBase (q : Quad Word) : (setDout4 q s).srcBase = s.srcBase := rfl
@[simp] theorem setDout4_srcStride (q : Quad Word) : (setDout4 q s).srcStride = s.srcStride := rfl
@[simp] theorem setDout4_dstBase (q : Quad Word) : (setDout4 q s).dstBase = s.dstBase := rfl
@[simp] theorem setDout4_dstStride (q : Quad Word) : (setDout4 q s).dstStride = s.dstStride := rfl
@[simp] theorem setDout4_thr (q : Quad Word) : (setDout4 q s).thr = s.thr := rfl
@[simp] theorem setDout4_di (q : Quad Word) : (setDout4 q s).di = s.di := rfl
@[simp] theorem setDout4_dout (q : Quad Word) :
    (setDout4 q s).dout = (((s.dout.set 0 q.t0).set 1 q.t1).set 2 q.t2).set 3 q.t3 := rfl
@[simp] theorem setDout4_accLo (q : Quad Word) : (setDout4 q s).accLo = s.accLo := rfl
@[simp] theorem setDout4_accHi (q : Quad Word) : (setDout4 q s).accHi = s.accHi := rfl
@[simp] theorem setDout4_ext (q : Quad Word) : (setDout4 q s).ext = s.ext := rfl
@[simp] theorem setDout4_colc (q : Quad Word) : (setDout4 q s).colc = s.colc := rfl
@[simp] theorem setDout4_block (q : Quad Word) : (setDout4 q s).block = s.block := rfl
@[simp] theorem setDout4_accV (q : Quad Word) : (setDout4 q s).accV = s.accV := rfl
@[simp] theorem setDout4_phase (q : Quad Word) : (setDout4 q s).phase = s.phase := rfl
@[simp] theorem setDout4_row (q : Quad Word) : (setDout4 q s).row = s.row := rfl
@[simp] theorem setDout4_col (q : Quad Word) : (setDout4 q s).col = s.col := rfl
@[simp] theorem setDout4_mem (q : Quad Word) : (setDout4 q s).mem = s.mem := rfl
@[simp] theorem setDout4_port (q : Quad Word) : (setDout4 q s).port = s.port := rfl
@[simp] theorem setDout4_races (q : Quad Word) : (setDout4 q s).races = s.races := rfl
@[simp] theorem setDout4_script (q : Quad Word) : (setDout4 q s).script = s.script := rfl
@[simp] theorem setDout4_response (q : Quad Word) : (setDout4 q s).response = s.response := rfl
@[simp] theorem setDout4_drawn (q : Quad Word) : (setDout4 q s).drawn = s.drawn := rfl
@[simp] theorem setDout4_seen (q : Quad Word) : (setDout4 q s).seen = s.seen := rfl

/-! The update `setDout16`, field by field. -/

@[simp] theorem setDout16_params (d : Vector Word 16) : (setDout16 d s).params = s.params := rfl
@[simp] theorem setDout16_cmd (d : Vector Word 16) : (setDout16 d s).cmd = s.cmd := rfl
@[simp] theorem setDout16_status (d : Vector Word 16) : (setDout16 d s).status = s.status := rfl
@[simp] theorem setDout16_ie (d : Vector Word 16) : (setDout16 d s).ie = s.ie := rfl
@[simp] theorem setDout16_qp (d : Vector Word 16) : (setDout16 d s).qp = s.qp := rfl
@[simp] theorem setDout16_fmt (d : Vector Word 16) : (setDout16 d s).fmt = s.fmt := rfl
@[simp] theorem setDout16_width (d : Vector Word 16) : (setDout16 d s).width = s.width := rfl
@[simp] theorem setDout16_height (d : Vector Word 16) : (setDout16 d s).height = s.height := rfl
@[simp] theorem setDout16_errAddr (d : Vector Word 16) : (setDout16 d s).errAddr = s.errAddr := rfl
@[simp] theorem setDout16_srcBase (d : Vector Word 16) : (setDout16 d s).srcBase = s.srcBase := rfl
@[simp] theorem setDout16_srcStride (d : Vector Word 16) :
    (setDout16 d s).srcStride = s.srcStride := rfl
@[simp] theorem setDout16_dstBase (d : Vector Word 16) : (setDout16 d s).dstBase = s.dstBase := rfl
@[simp] theorem setDout16_dstStride (d : Vector Word 16) :
    (setDout16 d s).dstStride = s.dstStride := rfl
@[simp] theorem setDout16_thr (d : Vector Word 16) : (setDout16 d s).thr = s.thr := rfl
@[simp] theorem setDout16_di (d : Vector Word 16) : (setDout16 d s).di = s.di := rfl
@[simp] theorem setDout16_dout (d : Vector Word 16) : (setDout16 d s).dout = d := rfl
@[simp] theorem setDout16_accLo (d : Vector Word 16) : (setDout16 d s).accLo = s.accLo := rfl
@[simp] theorem setDout16_accHi (d : Vector Word 16) : (setDout16 d s).accHi = s.accHi := rfl
@[simp] theorem setDout16_ext (d : Vector Word 16) : (setDout16 d s).ext = s.ext := rfl
@[simp] theorem setDout16_colc (d : Vector Word 16) : (setDout16 d s).colc = s.colc := rfl
@[simp] theorem setDout16_block (d : Vector Word 16) : (setDout16 d s).block = s.block := rfl
@[simp] theorem setDout16_accV (d : Vector Word 16) : (setDout16 d s).accV = s.accV := rfl
@[simp] theorem setDout16_phase (d : Vector Word 16) : (setDout16 d s).phase = s.phase := rfl
@[simp] theorem setDout16_row (d : Vector Word 16) : (setDout16 d s).row = s.row := rfl
@[simp] theorem setDout16_col (d : Vector Word 16) : (setDout16 d s).col = s.col := rfl
@[simp] theorem setDout16_mem (d : Vector Word 16) : (setDout16 d s).mem = s.mem := rfl
@[simp] theorem setDout16_port (d : Vector Word 16) : (setDout16 d s).port = s.port := rfl
@[simp] theorem setDout16_races (d : Vector Word 16) : (setDout16 d s).races = s.races := rfl
@[simp] theorem setDout16_script (d : Vector Word 16) : (setDout16 d s).script = s.script := rfl
@[simp] theorem setDout16_response (d : Vector Word 16) :
    (setDout16 d s).response = s.response := rfl
@[simp] theorem setDout16_drawn (d : Vector Word 16) : (setDout16 d s).drawn = s.drawn := rfl
@[simp] theorem setDout16_seen (d : Vector Word 16) : (setDout16 d s).seen = s.seen := rfl

/-! The update `setAccInt`, field by field. -/

@[simp] theorem setAccInt_params (v : Int) : (setAccInt v s).params = s.params := rfl
@[simp] theorem setAccInt_cmd (v : Int) : (setAccInt v s).cmd = s.cmd := rfl
@[simp] theorem setAccInt_status (v : Int) : (setAccInt v s).status = s.status := rfl
@[simp] theorem setAccInt_ie (v : Int) : (setAccInt v s).ie = s.ie := rfl
@[simp] theorem setAccInt_qp (v : Int) : (setAccInt v s).qp = s.qp := rfl
@[simp] theorem setAccInt_fmt (v : Int) : (setAccInt v s).fmt = s.fmt := rfl
@[simp] theorem setAccInt_width (v : Int) : (setAccInt v s).width = s.width := rfl
@[simp] theorem setAccInt_height (v : Int) : (setAccInt v s).height = s.height := rfl
@[simp] theorem setAccInt_errAddr (v : Int) : (setAccInt v s).errAddr = s.errAddr := rfl
@[simp] theorem setAccInt_srcBase (v : Int) : (setAccInt v s).srcBase = s.srcBase := rfl
@[simp] theorem setAccInt_srcStride (v : Int) : (setAccInt v s).srcStride = s.srcStride := rfl
@[simp] theorem setAccInt_dstBase (v : Int) : (setAccInt v s).dstBase = s.dstBase := rfl
@[simp] theorem setAccInt_dstStride (v : Int) : (setAccInt v s).dstStride = s.dstStride := rfl
@[simp] theorem setAccInt_thr (v : Int) : (setAccInt v s).thr = s.thr := rfl
@[simp] theorem setAccInt_di (v : Int) : (setAccInt v s).di = s.di := rfl
@[simp] theorem setAccInt_dout (v : Int) : (setAccInt v s).dout = s.dout := rfl
@[simp] theorem setAccInt_accLo (v : Int) :
    (setAccInt v s).accLo = (BitVec.ofInt 64 v).extractLsb' 0 32 := rfl
@[simp] theorem setAccInt_accHi (v : Int) :
    (setAccInt v s).accHi = (BitVec.ofInt 64 v).extractLsb' 32 32 := rfl
@[simp] theorem setAccInt_ext (v : Int) : (setAccInt v s).ext = s.ext := rfl
@[simp] theorem setAccInt_colc (v : Int) : (setAccInt v s).colc = s.colc := rfl
@[simp] theorem setAccInt_block (v : Int) : (setAccInt v s).block = s.block := rfl
@[simp] theorem setAccInt_accV (v : Int) : (setAccInt v s).accV = s.accV := rfl
@[simp] theorem setAccInt_phase (v : Int) : (setAccInt v s).phase = s.phase := rfl
@[simp] theorem setAccInt_row (v : Int) : (setAccInt v s).row = s.row := rfl
@[simp] theorem setAccInt_col (v : Int) : (setAccInt v s).col = s.col := rfl
@[simp] theorem setAccInt_mem (v : Int) : (setAccInt v s).mem = s.mem := rfl
@[simp] theorem setAccInt_port (v : Int) : (setAccInt v s).port = s.port := rfl
@[simp] theorem setAccInt_races (v : Int) : (setAccInt v s).races = s.races := rfl
@[simp] theorem setAccInt_script (v : Int) : (setAccInt v s).script = s.script := rfl
@[simp] theorem setAccInt_response (v : Int) : (setAccInt v s).response = s.response := rfl
@[simp] theorem setAccInt_drawn (v : Int) : (setAccInt v s).drawn = s.drawn := rfl
@[simp] theorem setAccInt_seen (v : Int) : (setAccInt v s).seen = s.seen := rfl

/-! The update `setAccFlt`, field by field. -/

@[simp] theorem setAccFlt_params (v : Word) : (setAccFlt v s).params = s.params := rfl
@[simp] theorem setAccFlt_cmd (v : Word) : (setAccFlt v s).cmd = s.cmd := rfl
@[simp] theorem setAccFlt_status (v : Word) : (setAccFlt v s).status = s.status := rfl
@[simp] theorem setAccFlt_ie (v : Word) : (setAccFlt v s).ie = s.ie := rfl
@[simp] theorem setAccFlt_qp (v : Word) : (setAccFlt v s).qp = s.qp := rfl
@[simp] theorem setAccFlt_fmt (v : Word) : (setAccFlt v s).fmt = s.fmt := rfl
@[simp] theorem setAccFlt_width (v : Word) : (setAccFlt v s).width = s.width := rfl
@[simp] theorem setAccFlt_height (v : Word) : (setAccFlt v s).height = s.height := rfl
@[simp] theorem setAccFlt_errAddr (v : Word) : (setAccFlt v s).errAddr = s.errAddr := rfl
@[simp] theorem setAccFlt_srcBase (v : Word) : (setAccFlt v s).srcBase = s.srcBase := rfl
@[simp] theorem setAccFlt_srcStride (v : Word) : (setAccFlt v s).srcStride = s.srcStride := rfl
@[simp] theorem setAccFlt_dstBase (v : Word) : (setAccFlt v s).dstBase = s.dstBase := rfl
@[simp] theorem setAccFlt_dstStride (v : Word) : (setAccFlt v s).dstStride = s.dstStride := rfl
@[simp] theorem setAccFlt_thr (v : Word) : (setAccFlt v s).thr = s.thr := rfl
@[simp] theorem setAccFlt_di (v : Word) : (setAccFlt v s).di = s.di := rfl
@[simp] theorem setAccFlt_dout (v : Word) : (setAccFlt v s).dout = s.dout := rfl
@[simp] theorem setAccFlt_accLo (v : Word) : (setAccFlt v s).accLo = v := rfl
@[simp] theorem setAccFlt_accHi (v : Word) : (setAccFlt v s).accHi = 0 := rfl
@[simp] theorem setAccFlt_ext (v : Word) : (setAccFlt v s).ext = s.ext := rfl
@[simp] theorem setAccFlt_colc (v : Word) : (setAccFlt v s).colc = s.colc := rfl
@[simp] theorem setAccFlt_block (v : Word) : (setAccFlt v s).block = s.block := rfl
@[simp] theorem setAccFlt_accV (v : Word) : (setAccFlt v s).accV = s.accV := rfl
@[simp] theorem setAccFlt_phase (v : Word) : (setAccFlt v s).phase = s.phase := rfl
@[simp] theorem setAccFlt_row (v : Word) : (setAccFlt v s).row = s.row := rfl
@[simp] theorem setAccFlt_col (v : Word) : (setAccFlt v s).col = s.col := rfl
@[simp] theorem setAccFlt_mem (v : Word) : (setAccFlt v s).mem = s.mem := rfl
@[simp] theorem setAccFlt_port (v : Word) : (setAccFlt v s).port = s.port := rfl
@[simp] theorem setAccFlt_races (v : Word) : (setAccFlt v s).races = s.races := rfl
@[simp] theorem setAccFlt_script (v : Word) : (setAccFlt v s).script = s.script := rfl
@[simp] theorem setAccFlt_response (v : Word) : (setAccFlt v s).response = s.response := rfl
@[simp] theorem setAccFlt_drawn (v : Word) : (setAccFlt v s).drawn = s.drawn := rfl
@[simp] theorem setAccFlt_seen (v : Word) : (setAccFlt v s).seen = s.seen := rfl

/-! The update `installThr`, field by field. -/

@[simp] theorem installThr_params (t : Vector Word 16) (q : Nat) :
    (installThr t q s).params = s.params := rfl
@[simp] theorem installThr_cmd (t : Vector Word 16) (q : Nat) :
    (installThr t q s).cmd = s.cmd := rfl
@[simp] theorem installThr_status (t : Vector Word 16) (q : Nat) :
    (installThr t q s).status = { s.status with thrValid := true } := rfl
@[simp] theorem installThr_ie (t : Vector Word 16) (q : Nat) : (installThr t q s).ie = s.ie := rfl
@[simp] theorem installThr_qp (t : Vector Word 16) (q : Nat) :
    (installThr t q s).qp = BitVec.ofNat 6 q := rfl
@[simp] theorem installThr_fmt (t : Vector Word 16) (q : Nat) :
    (installThr t q s).fmt = s.fmt := rfl
@[simp] theorem installThr_width (t : Vector Word 16) (q : Nat) :
    (installThr t q s).width = s.width := rfl
@[simp] theorem installThr_height (t : Vector Word 16) (q : Nat) :
    (installThr t q s).height = s.height := rfl
@[simp] theorem installThr_errAddr (t : Vector Word 16) (q : Nat) :
    (installThr t q s).errAddr = s.errAddr := rfl
@[simp] theorem installThr_srcBase (t : Vector Word 16) (q : Nat) :
    (installThr t q s).srcBase = s.srcBase := rfl
@[simp] theorem installThr_srcStride (t : Vector Word 16) (q : Nat) :
    (installThr t q s).srcStride = s.srcStride := rfl
@[simp] theorem installThr_dstBase (t : Vector Word 16) (q : Nat) :
    (installThr t q s).dstBase = s.dstBase := rfl
@[simp] theorem installThr_dstStride (t : Vector Word 16) (q : Nat) :
    (installThr t q s).dstStride = s.dstStride := rfl
@[simp] theorem installThr_thr (t : Vector Word 16) (q : Nat) : (installThr t q s).thr = t := rfl
@[simp] theorem installThr_di (t : Vector Word 16) (q : Nat) : (installThr t q s).di = s.di := rfl
@[simp] theorem installThr_dout (t : Vector Word 16) (q : Nat) :
    (installThr t q s).dout = s.dout := rfl
@[simp] theorem installThr_accLo (t : Vector Word 16) (q : Nat) :
    (installThr t q s).accLo = s.accLo := rfl
@[simp] theorem installThr_accHi (t : Vector Word 16) (q : Nat) :
    (installThr t q s).accHi = s.accHi := rfl
@[simp] theorem installThr_ext (t : Vector Word 16) (q : Nat) :
    (installThr t q s).ext = s.ext := rfl
@[simp] theorem installThr_colc (t : Vector Word 16) (q : Nat) :
    (installThr t q s).colc = s.colc := rfl
@[simp] theorem installThr_block (t : Vector Word 16) (q : Nat) :
    (installThr t q s).block = s.block := rfl
@[simp] theorem installThr_accV (t : Vector Word 16) (q : Nat) :
    (installThr t q s).accV = s.accV := rfl
@[simp] theorem installThr_phase (t : Vector Word 16) (q : Nat) :
    (installThr t q s).phase = s.phase := rfl
@[simp] theorem installThr_row (t : Vector Word 16) (q : Nat) :
    (installThr t q s).row = s.row := rfl
@[simp] theorem installThr_col (t : Vector Word 16) (q : Nat) :
    (installThr t q s).col = s.col := rfl
@[simp] theorem installThr_mem (t : Vector Word 16) (q : Nat) :
    (installThr t q s).mem = s.mem := rfl
@[simp] theorem installThr_port (t : Vector Word 16) (q : Nat) :
    (installThr t q s).port = s.port := rfl
@[simp] theorem installThr_races (t : Vector Word 16) (q : Nat) :
    (installThr t q s).races = s.races := rfl
@[simp] theorem installThr_script (t : Vector Word 16) (q : Nat) :
    (installThr t q s).script = s.script := rfl
@[simp] theorem installThr_response (t : Vector Word 16) (q : Nat) :
    (installThr t q s).response = s.response := rfl
@[simp] theorem installThr_drawn (t : Vector Word 16) (q : Nat) :
    (installThr t q s).drawn = s.drawn := rfl
@[simp] theorem installThr_seen (t : Vector Word 16) (q : Nat) :
    (installThr t q s).seen = s.seen := rfl

/-! The update `beginExtend`, field by field. -/

@[simp] theorem beginExtend_params : (beginExtend s).params = s.params := rfl
@[simp] theorem beginExtend_cmd : (beginExtend s).cmd = s.cmd := rfl
@[simp] theorem beginExtend_status :
    (beginExtend s).status = { s.status with extValid := false } := rfl
@[simp] theorem beginExtend_ie : (beginExtend s).ie = s.ie := rfl
@[simp] theorem beginExtend_qp : (beginExtend s).qp = s.qp := rfl
@[simp] theorem beginExtend_fmt : (beginExtend s).fmt = s.fmt := rfl
@[simp] theorem beginExtend_width : (beginExtend s).width = s.width := rfl
@[simp] theorem beginExtend_height : (beginExtend s).height = s.height := rfl
@[simp] theorem beginExtend_errAddr : (beginExtend s).errAddr = s.errAddr := rfl
@[simp] theorem beginExtend_srcBase : (beginExtend s).srcBase = s.srcBase := rfl
@[simp] theorem beginExtend_srcStride : (beginExtend s).srcStride = s.srcStride := rfl
@[simp] theorem beginExtend_dstBase : (beginExtend s).dstBase = s.dstBase := rfl
@[simp] theorem beginExtend_dstStride : (beginExtend s).dstStride = s.dstStride := rfl
@[simp] theorem beginExtend_thr : (beginExtend s).thr = s.thr := rfl
@[simp] theorem beginExtend_di : (beginExtend s).di = s.di := rfl
@[simp] theorem beginExtend_dout : (beginExtend s).dout = s.dout := rfl
@[simp] theorem beginExtend_accLo : (beginExtend s).accLo = s.accLo := rfl
@[simp] theorem beginExtend_accHi : (beginExtend s).accHi = s.accHi := rfl
@[simp] theorem beginExtend_ext : (beginExtend s).ext = s.ext := rfl
@[simp] theorem beginExtend_colc : (beginExtend s).colc = s.colc := rfl
@[simp] theorem beginExtend_block : (beginExtend s).block = s.block := rfl
@[simp] theorem beginExtend_accV : (beginExtend s).accV = s.accV := rfl
@[simp] theorem beginExtend_phase : (beginExtend s).phase = .extend := rfl
@[simp] theorem beginExtend_row : (beginExtend s).row = 0 := rfl
@[simp] theorem beginExtend_col : (beginExtend s).col = 0 := rfl
@[simp] theorem beginExtend_mem : (beginExtend s).mem = s.mem := rfl
@[simp] theorem beginExtend_port : (beginExtend s).port = s.port := rfl
@[simp] theorem beginExtend_races : (beginExtend s).races = s.races := rfl
@[simp] theorem beginExtend_script : (beginExtend s).script = s.script := rfl
@[simp] theorem beginExtend_response : (beginExtend s).response = s.response := rfl
@[simp] theorem beginExtend_drawn : (beginExtend s).drawn = s.drawn := rfl
@[simp] theorem beginExtend_seen : (beginExtend s).seen = s.seen := rfl

/-! The update `filterCompute`, field by field. -/

@[simp] theorem filterCompute_params (f : SampleFormat) :
    (filterCompute f s).params = s.params := rfl
@[simp] theorem filterCompute_cmd (f : SampleFormat) : (filterCompute f s).cmd = s.cmd := rfl
@[simp] theorem filterCompute_status (f : SampleFormat) :
    (filterCompute f s).status = s.status := rfl
@[simp] theorem filterCompute_ie (f : SampleFormat) : (filterCompute f s).ie = s.ie := rfl
@[simp] theorem filterCompute_qp (f : SampleFormat) : (filterCompute f s).qp = s.qp := rfl
@[simp] theorem filterCompute_fmt (f : SampleFormat) : (filterCompute f s).fmt = s.fmt := rfl
@[simp] theorem filterCompute_width (f : SampleFormat) : (filterCompute f s).width = s.width := rfl
@[simp] theorem filterCompute_height (f : SampleFormat) :
    (filterCompute f s).height = s.height := rfl
@[simp] theorem filterCompute_errAddr (f : SampleFormat) :
    (filterCompute f s).errAddr = s.errAddr := rfl
@[simp] theorem filterCompute_srcBase (f : SampleFormat) :
    (filterCompute f s).srcBase = s.srcBase := rfl
@[simp] theorem filterCompute_srcStride (f : SampleFormat) :
    (filterCompute f s).srcStride = s.srcStride := rfl
@[simp] theorem filterCompute_dstBase (f : SampleFormat) :
    (filterCompute f s).dstBase = s.dstBase := rfl
@[simp] theorem filterCompute_dstStride (f : SampleFormat) :
    (filterCompute f s).dstStride = s.dstStride := rfl
@[simp] theorem filterCompute_thr (f : SampleFormat) : (filterCompute f s).thr = s.thr := rfl
@[simp] theorem filterCompute_di (f : SampleFormat) : (filterCompute f s).di = s.di := rfl
@[simp] theorem filterCompute_dout (f : SampleFormat) : (filterCompute f s).dout = s.dout := rfl
@[simp] theorem filterCompute_accLo (f : SampleFormat) : (filterCompute f s).accLo = s.accLo := rfl
@[simp] theorem filterCompute_accHi (f : SampleFormat) : (filterCompute f s).accHi = s.accHi := rfl
@[simp] theorem filterCompute_ext (f : SampleFormat) : (filterCompute f s).ext = s.ext := rfl
@[simp] theorem filterCompute_colc (f : SampleFormat) :
    (filterCompute f s).colc = stageASchedule s.drawn (isFloat f) (extPitch s.planeW) s.ext s.row s.col s.colc := rfl
theorem filterCompute_block (f : SampleFormat) :
    (filterCompute f s).block = stageB (s.drawn + 12 * bfDraws) (isFloat f) (sevenSlots (filterCompute f s).colc s.col) := rfl
theorem filterCompute_accV (f : SampleFormat) :
    (filterCompute f s).accV = scoreOf s.drawn (isFloat f) s (filterCompute f s).block := rfl
@[simp] theorem filterCompute_phase (f : SampleFormat) : (filterCompute f s).phase = s.phase := rfl
@[simp] theorem filterCompute_row (f : SampleFormat) : (filterCompute f s).row = s.row := rfl
@[simp] theorem filterCompute_col (f : SampleFormat) : (filterCompute f s).col = s.col := rfl
@[simp] theorem filterCompute_mem (f : SampleFormat) : (filterCompute f s).mem = s.mem := rfl
@[simp] theorem filterCompute_port (f : SampleFormat) : (filterCompute f s).port = s.port := rfl
@[simp] theorem filterCompute_races (f : SampleFormat) : (filterCompute f s).races = s.races := rfl
@[simp] theorem filterCompute_script (f : SampleFormat) :
    (filterCompute f s).script = s.script := rfl
@[simp] theorem filterCompute_response (f : SampleFormat) :
    (filterCompute f s).response = s.response := rfl
@[simp] theorem filterCompute_drawn (f : SampleFormat) : (filterCompute f s).drawn = s.drawn := rfl
@[simp] theorem filterCompute_seen (f : SampleFormat) : (filterCompute f s).seen = s.seen := rfl

/-! The update `respond`, field by field. -/

@[simp] theorem respond_params (r : HostResponse) : (respond r s).params = s.params := rfl
@[simp] theorem respond_cmd (r : HostResponse) : (respond r s).cmd = s.cmd := rfl
@[simp] theorem respond_status (r : HostResponse) : (respond r s).status = s.status := rfl
@[simp] theorem respond_ie (r : HostResponse) : (respond r s).ie = s.ie := rfl
@[simp] theorem respond_qp (r : HostResponse) : (respond r s).qp = s.qp := rfl
@[simp] theorem respond_fmt (r : HostResponse) : (respond r s).fmt = s.fmt := rfl
@[simp] theorem respond_width (r : HostResponse) : (respond r s).width = s.width := rfl
@[simp] theorem respond_height (r : HostResponse) : (respond r s).height = s.height := rfl
@[simp] theorem respond_errAddr (r : HostResponse) : (respond r s).errAddr = s.errAddr := rfl
@[simp] theorem respond_srcBase (r : HostResponse) : (respond r s).srcBase = s.srcBase := rfl
@[simp] theorem respond_srcStride (r : HostResponse) : (respond r s).srcStride = s.srcStride := rfl
@[simp] theorem respond_dstBase (r : HostResponse) : (respond r s).dstBase = s.dstBase := rfl
@[simp] theorem respond_dstStride (r : HostResponse) : (respond r s).dstStride = s.dstStride := rfl
@[simp] theorem respond_thr (r : HostResponse) : (respond r s).thr = s.thr := rfl
@[simp] theorem respond_di (r : HostResponse) : (respond r s).di = s.di := rfl
@[simp] theorem respond_dout (r : HostResponse) : (respond r s).dout = s.dout := rfl
@[simp] theorem respond_accLo (r : HostResponse) : (respond r s).accLo = s.accLo := rfl
@[simp] theorem respond_accHi (r : HostResponse) : (respond r s).accHi = s.accHi := rfl
@[simp] theorem respond_ext (r : HostResponse) : (respond r s).ext = s.ext := rfl
@[simp] theorem respond_colc (r : HostResponse) : (respond r s).colc = s.colc := rfl
@[simp] theorem respond_block (r : HostResponse) : (respond r s).block = s.block := rfl
@[simp] theorem respond_accV (r : HostResponse) : (respond r s).accV = s.accV := rfl
@[simp] theorem respond_phase (r : HostResponse) : (respond r s).phase = s.phase := rfl
@[simp] theorem respond_row (r : HostResponse) : (respond r s).row = s.row := rfl
@[simp] theorem respond_col (r : HostResponse) : (respond r s).col = s.col := rfl
@[simp] theorem respond_mem (r : HostResponse) : (respond r s).mem = s.mem := rfl
@[simp] theorem respond_port (r : HostResponse) : (respond r s).port = s.port := rfl
@[simp] theorem respond_races (r : HostResponse) : (respond r s).races = s.races := rfl
@[simp] theorem respond_script (r : HostResponse) : (respond r s).script = s.script := rfl
@[simp] theorem respond_response (r : HostResponse) : (respond r s).response = r := rfl
@[simp] theorem respond_drawn (r : HostResponse) : (respond r s).drawn = s.drawn := rfl
@[simp] theorem respond_seen (r : HostResponse) : (respond r s).seen = s.seen := rfl

end Sys2Proof.Machine
end

