-- ==== Sys2Proof/Laws/Run.lean ====
section
/-! SUPPORT. Laws/Run.lean: what one sequencer step of a `RUN` can do, what it leaves alone, and that the
steps come to an end. -/

namespace Sys2Proof.Machine

/-! ### The frame of a `RUN` -/

/-- What no step of a `RUN` changes: everything but the completion record, `EXT_VALID`, the hidden state,
memory and the model's log and counter of draws. -/
def RunFrame (s t : State) : Prop :=
  t = { s with
    status := { s.status with
      busy := t.status.busy, done := t.status.done, err := t.status.err
      extValid := t.status.extValid, errCode := t.status.errCode }
    errAddr := t.errAddr
    ext := t.ext, colc := t.colc, block := t.block, accV := t.accV
    phase := t.phase, row := t.row, col := t.col
    mem := t.mem, port := t.port, drawn := t.drawn }

theorem RunFrame.refl (s : State) : RunFrame s s := rfl

theorem RunFrame.trans {s t u : State} (h : RunFrame s t) (h' : RunFrame t u) : RunFrame s u := by
  unfold RunFrame at *
  rw [h'] at *
  rw [h]

theorem RunFrame.params {s t : State} (h : RunFrame s t) : t.params = s.params := by rw [h]
theorem RunFrame.cmd {s t : State} (h : RunFrame s t) : t.cmd = s.cmd := by rw [h]
theorem RunFrame.fmt {s t : State} (h : RunFrame s t) : t.fmt = s.fmt := by rw [h]
theorem RunFrame.width {s t : State} (h : RunFrame s t) : t.width = s.width := by rw [h]
theorem RunFrame.height {s t : State} (h : RunFrame s t) : t.height = s.height := by rw [h]
theorem RunFrame.planeW {s t : State} (h : RunFrame s t) : t.planeW = s.planeW := by
  unfold State.planeW; rw [h.width]
theorem RunFrame.planeH {s t : State} (h : RunFrame s t) : t.planeH = s.planeH := by
  unfold State.planeH; rw [h.height]
theorem RunFrame.srcBase {s t : State} (h : RunFrame s t) : t.srcBase = s.srcBase := by rw [h]
theorem RunFrame.srcStride {s t : State} (h : RunFrame s t) : t.srcStride = s.srcStride := by rw [h]
theorem RunFrame.dstBase {s t : State} (h : RunFrame s t) : t.dstBase = s.dstBase := by rw [h]
theorem RunFrame.dstStride {s t : State} (h : RunFrame s t) : t.dstStride = s.dstStride := by rw [h]
theorem RunFrame.thr {s t : State} (h : RunFrame s t) : t.thr = s.thr := by rw [h]
theorem RunFrame.races {s t : State} (h : RunFrame s t) : t.races = s.races := by rw [h]
theorem RunFrame.script {s t : State} (h : RunFrame s t) : t.script = s.script := by rw [h]
theorem RunFrame.thrValid {s t : State} (h : RunFrame s t) : t.status.thrValid = s.status.thrValid := by
  rw [h]
theorem RunFrame.wovr {s t : State} (h : RunFrame s t) : t.status.wovr = s.status.wovr := by rw [h]

/-- An error that ends a `RUN` changes only what the frame names. -/
theorem raiseError_frame (c : ErrCode) (a : Word) (s : State) : RunFrame s (raiseError c a s) := rfl

/-- The start of the `EXTEND` phase changes only what the frame names. -/
theorem beginExtend_frame (s : State) : RunFrame s (beginExtend s) := rfl

/-- The checks of a `RUN` and its start change only what the frame names. -/
theorem runStart_frame (s : State) : RunFrame s (runStart s) := by
  unfold runStart; split <;> rfl

/-- The sequencer's move to the next sample changes only what the frame names. -/
theorem extendNext_frame (s : State) : RunFrame s (extendNext s) := by
  unfold extendNext; split_ifs <;> rfl

/-- The sequencer's move to the next output sample changes only what the frame names. -/
theorem filterNext_frame (s : State) : RunFrame s (filterNext s) := by
  unfold filterNext; split_ifs <;> rfl

/-- A draw changes only the counter. -/
theorem drawOn_frame (s : State) : RunFrame s (drawOn s) := rfl

/-- An access adds to the log only. -/
theorem portIssue_frame (w : Bool) (a n : Nat) (s : State) : RunFrame s (portIssue w a n s) := rfl

/-- A store changes memory only. -/
theorem storeSample_frame (a n : Nat) (w : Word) (s : State) : RunFrame s (storeSample a n w s) := rfl

/-- The work of one output sample changes hidden state only. -/
theorem filterCompute_frame (f : SampleFormat) (s : State) : RunFrame s (filterCompute f s) := rfl

/-- One step of `EXTEND` changes only what the frame names. -/
theorem extendTick_frame (f : SampleFormat) (s : State) : RunFrame s (extendTick f s) := by
  unfold extendTick
  dsimp only
  split_ifs
  · exact ((portIssue_frame _ _ _ s).trans (drawOn_frame _)).trans (raiseError_frame _ _ _)
  · refine RunFrame.trans ?_ (extendNext_frame _)
    rfl

/-- One step of `FILTER` changes only what the frame names. -/
theorem filterTick_frame (f : SampleFormat) (s : State) : RunFrame s (filterTick f s) := by
  have h : ∀ a n w, RunFrame s (storeSample a n w (drawOn (portIssue true a n (filterCompute f s)))) :=
    fun a n w => (((filterCompute_frame f s).trans (portIssue_frame _ _ _ _)).trans
      (drawOn_frame _)).trans (storeSample_frame a n w _)
  unfold filterTick
  dsimp only
  split_ifs
  · exact (h _ _ _).trans (raiseError_frame _ _ _)
  · exact (h _ _ _).trans (filterNext_frame _)

/-- One sequencer step of a `RUN` changes only what the frame names. -/
theorem runTick_frame (s : State) : RunFrame s (runTick s) := by
  unfold runTick
  split
  · rfl
  · rfl
  · split
    · rfl
    · exact extendTick_frame _ s
  · split
    · rfl
    · exact filterTick_frame _ s

/-- Any number of sequencer steps of a `RUN` change only what the frame names. -/
theorem runTicks_frame (k : Nat) (s : State) : RunFrame s (runTicks k s) := by
  induction k generalizing s with
  | zero => rfl
  | succ k ih =>
    rw [runTicks]
    split_ifs
    · rfl
    · exact (runTick_frame s).trans (ih _)

/-- A whole `RUN` changes only what the frame names. -/
theorem runToEnd_frame (s : State) : RunFrame s (runToEnd (runStart s)) :=
  (runStart_frame s).trans (runTicks_frame _ _)

/-! ### The end of a `RUN` -/

/-- The sequencer steps that a `RUN` in flight may still make. -/
def ticksLeft (s : State) : Nat :=
  match s.phase with
  | .idle => 0
  | .issued => 0
  | .extend =>
    (s.planeH - s.row) * (s.planeW + 1) + (s.planeW - s.col) + 1
      + (s.planeH * (s.planeW + 1) + s.planeW + 1)
  | .filter => (s.planeH - s.row) * (s.planeW + 1) + (s.planeW - s.col) + 1

theorem extendNext_cases (s : State) :
    (s.col + 1 < s.planeW ∧ extendNext s = { s with col := s.col + 1 }) ∨
      (s.planeW ≤ s.col + 1 ∧ s.row + 1 < s.planeH ∧
        extendNext s = { s with row := s.row + 1, col := 0 }) ∨
      (s.planeW ≤ s.col + 1 ∧ s.planeH ≤ s.row + 1 ∧
        extendNext s = { s with
          status := { s.status with extValid := true }, phase := .filter, row := 0, col := 0 }) := by
  unfold extendNext
  split_ifs with h1 h2
  · exact .inl ⟨h1, rfl⟩
  · exact .inr (.inl ⟨by omega, h2, rfl⟩)
  · exact .inr (.inr ⟨by omega, by omega, rfl⟩)

theorem filterNext_cases (s : State) :
    (s.col + 1 < s.planeW ∧ filterNext s = { s with col := s.col + 1 }) ∨
      (s.planeW ≤ s.col + 1 ∧ s.row + 1 < s.planeH ∧
        filterNext s = { s with row := s.row + 1, col := 0 }) ∨
      (s.planeW ≤ s.col + 1 ∧ s.planeH ≤ s.row + 1 ∧ filterNext s = complete s) := by
  unfold filterNext
  split_ifs with h1 h2
  · exact .inl ⟨h1, rfl⟩
  · exact .inr (.inl ⟨by omega, h2, rfl⟩)
  · exact .inr (.inr ⟨by omega, by omega, rfl⟩)

/-- A row of a grid takes one unit more than its columns. -/
theorem rowStep {H row W col : Nat} (hr : row + 1 < H) :
    (H - (row + 1)) * (W + 1) + W < (H - row) * (W + 1) + (W - col) := by
  have h : H - row = H - (row + 1) + 1 := by omega
  rw [h, Nat.add_mul]
  omega

/-- The move to the next sample takes one step from those left. -/
theorem ticksLeft_extendNext (s : State) (h : s.phase = .extend) :
    ticksLeft (extendNext s) < ticksLeft s := by
  rcases extendNext_cases s with ⟨h1, he⟩ | ⟨_, h2, he⟩ | ⟨_, _, he⟩
  · rw [he]; simp only [ticksLeft, h, State.planeH, State.planeW] at *; omega
  · rw [he]
    have := rowStep (W := s.planeW) (col := s.col) h2
    simp only [ticksLeft, h, State.planeH, State.planeW, Nat.sub_zero] at *; omega
  · rw [he]; simp only [ticksLeft, h, State.planeH, State.planeW, Nat.sub_zero] at *; omega

/-- The move to the next output sample takes one step from those left. -/
theorem ticksLeft_filterNext (s : State) (h : s.phase = .filter) :
    ticksLeft (filterNext s) < ticksLeft s := by
  rcases filterNext_cases s with ⟨h1, he⟩ | ⟨_, h2, he⟩ | ⟨_, _, he⟩
  · rw [he]; simp only [ticksLeft, h, State.planeH, State.planeW] at *; omega
  · rw [he]
    have := rowStep (W := s.planeW) (col := s.col) h2
    simp only [ticksLeft, h, State.planeH, State.planeW, Nat.sub_zero] at *; omega
  · rw [he]; simp [ticksLeft, h]

/-- Each sequencer step of a `RUN` takes one from those left. -/
theorem ticksLeft_runTick (s : State) (h : s.phase = .extend ∨ s.phase = .filter) :
    ticksLeft (runTick s) < ticksLeft s := by
  rcases h with h | h
  · have hpos : 0 < ticksLeft s := by simp [ticksLeft, h]
    simp only [runTick, h]
    split
    · exact hpos
    · unfold extendTick
      dsimp only
      split_ifs
      · exact hpos
      · refine lt_of_lt_of_eq (ticksLeft_extendNext _ h) ?_
        simp [ticksLeft, h, State.planeW, State.planeH]
  · have hpos : 0 < ticksLeft s := by simp [ticksLeft, h]
    simp only [runTick, h]
    split
    · exact hpos
    · unfold filterTick
      dsimp only
      split_ifs
      · exact hpos
      · refine lt_of_lt_of_eq (ticksLeft_filterNext _ h) ?_
        simp [ticksLeft, h, State.planeW, State.planeH, filterCompute, drawOn, portIssue, storeSample]

/-- A step of a `RUN` leads to no issued command. -/
theorem runTick_phase (s : State) (h : s.phase ≠ .issued) : (runTick s).phase ≠ .issued := by
  unfold runTick
  split
  · exact h
  · exact h
  · split
    · simp
    · unfold extendTick
      dsimp only
      split_ifs
      · simp
      · rcases extendNext_cases _ with ⟨_, he⟩ | ⟨_, _, he⟩ | ⟨_, _, he⟩
        · rw [he]; simpa using h
        · rw [he]; simpa using h
        · rw [he]; simp
  · split
    · simp
    · unfold filterTick
      dsimp only
      split_ifs
      · simp
      · rcases filterNext_cases _ with ⟨_, he⟩ | ⟨_, _, he⟩ | ⟨_, _, he⟩
        · rw [he]; simpa [filterCompute] using h
        · rw [he]; simpa [filterCompute] using h
        · rw [he]; simp

/-- A start of a `RUN` leaves it in `EXTEND` or ended. -/
theorem runStart_phase (s : State) : (runStart s).phase = .idle ∨ (runStart s).phase = .extend := by
  unfold runStart; split
  · exact .inl rfl
  · exact .inr rfl

/-- An idle core makes no sequencer step. -/
theorem runTicks_idle (k : Nat) (s : State) (h : s.phase = .idle) : runTicks k s = s := by
  cases k with
  | zero => rfl
  | succ k => rw [runTicks, if_pos h]

/-- After as many steps as are left, a `RUN` has ended. -/
theorem runTicks_ends (k : Nat) (s : State) (h : s.phase ≠ .issued) (hk : ticksLeft s ≤ k) :
    (runTicks k s).phase = .idle := by
  induction k generalizing s with
  | zero =>
    cases hp : s.phase with
    | idle => exact hp
    | issued => exact absurd hp h
    | extend => simp [ticksLeft, hp] at hk
    | filter => simp [ticksLeft, hp] at hk
  | succ k ih =>
    rw [runTicks]
    split_ifs with hi
    · exact hi
    · refine ih _ (runTick_phase s h) ?_
      have := ticksLeft_runTick s (by cases hp : s.phase <;> simp_all)
      omega

/-- More steps than are left change nothing. -/
theorem runTicks_more (j k : Nat) (s : State) (h : s.phase ≠ .issued) (hj : ticksLeft s ≤ j)
    (hk : ticksLeft s ≤ k) : runTicks j s = runTicks k s := by
  induction j generalizing s k with
  | zero =>
    have hp : s.phase = .idle := runTicks_ends 0 s h hj
    rw [runTicks_idle k s hp]; rfl
  | succ j ih =>
    cases k with
    | zero =>
      have hp : s.phase = .idle := runTicks_ends 0 s h hk
      rw [runTicks_idle _ s hp]; rfl
    | succ k =>
      rw [runTicks, runTicks]
      split_ifs with hi
      · rfl
      · have := ticksLeft_runTick s (by cases hp : s.phase <;> simp_all)
        exact ih _ _ (runTick_phase s h) (by omega) (by omega)

/-- The bound covers every step a `RUN` in flight has left. -/
theorem ticksLeft_le (s : State) : ticksLeft s ≤ tickBound s := by
  unfold ticksLeft tickBound
  have h1 : (s.planeH - s.row) * (s.planeW + 1) ≤ s.planeH * (s.planeW + 1) :=
    Nat.mul_le_mul_right _ (by omega)
  have h2 : (s.planeW + 1) * (s.planeH + 1) = s.planeH * (s.planeW + 1) + s.planeW + 1 := by ring
  split <;> omega

/-- The bound is the same all along a `RUN`. -/
theorem tickBound_frame {s t : State} (h : RunFrame s t) : tickBound t = tickBound s := by
  unfold tickBound; rw [h.planeW, h.planeH]

/-- A `RUN` in flight comes to its end (R202). -/
theorem runToEnd_idle (s : State) (h : s.phase ≠ .issued) : (runToEnd s).phase = .idle :=
  runTicks_ends _ s h (ticksLeft_le s)

/-- A `RUN` one step further ends in the same state. -/
theorem runToEnd_runTick (s : State) (h : s.phase = .extend ∨ s.phase = .filter) :
    runToEnd (runTick s) = runToEnd s := by
  have hi : s.phase ≠ .issued := by rcases h with h | h <;> simp [h]
  have hl := ticksLeft_runTick s h
  have hb := ticksLeft_le s
  obtain ⟨k, hk⟩ : ∃ k, tickBound s = k + 1 := ⟨tickBound s - 1, by omega⟩
  have hs : runToEnd s = runTicks k (runTick s) := by
    unfold runToEnd
    rw [hk, runTicks, if_neg (by rcases h with h | h <;> simp [h])]
  rw [hs]
  exact runTicks_more _ _ _ (runTick_phase s hi) (ticksLeft_le _) (by omega)

/-- An idle core has nothing to end. -/
theorem runToEnd_of_idle (s : State) (h : s.phase = .idle) : runToEnd s = s := runTicks_idle _ s h

/-! ### The value of a read -/

/-- A read of the port depends on memory and on the host's writes to it alone. -/
theorem loadSample_congr (draw a n : Nat) {s t : State} (hr : t.races = s.races) (hm : t.mem = s.mem) :
    loadSample draw a n t = loadSample draw a n s := by
  unfold loadSample; rw [hr, hm]

/-- A pick is one of its values. -/
theorem pickOf_mem (n : Nat) (now : Word) (olds : List Word) :
    pickOf n now olds = now ∨ pickOf n now olds ∈ olds := by
  unfold pickOf
  cases h : Config.freePick n % (olds.length + 1) with
  | zero => exact .inl rfl
  | succ k =>
    have : Config.freePick n % (olds.length + 1) < olds.length + 1 := Nat.mod_lt _ (by omega)
    have hk : k < olds.length := by omega
    simp only [List.getD_cons_succ, List.getD_eq_getElem _ _ hk]
    exact .inr (List.getElem_mem hk)

/-- What a read of the port gives (R62, R263, I11): what memory holds where no recorded host write meets
it; that or a replaced value where each one that meets it is an access of the same bytes; any value of its
width otherwise. -/
theorem loadSample_cases (draw a n : Nat) (s : State) :
    ((∀ r ∈ s.races, overlaps r.addr r.width a n = false) ∧ loadSample draw a n s = memRead s.mem a n) ∨
      ((∃ r ∈ s.races, overlaps r.addr r.width a n = true) ∧
        (∀ r ∈ s.races, overlaps r.addr r.width a n = true → r.addr = a ∧ r.width = n) ∧
        (loadSample draw a n s = memRead s.mem a n ∨
          ∃ r ∈ s.races, overlaps r.addr r.width a n = true ∧ loadSample draw a n s = r.old)) ∨
      ((∃ r ∈ s.races, overlaps r.addr r.width a n = true ∧ ¬(r.addr = a ∧ r.width = n)) ∧
        loadSample draw a n s = BitVec.ofNat 32 ((Config.freeMem draw).toNat % 2 ^ (8 * n))) := by
  unfold loadSample
  dsimp only
  split_ifs with h1 h2
  · refine .inl ⟨fun r hr => ?_, rfl⟩
    simpa using List.filter_eq_nil_iff.1 (List.isEmpty_iff.1 h1) r hr
  · refine .inr (.inl ⟨?_, fun r hr ho => ?_, ?_⟩)
    · simpa [List.filter_eq_nil_iff] using h1
    · simpa using List.all_eq_true.1 h2 r (List.mem_filter.2 ⟨hr, ho⟩)
    · rcases pickOf_mem draw (memRead s.mem a n)
          ((s.races.filter fun r => overlaps r.addr r.width a n).map (·.old)) with h | h
      · exact .inl h
      · obtain ⟨r, hr, he⟩ := List.mem_map.1 h
        obtain ⟨hr, ho⟩ := List.mem_filter.1 hr
        exact .inr ⟨r, hr, ho, he.symm⟩
  · refine .inr (.inr ⟨?_, rfl⟩)
    simpa [and_assoc] using h2

end Sys2Proof.Machine
end

