-- ==== Sys2Proof/Laws/Bus.lean ====
section
/-! SUPPORT. Laws/Bus.lean: what `exec`, the sequencer and the host bus can answer, case by case. -/

namespace Sys2Proof.Machine

/-! ### Commands -/

/-- The two ways a diagnostic command or `NOP` or `SETQP` ends: an error before it writes anything, or
its completion on a state that differs from the issued one in the fields named here. -/
theorem exec_cases (i : Instr) (s : State) (h : i ≠ .run) :
    (∃ c, c ≠ .none ∧ c ≠ .busError ∧ exec i s = .next (raiseError c 0 s)) ∨
      ∃ (thr : Vector Word 16) (qp : BitVec 6) (tv : Bool) (dout : Vector Word 16) (lo hi : Word)
        (drawn : Nat),
        exec i s = .next (complete { s with
          thr := thr, qp := qp, status := { s.status with thrValid := tv }, dout := dout, accLo := lo
          accHi := hi, drawn := drawn }) ∧
        (commandWrites i .qp = false → thr = s.thr ∧ qp = s.qp ∧ tv = s.status.thrValid) := by
  cases i with
  | run => exact absurd rfl h
  | nop => exact .inr ⟨_, _, _, _, _, _, _, rfl, fun _ => ⟨rfl, rfl, rfl⟩⟩
  | setqp qp =>
    simp only [exec, execSetqp]
    split
    · exact .inl ⟨.badFormat, by decide, by decide, rfl⟩
    · split_ifs
      · exact .inl ⟨.badQp, by decide, by decide, rfl⟩
      · exact .inr ⟨_, _, _, _, _, _, _, rfl, fun h => by simp [commandWrites] at h⟩
  | diagA =>
    simp only [exec, execDiagA]
    split
    · exact .inl ⟨.badFormat, by decide, by decide, rfl⟩
    · split_ifs
      · exact .inr ⟨_, _, _, _, _, _, _, rfl, fun _ => ⟨rfl, rfl, rfl⟩⟩
      · exact .inr ⟨_, _, _, _, _, _, _, rfl, fun _ => ⟨rfl, rfl, rfl⟩⟩
  | diagB =>
    simp only [exec, execDiagB]
    split
    · exact .inl ⟨.badFormat, by decide, by decide, rfl⟩
    · split_ifs
      · exact .inr ⟨_, _, _, _, _, _, _, rfl, fun _ => ⟨rfl, rfl, rfl⟩⟩
      · exact .inr ⟨_, _, _, _, _, _, _, rfl, fun _ => ⟨rfl, rfl, rfl⟩⟩
  | diagS =>
    simp only [exec, execDiagS]
    split
    · exact .inl ⟨.badFormat, by decide, by decide, rfl⟩
    · split_ifs
      · exact .inl ⟨.noThr, by decide, by decide, rfl⟩
      · exact .inr ⟨_, _, _, _, _, _, _, rfl, fun _ => ⟨rfl, rfl, rfl⟩⟩
      · exact .inr ⟨_, _, _, _, _, _, _, rfl, fun _ => ⟨rfl, rfl, rfl⟩⟩
  | diagQ =>
    simp only [exec, execDiagQ]
    split
    · exact .inl ⟨.badFormat, by decide, by decide, rfl⟩
    · split_ifs
      · exact .inr ⟨_, _, _, _, _, _, _, rfl, fun _ => ⟨rfl, rfl, rfl⟩⟩
      · exact .inr ⟨_, _, _, _, _, _, _, rfl, fun _ => ⟨rfl, rfl, rfl⟩⟩
  | xread =>
    simp only [exec, execXread]
    split_ifs
    · exact .inl ⟨.notExtended, by decide, by decide, rfl⟩
    · exact .inl ⟨.badIndex, by decide, by decide, rfl⟩
    · exact .inr ⟨_, _, _, _, _, _, _, rfl, fun _ => ⟨rfl, rfl, rfl⟩⟩

/-- Every command answers a next state with no command in flight (R202, R226). -/
theorem exec_ends (i : Instr) (s : State) : ∃ t, exec i s = .next t ∧ t.phase = .idle := by
  by_cases h : i = .run
  · subst h
    refine ⟨_, rfl, runToEnd_idle _ ?_⟩
    rcases runStart_phase s with h | h <;> simp [h]
  · rcases exec_cases i s h with ⟨c, _, _, he⟩ | ⟨_, _, _, _, _, _, _, he, _⟩
    · exact ⟨_, he, rfl⟩
    · exact ⟨_, he, rfl⟩

/-- The issued command answers a next state with no command in flight, legal or not (R201). -/
theorem execIssued_ends (s : State) : ∃ t, execIssued s = .next t ∧ t.phase = .idle := by
  unfold execIssued
  split
  · exact exec_ends _ s
  · exact ⟨_, rfl, rfl⟩

/-! ### The sequencer -/

/-- A sequencer step always answers a next state. -/
theorem seqStep_next (s : State) : ∃ t, seqStep s = .next t := by
  unfold seqStep
  split
  · exact ⟨_, rfl⟩
  · split_ifs
    · exact ⟨_, rfl⟩
    · obtain ⟨t, h, _⟩ := execIssued_ends s; exact ⟨t, h⟩
  · exact ⟨_, rfl⟩
  · exact ⟨_, rfl⟩

/-- Some sequencer steps always answer a next state. -/
theorem advance_next (k : Nat) (s : State) : ∃ t, advance k s = .next t := by
  induction k generalizing s with
  | zero => exact ⟨s, rfl⟩
  | succ k ih =>
    rw [advance]
    split_ifs
    · exact ⟨s, rfl⟩
    · obtain ⟨t, h⟩ := seqStep_next s
      rw [h]; exact ih t

/-- The command in flight completes: a next state with no command in flight. -/
theorem settle_ends (s : State) : ∃ t, settle s = .next t ∧ t.phase = .idle := by
  unfold settle
  cases h : s.phase with
  | idle => exact ⟨s, rfl, h⟩
  | issued => exact execIssued_ends s
  | extend => exact ⟨_, rfl, runToEnd_idle s (by simp [h])⟩
  | filter => exact ⟨_, rfl, runToEnd_idle s (by simp [h])⟩

/-- The time between two stimuli always passes. -/
theorem progress_next (p : Option Nat) (s : State) : ∃ t, progress p s = .next t := by
  cases p with
  | none => obtain ⟨t, h, _⟩ := settle_ends s; exact ⟨t, h⟩
  | some k => exact advance_next k s

/-- An issued `RUN` starts as its checks say; any other issued word completes. -/
theorem seqStep_issued (s : State) (h : s.phase = .issued) :
    (decode s.cmd = .ok .run ∧ seqStep s = .next (runStart s)) ∨
      (decode s.cmd ≠ .ok .run ∧ seqStep s = execIssued s) := by
  unfold seqStep
  rw [h]
  by_cases hd : decode s.cmd = .ok .run
  · exact .inl ⟨hd, by simp [hd]⟩
  · exact .inr ⟨hd, by simp [hd]⟩

/-! ### Stimuli -/

/-- An address inside the window has its offset there (R20). -/
theorem windowOffset_inside (p : Params) (off : Nat) (h : off < 4096) :
    windowOffset p (p.regBase + off) = some off := by
  unfold windowOffset
  rw [if_pos ⟨by omega, by unfold windowBytes; omega⟩]
  simp

/-- A host write on the window: silent outside it, refused by the bus when it is not one aligned word,
else performed, ignored or dropped (R20, R262). -/
theorem serveRegWrite_cases (addr width : Nat) (data : Word) (s : State) :
    serveRegWrite addr width data s = { s with response := .silent } ∨
      serveRegWrite addr width data s = { s with response := .busError } ∨
      (s.status.busy = true ∧ ∃ r,
        serveRegWrite addr width data s = { writeRegBusy r data s with response := .written }) ∨
      (s.status.busy = false ∧ serveRegWrite addr width data s = { s with response := .written }) ∨
      (s.status.busy = false ∧ ∃ r,
        serveRegWrite addr width data s = { writeReg r data s with response := .written }) := by
  unfold serveRegWrite
  split
  · exact .inl rfl
  · split_ifs with h1 h2
    · exact .inr (.inl rfl)
    · exact .inr (.inr (.inl ⟨h2, _, rfl⟩))
    · have h2 : s.status.busy = false := by simpa using h2
      split
      · exact .inr (.inr (.inr (.inl ⟨h2, rfl⟩)))
      · exact .inr (.inr (.inr (.inr ⟨h2, _, rfl⟩)))

/-- A host read on the window changes only the response and the counter of reads. -/
theorem serveRegRead_frame (addr width : Nat) (s : State) :
    ∃ a n, serveRegRead addr width s = { s with response := a, seen := n } := by
  unfold serveRegRead
  split
  · exact ⟨_, _, rfl⟩
  · split
    · exact ⟨_, _, rfl⟩
    · split
      · exact ⟨_, _, rfl⟩
      · split <;> exact ⟨_, _, rfl⟩

/-- A host write to memory: a fault outside the memory space, else its bytes and its record. -/
theorem serveMemWrite_cases (addr : Nat) (width : MemWidth) (data : Word) (s : State) :
    serveMemWrite addr width data s = .fault .hostAddressOutsideMemory ∨
      (addr + widthBytes width ≤ 2 ^ 32 ∧ ∃ races, serveMemWrite addr width data s =
        .next { s with
          mem := memWrite s.mem addr (widthBytes width) data, races := races
          response := .memWritten }) := by
  unfold serveMemWrite
  by_cases h : 2 ^ Config.addrW < addr + widthBytes width
  · exact .inl (if_pos h)
  · exact .inr ⟨Nat.not_lt.1 h, _, if_neg h⟩

/-- A host read of memory: a fault outside the memory space, else only the response and the counter of
reads change. -/
theorem serveMemRead_cases (addr : Nat) (width : MemWidth) (s : State) :
    serveMemRead addr width s = .fault .hostAddressOutsideMemory ∨
      ∃ a n, serveMemRead addr width s = .next { s with response := a, seen := n } := by
  unfold serveMemRead
  dsimp only
  split_ifs
  · exact .inl rfl
  · exact .inr ⟨_, _, rfl⟩
  · exact .inr ⟨_, _, rfl⟩

/-- Nothing torn: what memory holds. -/
theorem readTorn_none {torn : Nat → Bool} {a n : Nat} (m : Memory) (free : Nat)
    (h : ∀ k < n, torn (a + k) = false) : readTorn torn m a n free = readLE m a n := by
  induction n generalizing a free with
  | zero => rfl
  | succ n ih =>
    have h0 := h 0 (by omega)
    rw [Nat.add_zero] at h0
    rw [readTorn, readLE, h0, ih _ fun k hk => by
      have := h (k + 1) (by omega)
      rwa [show a + (k + 1) = a + 1 + k by omega] at this]
    rfl

/-- The value of a torn read has the width of the read. -/
theorem readTorn_lt (torn : Nat → Bool) (m : Memory) (a n free : Nat) :
    readTorn torn m a n free < 2 ^ (8 * n) := by
  induction n generalizing a free with
  | zero => simp [readTorn]
  | succ n ih =>
    have h := ih (a + 1) (free / 256)
    have hb : (if torn a then free % 256 else (readByte m a).toNat) < 256 := by
      split_ifs
      · exact Nat.mod_lt _ (by omega)
      · exact (readByte m a).isLt
    rw [readTorn, show 8 * (n + 1) = 8 * n + 8 by omega, Nat.pow_add]
    omega

/-- Byte `k` of a torn read: that of the free value where it is torn, memory's where it is not (I11). -/
theorem readTorn_byte {torn : Nat → Bool} {m : Memory} {a n free k : Nat} (hk : k < n) :
    readTorn torn m a n free / 2 ^ (8 * k) % 2 ^ 8 =
      if torn (a + k) then free / 2 ^ (8 * k) % 2 ^ 8 else (readByte m (a + k)).toNat := by
  induction n generalizing a free k with
  | zero => omega
  | succ n ih =>
    have hb : (if torn a then free % 256 else (readByte m a).toNat) < 256 := by
      split_ifs
      · exact Nat.mod_lt _ (by omega)
      · exact (readByte m a).isLt
    rw [readTorn]
    cases k with
    | zero =>
      rw [Nat.add_zero, Nat.mul_zero, Nat.pow_zero, Nat.div_one, Nat.div_one,
        show (2 : Nat) ^ 8 = 256 from rfl, Nat.add_mul_mod_self_left]
      exact Nat.mod_eq_of_lt hb
    | succ k =>
      have hd : ∀ z, z / 2 ^ (8 * (k + 1)) = z / 256 / 2 ^ (8 * k) := fun z => by
        rw [Nat.div_div_eq_div_mul, show 8 * (k + 1) = 8 + 8 * k by omega, Nat.pow_add]
      rw [hd, hd, Nat.add_mul_div_left _ _ (by omega : 0 < 256), Nat.div_eq_of_lt hb, Nat.zero_add,
        ih (by omega), show a + 1 + k = a + (k + 1) by omega]

/-- What a host read of memory answers inside the memory space: its value shows memory's bytes but for the
torn ones (R88, R263). -/
theorem serveMemRead_value {addr : Nat} {width : MemWidth} (s : State)
    (h : addr + widthBytes width ≤ 2 ^ Config.addrW) :
    ∃ v n, serveMemRead addr width s = .next { s with response := .memValue v, seen := n } ∧
      ∀ k < widthBytes width, tornByte addr (widthBytes width) s (addr + k) = false →
        v.toNat / 2 ^ (8 * k) % 2 ^ 8 = (readByte s.mem (addr + k)).toNat := by
  have hn : 2 ^ (8 * widthBytes width) ≤ 2 ^ 32 := by cases width <;> decide
  have hval : ∀ free, ∀ k < widthBytes width, tornByte addr (widthBytes width) s (addr + k) = false →
      (BitVec.ofNat 32 (readTorn (tornByte addr (widthBytes width) s) s.mem addr (widthBytes width)
        free)).toNat / 2 ^ (8 * k) % 2 ^ 8 = (readByte s.mem (addr + k)).toNat := by
    intro free k hk ht
    rw [BitVec.toNat_ofNat, Nat.mod_eq_of_lt ((readTorn_lt ..).trans_le hn), readTorn_byte hk, ht]
    rfl
  unfold serveMemRead
  dsimp only
  rw [if_neg (Nat.not_lt.2 h)]
  split_ifs with hany
  · exact ⟨_, _, rfl, hval _⟩
  · have hno : ∀ k < widthBytes width, tornByte addr (widthBytes width) s (addr + k) = false := by
      simpa using hany
    refine ⟨_, _, rfl, fun k hk ht => ?_⟩
    rw [memRead, ← readTorn_none s.mem 0 hno]
    exact hval 0 k hk ht

/-! ### Invariants of a step -/

/-- A property that commands, the checks of a `RUN`, its sequencer steps and every stimulus keep is kept by
every step of the machine. -/
theorem step_preserves {P : State → Prop}
    (hexec : ∀ i s t, P s → s.phase = .issued → exec i s = .next t → P t)
    (hill : ∀ s, P s → s.phase = .issued → P (raiseError .illegalCmd 0 s))
    (hstart : ∀ s, P s → s.phase = .issued → P (runStart s))
    (htick : ∀ s, P s → P (runTick s))
    (hserve : ∀ a s t, P s → serve a s = .next t → P t)
    (hscript : ∀ s r, P s → P { s with script := r })
    {s t : State} (hs : P s) (h : step s = .next t) : P t := by
  have hticks : ∀ k s, P s → P (runTicks k s) := by
    intro k
    induction k with
    | zero => exact fun s h => h
    | succ k ih =>
      intro s h
      rw [runTicks]
      split_ifs
      · exact h
      · exact ih _ (htick s h)
  have hiss : ∀ s t, P s → s.phase = .issued → execIssued s = .next t → P t := by
    intro s t hs hp h
    unfold execIssued at h
    split at h
    · exact hexec _ _ _ hs hp h
    · cases h; exact hill s hs hp
  have hsettle : ∀ s t, P s → settle s = .next t → P t := by
    intro s t hs h
    unfold settle at h
    cases hp : s.phase <;> simp only [hp] at h
    · cases h; exact hs
    · exact hiss s t hs hp h
    · cases h; exact hticks _ _ hs
    · cases h; exact hticks _ _ hs
  have hseq : ∀ s t, P s → seqStep s = .next t → P t := by
    intro s t hs h
    unfold seqStep at h
    cases hp : s.phase <;> simp only [hp] at h
    · cases h; exact hs
    · split_ifs at h
      · cases h; exact hstart s hs hp
      · exact hiss s t hs hp h
    · cases h; exact htick _ hs
    · cases h; exact htick _ hs
  have hadv : ∀ k s t, P s → advance k s = .next t → P t := by
    intro k
    induction k with
    | zero => intro s t hs h; rw [advance] at h; cases h; exact hs
    | succ k ih =>
      intro s t hs h
      rw [advance] at h
      split_ifs at h
      · cases h; exact hs
      · obtain ⟨u, hu⟩ := seqStep_next s
        rw [hu] at h
        exact ih u t (hseq s u hs hu) h
  unfold step hostStep at h
  split at h
  · exact hsettle s t hs h
  · rename_i ev rest _
    split at h
    · rename_i u hu
      have hu' := hserve _ _ u (hscript s rest hs) hu
      unfold progress at h
      split at h
      · exact hsettle u t hu' h
      · exact hadv _ u t hu' h
    · cases h
    · cases h

end Sys2Proof.Machine
end

