-- ==== Sys2Proof/Laws/Datapath.lean ====
section
/-! SUPPORT. Laws/Datapath.lean: the formats, the butterfly, the scorer and the float classes in the forms
that proofs use. -/

namespace Sys2Proof.Machine

/-! ### Formats -/

/-- `FMT` describes 8-bit samples (R28). -/
theorem formatOf_u8 {f : Fmt} : formatOf f = some .u8 ↔ f.stype = 0 ∧ f.bits.toNat = 8 := by
  unfold formatOf
  split_ifs with h1 h2 h3 <;> simp_all

/-- `FMT` describes 16-bit storage of `b` significant bits (R28). -/
theorem formatOf_u16 {f : Fmt} {b : Nat} :
    formatOf f = some (.u16 b) ↔ f.stype = 1 ∧ 9 ≤ b ∧ b ≤ 16 ∧ f.bits.toNat = b := by
  unfold formatOf
  split_ifs with h1 h2 h3
  · simp [h1.1]
  · obtain ⟨h2, h3, h4⟩ := h2
    constructor
    · intro h; injection h with h; injection h with h; subst h; exact ⟨h2, h3, h4, rfl⟩
    · rintro ⟨_, _, _, rfl⟩; rfl
  · simp [h3.1]
  · simp only [false_iff]
    rintro ⟨h4, h5, h6, rfl⟩
    exact h2 ⟨h4, h5, h6⟩

/-- `FMT` describes binary32 samples (R28). -/
theorem formatOf_f32 {f : Fmt} : formatOf f = some .f32 ↔ f.stype = 2 ∧ f.bits.toNat = 32 := by
  unfold formatOf
  split_ifs with h1 h2 h3
  · simp [h1.1]
  · simp [h2.1]
  · simp [h3]
  · simpa using fun h => not_and.1 h3 h

/-! ### The butterfly -/

/-- `T0` of `BF_INT` as a weighted sum (R121, R128). -/
theorem bfInt_t0 (a : Seven Int) :
    (bfInt a).t0 = a.a0 + a.a1 + a.a2 + 2 * a.a3 + a.a4 + a.a5 + a.a6 := by
  simp only [bfInt]; ring

/-- `T1` of `BF_INT` as a weighted sum (R121, R128). -/
theorem bfInt_t1 (a : Seven Int) :
    (bfInt a).t1 = -2 * a.a0 - a.a1 + a.a2 + 4 * a.a3 + a.a4 - a.a5 - 2 * a.a6 := by
  simp only [bfInt]; ring

/-- `T2` of `BF_INT` as a weighted sum (R121, R128). -/
theorem bfInt_t2 (a : Seven Int) :
    (bfInt a).t2 = a.a0 - a.a1 - a.a2 + 2 * a.a3 - a.a4 - a.a5 + a.a6 := by
  simp only [bfInt]; ring

/-- `T3` of `BF_INT` as a weighted sum (R121, R128). -/
theorem bfInt_t3 (a : Seven Int) :
    (bfInt a).t3 = -a.a0 + 2 * a.a1 - 2 * a.a2 + 2 * a.a3 - 2 * a.a4 + 2 * a.a5 - a.a6 := by
  simp only [bfInt]; ring

/-! ### The scorer -/

/-- `SCORE_INT` as a sum over the non-DC coefficients (R162). -/
theorem scoreInt_eq_sum (block : Vector Int 16) (thr : Vector Word 16)
    (factor : Vector (BitVec 16) 16) :
    scoreInt block thr factor =
      block[0] * factor[0].toNat +
        (nonDc.map fun i => contribInt block[i] thr[i].toNat factor[i].toNat).sum := by
  simp only [scoreInt, nonDc, List.foldl_cons, List.foldl_nil, List.map_cons, List.map_nil,
    List.sum_cons, List.sum_nil]
  ring

/-! ### Float classes -/

/-- The free NaN is a NaN, whatever is drawn (I7). -/
theorem isNaN_quietNaN (n : Nat) : isNaN (quietNaN n) = true := by
  have h : ∀ v : BitVec 23,
      (v.extractLsb' 22 1 ++ (0x1FF#9 ++ v.extractLsb' 0 22) : Word).toNat =
        (v.toNat / 2 ^ 22) * 2 ^ 31 + 0x1FF * 2 ^ 22 + v.toNat % 2 ^ 22 := by
    intro v
    have hv := v.isLt
    have hor : ∀ x y k : Nat, y < 2 ^ k → (x <<< k ||| y) = x * 2 ^ k + y := fun x y k hy => by
      rw [← Nat.shiftLeft_add_eq_or_of_lt hy, Nat.shiftLeft_eq]
    simp only [BitVec.toNat_append, BitVec.extractLsb'_toNat, Nat.shiftRight_eq_div_pow]
    rw [hor _ (v.toNat / 2 ^ 0 % 2 ^ 22) 22 (by omega), hor _ _ 31 (by
      simp only [BitVec.toNat_ofNat]; omega)]
    simp only [BitVec.toNat_ofNat]
    omega
  have hq := h (Config.freeNaN n)
  have hv := (Config.freeNaN n).isLt
  unfold isNaN fExp fFrac quietNaN
  simp only [BitVec.extractLsb'_toNat, Nat.shiftRight_eq_div_pow, Bool.and_eq_true, beq_iff_eq,
    bne_iff_ne, hq]
  omega

/-- A finite float is neither a NaN nor an infinity: its exponent is not all ones. -/
theorem finite_iff (w : Word) : isNaN w = false ∧ isInf w = false ↔ fExp w ≠ 255 := by
  unfold isNaN isInf
  by_cases h1 : fExp w = 255 <;> by_cases h2 : fFrac w = 0 <;> simp [h1, h2]

end Sys2Proof.Machine
end

