-- ==== Sys2Proof/Laws/Memory.lean ====
section
/-! SUPPORT. Laws/Memory.lean: a read after a write, what a write leaves alone, and the canonical form
that every memory operation keeps. -/

namespace Sys2Proof.Machine

/-- The canonical form may start lower. -/
theorem wfFrom_mono {lo hi : Nat} {m : Memory} (h : lo ≤ hi) (hm : wfFrom hi m = true) :
    wfFrom lo m = true := by
  cases m with
  | nil => rfl
  | cons c m =>
    simp only [wfFrom, Bool.and_eq_true, decide_eq_true_eq] at hm ⊢
    exact ⟨⟨by omega, hm.1.2⟩, hm.2⟩

/-- An address below a canonical memory is unlisted. -/
theorem readByte_below {lo a : Nat} {m : Memory} (hm : wfFrom lo m = true) (ha : a < lo) :
    readByte m a = unlistedByte := by
  induction m generalizing lo with
  | nil => rfl
  | cons c m ih =>
    simp only [wfFrom, Bool.and_eq_true, decide_eq_true_eq] at hm
    simp only [readByte]
    rw [if_neg (by omega)]
    exact ih hm.2 (by omega)

/-- A write leaves every other byte alone, whatever the form of the memory. -/
theorem readByte_writeByte_other {a b : Nat} (m : Memory) (v : Byte) (h : b ≠ a) :
    readByte (writeByte m a v) b = readByte m b := by
  have hne : ¬a = b := fun e => h e.symm
  induction m with
  | nil => simp only [writeByte]; split <;> simp [readByte, hne]
  | cons c m ih =>
    simp only [writeByte]
    split_ifs with h1 h2 h3 h4 <;> simp_all [readByte]

/-- A write is read back. -/
theorem readByte_writeByte_same {lo : Nat} {m : Memory} (a : Nat) (v : Byte)
    (hm : wfFrom lo m = true) : readByte (writeByte m a v) a = v := by
  induction m generalizing lo with
  | nil => simp only [writeByte]; split <;> simp_all [readByte]
  | cons c m ih =>
    simp only [wfFrom, Bool.and_eq_true, decide_eq_true_eq] at hm
    simp only [writeByte]
    split_ifs with h1 h2 h3 h4
    · have : ¬c.1 = a := by omega
      simp only [readByte, if_neg this]
      rw [readByte_below hm.2 (by omega), h2]
    · simp [readByte]
    · subst h3; rw [readByte_below hm.2 (by omega), h4]
    · simp [readByte, h3]
    · have : ¬c.1 = a := fun e => h3 e.symm
      simp only [readByte, if_neg this]
      exact ih hm.2

/-- A write keeps the canonical form. -/
theorem wfFrom_writeByte {lo : Nat} {m : Memory} (a : Nat) (v : Byte) (hm : wfFrom lo m = true)
    (ha : lo ≤ a) : wfFrom lo (writeByte m a v) = true := by
  induction m generalizing lo with
  | nil => simp only [writeByte]; split <;> simp_all [wfFrom]
  | cons c m ih =>
    have hm' := hm
    simp only [wfFrom, Bool.and_eq_true, decide_eq_true_eq] at hm
    simp only [writeByte]
    split_ifs with h1 h2 h3 h4
    · exact hm'
    · simp only [wfFrom, Bool.and_eq_true, decide_eq_true_eq]
      exact ⟨⟨ha, h2⟩, ⟨by omega, hm.1.2⟩, hm.2⟩
    · exact wfFrom_mono (by omega) hm.2
    · simp only [wfFrom, Bool.and_eq_true, decide_eq_true_eq]
      exact ⟨⟨hm.1.1, h4⟩, hm.2⟩
    · simp only [wfFrom, Bool.and_eq_true, decide_eq_true_eq]
      exact ⟨hm.1, ih hm.2 (by omega)⟩

/-- `writeByte` keeps `Memory.wf`. -/
theorem wf_writeByte {m : Memory} (a : Nat) (v : Byte) (hm : m.wf = true) :
    Memory.wf (writeByte m a v) = true := wfFrom_writeByte a v hm (Nat.zero_le a)

/-- Where every listed address has a property, a write to an address with it keeps that. -/
theorem writeByte_listed {m : Memory} {P : Nat → Prop} (a : Nat) (v : Byte)
    (hm : ∀ c ∈ m, P c.1) (ha : P a) : ∀ c ∈ writeByte m a v, P c.1 := by
  induction m with
  | nil => simp only [writeByte]; split <;> simp_all
  | cons d m ih =>
    have hd : P d.1 := hm d (by simp)
    have hm' : ∀ c ∈ m, P c.1 := fun c hc => hm c (by simp [hc])
    simp only [writeByte]
    split_ifs with h1 h2 h3 h4
    · exact hm
    · intro c hc
      rcases List.mem_cons.1 hc with rfl | hc
      · exact ha
      · exact hm c hc
    · exact hm'
    · intro c hc
      rcases List.mem_cons.1 hc with rfl | hc
      · exact hd
      · exact hm' c hc
    · intro c hc
      rcases List.mem_cons.1 hc with rfl | hc
      · exact hd
      · exact ih hm' c hc

/-- `writeLE` keeps the canonical form. -/
theorem wf_writeLE {m : Memory} (a n w : Nat) (hm : m.wf = true) :
    Memory.wf (writeLE m a n w) = true := by
  induction n generalizing m a w with
  | zero => exact hm
  | succ n ih => exact ih (a + 1) (w / 256) (wf_writeByte a _ hm)

/-- `memWrite` keeps the canonical form. -/
theorem wf_memWrite {m : Memory} (a n : Nat) (w : Word) (hm : m.wf = true) :
    Memory.wf (memWrite m a n w) = true := wf_writeLE a n w.toNat hm

/-- `writeLE` adds no address outside its bytes. -/
theorem writeLE_listed {m : Memory} {P : Nat → Prop} (a n w : Nat) (hm : ∀ c ∈ m, P c.1)
    (ha : ∀ k < n, P (a + k)) : ∀ c ∈ writeLE m a n w, P c.1 := by
  induction n generalizing m a w with
  | zero => exact hm
  | succ n ih =>
    refine ih (a + 1) (w / 256) (writeByte_listed a _ hm (ha 0 (by omega))) fun k hk => ?_
    have := ha (k + 1) (by omega)
    rwa [show a + 1 + k = a + (k + 1) by omega]

/-- `writeLE` leaves every byte outside its own alone. -/
theorem readByte_writeLE_other {m : Memory} {a n b : Nat} (w : Nat) (h : b < a ∨ a + n ≤ b) :
    readByte (writeLE m a n w) b = readByte m b := by
  induction n generalizing m a w with
  | zero => rfl
  | succ n ih =>
    rw [writeLE, ih (w / 256) (by omega), readByte_writeByte_other _ _ (by omega)]

/-- Byte `a + k` after `writeLE` (R63). -/
theorem readByte_writeLE {m : Memory} (a n w k : Nat) (hm : m.wf = true) (hk : k < n) :
    readByte (writeLE m a n w) (a + k) = BitVec.ofNat 8 (w / 256 ^ k) := by
  induction n generalizing m a w k with
  | zero => omega
  | succ n ih =>
    cases k with
    | zero =>
      have h1 : readByte (writeLE m a (n + 1) w) a = BitVec.ofNat 8 w := by
        rw [writeLE, readByte_writeLE_other (w / 256) (by omega),
          readByte_writeByte_same (lo := 0) a _ hm]
      simpa using h1
    | succ k =>
      rw [writeLE, show a + (k + 1) = a + 1 + k by omega,
        ih (a + 1) (w / 256) k (wf_writeByte a _ hm) (by omega), Nat.div_div_eq_div_mul,
        ← Nat.pow_succ']

/-- A group of bytes is read back after it is written (R62, R63). -/
theorem readLE_writeLE {m : Memory} (a n w : Nat) (hm : m.wf = true) :
    readLE (writeLE m a n w) a n = w % 256 ^ n := by
  induction n generalizing m a w with
  | zero => simp [readLE, Nat.mod_one]
  | succ n ih =>
    have h0 : readByte (writeLE m a (n + 1) w) a = BitVec.ofNat 8 w := by
      simpa using readByte_writeLE a (n + 1) w 0 hm (by omega)
    rw [readLE, h0, writeLE, ih (a + 1) (w / 256) (wf_writeByte a _ hm), Nat.pow_succ', Nat.mod_mul]
    simp

/-- A group of bytes depends on its own bytes only. -/
theorem readLE_congr {m m' : Memory} {a n : Nat} (h : ∀ k < n, readByte m (a + k) = readByte m' (a + k)) :
    readLE m a n = readLE m' a n := by
  induction n generalizing a with
  | zero => rfl
  | succ n ih =>
    have h0 : readByte m a = readByte m' a := by simpa using h 0 (by omega)
    rw [readLE, readLE, h0, ih fun k hk => ?_]
    have := h (k + 1) (by omega)
    rwa [show a + 1 + k = a + (k + 1) by omega]

/-- `MemRead` after `MemWrite` at the same place (R62, R63). -/
theorem memRead_memWrite {m : Memory} (a n : Nat) (w : Word) (hm : m.wf = true) :
    memRead (memWrite m a n w) a n = BitVec.ofNat 32 (w.toNat % 2 ^ (8 * n)) := by
  rw [memRead, memWrite, readLE_writeLE a n _ hm, Nat.pow_mul]

/-- `MemWrite` leaves every byte outside its own alone (R63). -/
theorem readByte_memWrite_other {m : Memory} {a n b : Nat} (w : Word) (h : b < a ∨ a + n ≤ b) :
    readByte (memWrite m a n w) b = readByte m b := readByte_writeLE_other w.toNat h

/-- `MemWrite` leaves every group of bytes apart from its own alone. -/
theorem memRead_memWrite_other {m : Memory} {a n b k : Nat} (w : Word)
    (h : b + k ≤ a ∨ a + n ≤ b) : memRead (memWrite m a n w) b k = memRead m b k := by
  rw [memRead, memRead, readLE_congr fun j hj => readByte_memWrite_other w (by omega)]

/-- The memory of the reset state has the canonical form. -/
theorem wf_reset : State.reset.mem.wf = true := rfl

end Sys2Proof.Machine
end

