-- ==== Sys2Proof/Laws/PerInstr.lean ====
section
/-! SUPPORT. Laws/PerInstr.lean: statements about every command as syntax, one lemma for each constructor. -/

namespace Sys2Proof.Laws

/-- The word of a well-formed command has 0 in both reserved fields, and in the `QP` field unless it is a
`SETQP` (R80, R85). -/
def ReservedBitsZero.Statement (i : Instr) : Prop :=
  i.wf = true →
    rsv0Field (encode i) = 0 ∧ rsv1Field (encode i) = 0 ∧
      (opField (encode i) ≠ 1 → qpField (encode i) = 0)

theorem ReservedBitsZero.nop : ReservedBitsZero.Statement .nop := fun _ => by decide

theorem ReservedBitsZero.setqp (qp : Nat) : ReservedBitsZero.Statement (.setqp qp) := by
  intro h
  simp only [Instr.wf, decide_eq_true_eq] at h
  interval_cases qp <;> decide

theorem ReservedBitsZero.run : ReservedBitsZero.Statement .run := fun _ => by decide

theorem ReservedBitsZero.diagA : ReservedBitsZero.Statement .diagA := fun _ => by decide

theorem ReservedBitsZero.diagB : ReservedBitsZero.Statement .diagB := fun _ => by decide

theorem ReservedBitsZero.diagS : ReservedBitsZero.Statement .diagS := fun _ => by decide

theorem ReservedBitsZero.diagQ : ReservedBitsZero.Statement .diagQ := fun _ => by decide

theorem ReservedBitsZero.xread : ReservedBitsZero.Statement .xread := fun _ => by decide

end Sys2Proof.Laws
end

