-- ==== Sys2Proof/Laws/Phases.lean ====
section
/-! SUPPORT. Laws/Phases.lean: what is true between two accesses of a `RUN`, in each of its phases, and that
each sequencer step keeps it. -/

namespace Sys2Proof.Machine

/-! ### Geometry -/

/-- What the geometry checks of R207 leave true. -/
theorem geometry_facts {f : SampleFormat} {s : State} (h : badGeometry f s = false) :
    16 ≤ s.planeW ∧ s.planeW % 16 = 0 ∧ 16 ≤ s.planeH ∧ s.planeH % 16 = 0 ∧
      s.planeW * sampleBytes f ≤ s.srcStride.toNat ∧ s.planeW * sampleBytes f ≤ s.dstStride.toNat ∧
      s.srcBase.toNat + (s.planeH - 1) * s.srcStride.toNat + s.planeW * sampleBytes f - 1 < 2 ^ 32 ∧
      s.dstBase.toNat + (s.planeH - 1) * s.dstStride.toNat + s.planeW * sampleBytes f - 1 < 2 ^ 32 := by
  have hA : Config.addrW = 32 := rfl
  unfold badGeometry badPlane at h
  simp only [Bool.or_eq_false_iff, decide_eq_false_iff_not] at h
  rw [hA] at h
  omega

/-- The geometry checks read nothing that a `RUN` changes. -/
theorem badGeometry_frame {s t : State} (f : SampleFormat) (h : RunFrame s t) :
    badGeometry f t = badGeometry f s := by
  unfold badGeometry
  rw [h.planeW, h.planeH, h.srcBase, h.srcStride, h.dstBase, h.dstStride]

/-- The capacity check reads nothing that a `RUN` changes. -/
theorem overCapacity_frame {s t : State} (f : SampleFormat) (h : RunFrame s t) :
    overCapacity f t = overCapacity f s := by
  unfold overCapacity
  rw [h.planeW, h.planeH, h.params]

/-- A sample has at least one byte. -/
theorem sampleBytes_pos (f : SampleFormat) : 0 < sampleBytes f := by
  cases f <;> simp [sampleBytes]

/-- A sample has at most four bytes. -/
theorem sampleBytes_le (f : SampleFormat) : sampleBytes f ≤ 4 := by
  cases f <;> simp [sampleBytes]

/-- Two samples of one plane have no byte in common, if rows do not overlap (R207). -/
theorem sampleAddr_apart {base stride : Word} {S W y x y' x' : Nat} (hs : W * S ≤ stride.toNat)
    (hx' : x' < W) (h : y' < y ∨ y' = y ∧ x' < x) :
    sampleAddr base stride S y' x' + S ≤ sampleAddr base stride S y x := by
  unfold sampleAddr
  rcases h with h | ⟨rfl, h⟩
  · have h1 : (y' + 1) * stride.toNat ≤ y * stride.toNat := Nat.mul_le_mul_right _ h
    have h2 : (x' + 1) * S ≤ W * S := Nat.mul_le_mul_right _ hx'
    rw [Nat.add_mul] at h1 h2
    omega
  · have h1 : (x' + 1) * S ≤ x * S := Nat.mul_le_mul_right _ h
    rw [Nat.add_mul] at h1
    omega

/-- Every sample of a plane whose last row fits lies in the memory space (R61, R207). -/
theorem sampleAddr_bound {base stride : Word} {S W H y x : Nat}
    (hb : base.toNat + (H - 1) * stride.toNat + W * S - 1 < 2 ^ 32) (hy : y < H) (hx : x < W) :
    sampleAddr base stride S y x + S ≤ 2 ^ 32 := by
  unfold sampleAddr
  have h1 : y * stride.toNat ≤ (H - 1) * stride.toNat := Nat.mul_le_mul_right _ (by omega)
  have h2 : (x + 1) * S ≤ W * S := Nat.mul_le_mul_right _ hx
  rw [Nat.add_mul] at h2
  omega

/-- A destination sample address is a 32-bit address. -/
theorem dstAddr_bound {f : SampleFormat} {s : State} (h : badGeometry f s = false) {y x : Nat}
    (hy : y < s.planeH) (hx : x < s.planeW) : dstAddr f s y x + sampleBytes f ≤ 2 ^ 32 :=
  sampleAddr_bound (geometry_facts h).2.2.2.2.2.2.2 hy hx

/-- A source sample address is a 32-bit address. -/
theorem srcAddr_bound {f : SampleFormat} {s : State} (h : badGeometry f s = false) {y x : Nat}
    (hy : y < s.planeH) (hx : x < s.planeW) : srcAddr f s y x + sampleBytes f ≤ 2 ^ 32 :=
  sampleAddr_bound (geometry_facts h).2.2.2.2.2.2.1 hy hx

/-! ### The accesses so far -/

/-- The accesses of one phase before sample `(y, x)`, oldest first (R68). -/
def accessesBefore (write : Bool) (addr : Nat → Nat → Nat) (S W y x : Nat) : List PortAccess :=
  ((List.range y).flatMap fun y' => (List.range W).map fun x' => ⟨write, addr y' x', S⟩)
    ++ (List.range x).map fun x' => ⟨write, addr y x', S⟩

theorem accessesBefore_next (write : Bool) (addr : Nat → Nat → Nat) (S W y x : Nat) :
    accessesBefore write addr S W y (x + 1) =
      accessesBefore write addr S W y x ++ [⟨write, addr y x, S⟩] := by
  simp [accessesBefore, List.range_succ]

theorem accessesBefore_row (write : Bool) (addr : Nat → Nat → Nat) (S W y : Nat) :
    accessesBefore write addr S W (y + 1) 0 = accessesBefore write addr S W y W := by
  simp [accessesBefore, List.range_succ]

theorem length_accessesBefore (write : Bool) (addr : Nat → Nat → Nat) (S W y x : Nat) :
    (accessesBefore write addr S W y x).length = y * W + x := by
  simp [accessesBefore, List.length_flatMap]

/-! ### The `EXTEND` phase -/

/-- The source sample `(y, x)` as a `RUN` issued in `s` reads it (R62, R102, R263): the draw of that read is
the one of its place in row-major order. -/
def sourceSample (f : SampleFormat) (s : State) (y x : Nat) : Word :=
  loadSample (s.drawn + Config.drawStride * (y * s.planeW + x)) (srcAddr f s y x) (sampleBytes f) s

/-- Between two reads of a `RUN` issued in `s0`, the next one being that of sample `(y, x)`. -/
structure ExtendInv (f : SampleFormat) (s0 : State) (y x : Nat) (s : State) : Prop where
  frame : RunFrame s0 s
  phase : s.phase = .extend
  row : s.row = y
  col : s.col = x
  rowLt : y < s0.planeH
  colLt : x < s0.planeW
  mem : s.mem = s0.mem
  drawn : s.drawn = s0.drawn + Config.drawStride * (y * s0.planeW + x)
  status : s.status = { s0.status with extValid := false }
  errAddr : s.errAddr = s0.errAddr
  rows : ∀ y' < y, ∀ c < s0.planeW + 16,
    extAt (s0.planeW + 16) s.ext (8 + y') c = sourceSample f s0 y' (mirrorIndex c s0.planeW)
  cells : ∀ x' < x, extAt (s0.planeW + 16) s.ext (8 + y) (8 + x') = sourceSample f s0 y x'
  port : s.port.reverse =
    s0.port.reverse ++ accessesBefore false (srcAddr f s0) (sampleBytes f) s0.planeW y x

/-- A complete buffer: the closed form of R103. -/
def BufferDone (f : SampleFormat) (s0 : State) (e : List Word) : Prop :=
  ∀ r < s0.planeH + 16, ∀ c < s0.planeW + 16,
    extAt (s0.planeW + 16) e r c =
      sourceSample f s0 (mirrorIndex r s0.planeH) (mirrorIndex c s0.planeW)

/-- `RUN` starts in `EXTEND` before its first read. -/
theorem ExtendInv.start {f : SampleFormat} {s : State} (h : badGeometry f s = false) :
    ExtendInv f s 0 0 (beginExtend s) where
  frame := beginExtend_frame s
  phase := rfl
  row := rfl
  col := rfl
  rowLt := by have := (geometry_facts h).2.2.1; omega
  colLt := by have := (geometry_facts h).1; omega
  mem := rfl
  drawn := by simp
  status := rfl
  errAddr := rfl
  rows := by simp
  cells := by simp
  port := by simp [accessesBefore]

theorem srcAddr_frame {s t : State} (f : SampleFormat) (h : RunFrame s t) (y x : Nat) :
    srcAddr f t y x = srcAddr f s y x := by
  unfold srcAddr; rw [h.srcBase, h.srcStride]

theorem dstAddr_frame {s t : State} (f : SampleFormat) (h : RunFrame s t) (y x : Nat) :
    dstAddr f t y x = dstAddr f s y x := by
  unfold dstAddr; rw [h.dstBase, h.dstStride]

/-- Rows that are complete stay so when a later sample is stored. -/
theorem extendStore_rows {W H y x y' c : Nat} {v : Word} {e : List Word} (hW : 16 ≤ W)
    (hx : x < W) (hc : c < W + 16) (hy : y' < y) (hyH : y < H) (hlast : x + 1 < W ∨ y + 1 < H) :
    extAt (W + 16) (extendStore W H y x v e) (8 + y') c = extAt (W + 16) e (8 + y') c := by
  unfold extendStore extPitch
  dsimp only
  split_ifs with h1 h2
  · rw [extAt_extSet _ _ hc (by omega), if_neg (by omega)]
  · rw [extAt_mirrorRow _ hW hc, if_neg (by omega), extAt_extSet _ _ hc (by omega), if_neg (by omega)]
  · omega

/-- The row that a last sample completes. -/
theorem extAt_lastInRow {W y c : Nat} {v : Word} {e : List Word} {P : Nat → Word} (hW : 16 ≤ W)
    (hc : c < W + 16) (hcells : ∀ x' < W - 1, extAt (W + 16) e (8 + y) (8 + x') = P x')
    (hv : v = P (W - 1)) :
    extAt (W + 16) (mirrorRow W y (extSet (W + 16) e (8 + y) (8 + (W - 1)) v)) (8 + y) c =
      P (mirrorIndex c W) := by
  have hm := mirrorIndex_lt (N := W) (by omega) hc
  rw [extAt_mirrorRow _ hW hc, if_pos rfl, extAt_extSet _ _ (by omega) (by omega)]
  split_ifs with h
  · rw [hv]; congr 1; omega
  · exact hcells _ (by omega)

/-- One read of `EXTEND` that is answered: the invariant holds at the next sample, or the buffer is
complete and the first write is next. -/
theorem ExtendInv.step {f : SampleFormat} {s0 s : State} {y x : Nat} (h : ExtendInv f s0 y x s)
    (hf : formatOf s0.fmt = some f) (hg : badGeometry f s0 = false)
    (hok : busFaultAt s0.params (srcAddr f s0 y x) false = false) :
    (x + 1 < s0.planeW ∧ ExtendInv f s0 y (x + 1) (runTick s)) ∨
      (x + 1 = s0.planeW ∧ y + 1 < s0.planeH ∧ ExtendInv f s0 (y + 1) 0 (runTick s)) ∨
      (x + 1 = s0.planeW ∧ y + 1 = s0.planeH ∧ RunFrame s0 (runTick s) ∧ (runTick s).phase = .filter ∧
        (runTick s).row = 0 ∧ (runTick s).col = 0 ∧ (runTick s).mem = s0.mem ∧
        (runTick s).status = { s0.status with extValid := true } ∧ (runTick s).errAddr = s0.errAddr ∧
        BufferDone f s0 (runTick s).ext ∧
        (runTick s).port.reverse = s0.port.reverse
          ++ accessesBefore false (srcAddr f s0) (sampleBytes f) s0.planeW s0.planeH 0) := by
  obtain ⟨hW, _, hH, _⟩ := geometry_facts hg
  have hy := h.rowLt
  have hx := h.colLt
  have hsrc : srcAddr f s s.row s.col = srcAddr f s0 y x := by
    rw [srcAddr_frame f h.frame, h.row, h.col]
  have hload : loadSample s.drawn (srcAddr f s0 y x) (sampleBytes f) s = sourceSample f s0 y x := by
    rw [h.drawn]; exact loadSample_congr _ _ _ h.frame.races h.mem
  let e := extendStore s0.planeW s0.planeH y x (sourceSample f s0 y x) s.ext
  let u : State :=
    { drawOn (portIssue false (srcAddr f s0 y x) (sampleBytes f) s) with ext := e }
  have hu : runTick s = extendNext u := by
    unfold runTick
    rw [h.phase]
    simp only [h.frame.fmt, hf]
    unfold extendTick
    dsimp only
    rw [hsrc, hload, h.frame.params, hok, h.frame.planeW, h.frame.planeH, h.row, h.col]
    rfl
  have hfr : RunFrame s0 u := h.frame.trans rfl
  have hdrawn : u.drawn = s0.drawn + Config.drawStride * (y * s0.planeW + (x + 1)) := by
    show s.drawn + Config.drawStride = _
    rw [h.drawn]; ring
  have hport : u.port.reverse = s0.port.reverse
      ++ accessesBefore false (srcAddr f s0) (sampleBytes f) s0.planeW y (x + 1) := by
    rw [accessesBefore_next, ← List.append_assoc, ← h.port]
    simp [u]
  have huW : u.planeW = s0.planeW := hfr.planeW
  have huH : u.planeH = s0.planeH := hfr.planeH
  have huc : u.col = x := h.col
  have hur : u.row = y := h.row
  rw [hu]
  rcases extendNext_cases u with ⟨h1, he⟩ | ⟨h1, h2, he⟩ | ⟨h1, h2, he⟩
  · rw [huW, huc] at h1
    refine .inl ⟨h1, ?_⟩
    rw [he]
    exact
      { frame := hfr.trans rfl
        phase := h.phase
        row := hur
        col := by show u.col + 1 = x + 1; rw [huc]
        rowLt := hy
        colLt := h1
        mem := h.mem
        drawn := hdrawn
        status := h.status
        errAddr := h.errAddr
        rows := fun y' hy' c hc =>
          (extendStore_rows hW hx hc hy' hy (.inl h1)).trans (h.rows y' hy' c hc)
        cells := fun x' hx' => by
          show extAt _ e _ _ = _
          simp only [e, extendStore, extPitch, if_pos h1]
          rw [extAt_extSet _ _ (by omega) (by omega)]
          split_ifs with hxx
          · congr 1; omega
          · exact h.cells x' (by omega)
        port := hport }
  · rw [huW, huc] at h1
    rw [huH, hur] at h2
    have hxW : x = s0.planeW - 1 := by omega
    refine .inr (.inl ⟨by omega, h2, ?_⟩)
    rw [he]
    exact
      { frame := hfr.trans rfl
        phase := h.phase
        row := by show u.row + 1 = y + 1; rw [hur]
        col := rfl
        rowLt := h2
        colLt := by omega
        mem := h.mem
        drawn := by
          show u.drawn = _
          rw [hdrawn, Nat.add_mul, show x + 1 = s0.planeW by omega]; ring
        status := h.status
        errAddr := h.errAddr
        rows := fun y' hy' c hc => by
          by_cases hyy : y' < y
          · exact (extendStore_rows hW hx hc hyy hy (.inr h2)).trans (h.rows y' hyy c hc)
          · have hyy : y' = y := by omega
            subst hyy
            show extAt _ e _ _ = _
            simp only [e, extendStore, extPitch]
            rw [if_neg (by omega), if_pos h2]
            subst hxW
            exact extAt_lastInRow hW hc h.cells rfl
        cells := by simp
        port := by
          rw [accessesBefore_row]
          have : x + 1 = s0.planeW := by omega
          rw [this] at hport
          exact hport }
  · rw [huW, huc] at h1
    rw [huH, hur] at h2
    have hxW : x = s0.planeW - 1 := by omega
    have hyH : y = s0.planeH - 1 := by omega
    refine .inr (.inr ⟨by omega, by omega, ?_⟩)
    rw [he]
    refine ⟨hfr.trans rfl, rfl, rfl, rfl, h.mem, ?_, h.errAddr, ?_, ?_⟩
    · show ({ u.status with extValid := true } : Status) = _
      have : u.status = { s0.status with extValid := false } := h.status
      rw [this]
    · intro r hr' c hc
      show extAt _ e _ _ = _
      simp only [e, extendStore, extPitch]
      rw [if_neg (by omega), if_neg (by omega), extAt_mirrorRows _ hH hr' hc]
      have hm := mirrorIndex_lt (N := s0.planeH) (by omega) hr'
      by_cases hmy : mirrorIndex r s0.planeH = y
      · rw [hmy]
        subst hxW
        exact extAt_lastInRow hW hc h.cells rfl
      · rw [extAt_mirrorRow _ hW hc, if_neg (by omega), extAt_extSet _ _ hc (by omega),
          if_neg (by omega)]
        exact h.rows _ (by omega) c hc
    · have h3 : s0.planeH = y + 1 := by omega
      have h4 : x + 1 = s0.planeW := by omega
      show u.port.reverse = _
      rw [hport, h4]
      conv_rhs => rw [h3, accessesBefore_row]

/-- One read of `EXTEND` that gets a bus error ends the `RUN` (R76, R224). -/
theorem ExtendInv.fails {f : SampleFormat} {s0 s : State} {y x : Nat} (h : ExtendInv f s0 y x s)
    (hf : formatOf s0.fmt = some f)
    (hbad : busFaultAt s0.params (srcAddr f s0 y x) false = true) :
    runTick s = raiseError .busError (BitVec.ofNat 32 (srcAddr f s0 y x))
      (drawOn (portIssue false (srcAddr f s0 y x) (sampleBytes f) s)) := by
  have hsrc : srcAddr f s s.row s.col = srcAddr f s0 y x := by
    rw [srcAddr_frame f h.frame, h.row, h.col]
  unfold runTick
  rw [h.phase]
  simp only [h.frame.fmt, hf]
  unfold extendTick
  dsimp only
  rw [hsrc, h.frame.params, hbad]
  rfl

/-! ### The `FILTER` phase -/

/-- Slots `0 … m - 1` of the Stage-A store hold the transforms of row `y` (R124). -/
def SlotsFilled (flt : Bool) (p : Nat) (e : List Word) (y m : Nat) (colc : List (Quad Coef)) : Prop :=
  ∀ k < m, ∃ d, slotAt colc k = stageA d flt p e (y + 5) (k + 5)

/-- The slots that are filled when output `x` has been computed. -/
def slotsAfter (x : Nat) : Nat := 4 * (x / 4) + 12

/-- A group extends the filled slots by four. -/
theorem SlotsFilled.group {flt : Bool} {p : Nat} {e : List Word} {y m : Nat}
    {colc : List (Quad Coef)} (n : Nat) (h : SlotsFilled flt p e y m colc) :
    SlotsFilled flt p e y (m + 4) (stageAGroup n flt p e y m colc) := by
  intro k hk
  rw [slotAt_stageAGroup]
  split_ifs with hin
  · exact ⟨_, rfl⟩
  · exact h k (by omega)

/-- The schedule of R126 fills the slots that output `x` reads and those of its group. -/
theorem slotsFilled_schedule {flt : Bool} {p : Nat} {e : List Word} {y x : Nat}
    {colc : List (Quad Coef)} (n : Nat)
    (h : x ≠ 0 → SlotsFilled flt p e y (slotsAfter (x - 1)) colc) :
    SlotsFilled flt p e y (slotsAfter x) (stageASchedule n flt p e y x colc) := by
  have h0 : SlotsFilled flt p e y 0 colc := fun k hk => by omega
  unfold stageASchedule
  dsimp only
  by_cases hx : x = 0
  · subst hx
    exact ((h0.group _).group _).group _
  · have h1 := h hx
    rw [if_neg hx]
    split_ifs with h4
    · have : slotsAfter (x - 1) = x + 8 := by unfold slotsAfter; omega
      rw [this] at h1
      have h2 := h1.group (n + 8 * bfDraws)
      have : slotsAfter x = x + 8 + 4 := by unfold slotsAfter; omega
      rwa [this]
    · have : slotsAfter x = slotsAfter (x - 1) := by unfold slotsAfter; omega
      rwa [this]

/-- The output word of `(y, x)` from the buffer (R208), with the draws `d` for its free values. -/
def outWord (d : Nat → Nat) (f : SampleFormat) (s0 : State) (e : List Word) (y x : Nat) : Word :=
  let col := fun k => stageA (d k) (isFloat f) (s0.planeW + 16) e (y + 5) (x + 5 + k)
  quantOf (d 9) f s0
    (scoreOf (d 8) (isFloat f) s0
      (stageB (d 7) (isFloat f) ⟨col 0, col 1, col 2, col 3, col 4, col 5, col 6⟩))

/-- The output word fits the sample. -/
theorem quantOf_lt (n : Nat) (f : SampleFormat) (s : State) (v : Coef) (hf : formatOf s.fmt = some f) :
    (quantOf n f s v).toNat < 2 ^ (8 * sampleBytes f) := by
  unfold quantOf
  split_ifs with hfl
  · cases f with
    | f32 => simpa [sampleBytes] using (quantFlt _ _).isLt
    | u8 => simp [isFloat] at hfl
    | u16 b => simp [isFloat] at hfl
  · have hp : (peakOf f : Int) < 2 ^ (8 * sampleBytes f) ∧ (2 : Int) ^ (8 * sampleBytes f) ≤ 2 ^ 16 := by
      cases f with
      | f32 => simp [isFloat] at hfl
      | u8 => simp [peakOf, sampleBytes]
      | u16 b =>
        have hb : b ≤ 16 := by
          unfold formatOf at hf
          split_ifs at hf <;> cases hf
          omega
        have h1 : 2 ^ b ≤ 2 ^ 16 := Nat.pow_le_pow_right (by norm_num) hb
        have h2 : 0 < 2 ^ b := by positivity
        simp only [peakOf, sampleBytes]
        omega
    have key : ∀ z : Int, 0 ≤ z → z < 2 ^ (8 * sampleBytes f) →
        (BitVec.ofInt 32 z).toNat < 2 ^ (8 * sampleBytes f) := by
      intro z hz hz'
      have : ((BitVec.ofInt 32 z).toNat : Int) = z := by
        rw [BitVec.toNat_ofInt, Int.toNat_of_nonneg (Int.emod_nonneg _ (by norm_num))]
        exact Int.emod_eq_of_lt hz (by norm_num; omega)
      zify
      rw [this]
      exact hz'
    unfold quantInt
    split_ifs
    · exact key _ (by omega) (by omega)
    · exact key _ (Int.emod_nonneg _ (by positivity)) (Int.emod_lt_of_pos _ (by positivity))

/-- Sample `(y', x')` comes before `(y, x)` in row-major order. -/
def EarlierSample (y' x' y x : Nat) : Prop := y' < y ∨ y' = y ∧ x' < x

/-- Between two writes of a `RUN` issued in `s0`, the next one being that of sample `(y, x)`, with `e` the
complete buffer and `log` the accesses before the first write. -/
structure FilterInv (f : SampleFormat) (s0 : State) (e : List Word) (log : List PortAccess) (y x : Nat)
    (s : State) : Prop where
  frame : RunFrame s0 s
  phase : s.phase = .filter
  row : s.row = y
  col : s.col = x
  rowLt : y < s0.planeH
  colLt : x < s0.planeW
  status : s.status = { s0.status with extValid := true }
  errAddr : s.errAddr = s0.errAddr
  ext : s.ext = e
  slots : x ≠ 0 → SlotsFilled (isFloat f) (s0.planeW + 16) e y (slotsAfter (x - 1)) s.colc
  wf : s0.mem.wf = true → s.mem.wf = true
  kept : ∀ a, (∀ y' x', y' < s0.planeH → x' < s0.planeW → EarlierSample y' x' y x →
      a < dstAddr f s0 y' x' ∨ dstAddr f s0 y' x' + sampleBytes f ≤ a) →
    readByte s.mem a = readByte s0.mem a
  written : s0.mem.wf = true → ∀ y' x', x' < s0.planeW → EarlierSample y' x' y x →
    ∃ d, memRead s.mem (dstAddr f s0 y' x') (sampleBytes f) = outWord d f s0 e y' x'
  port : s.port.reverse = log ++ accessesBefore true (dstAddr f s0) (sampleBytes f) s0.planeW y x

/-- The state of a `RUN` that has made every write. -/
structure FilterDone (f : SampleFormat) (s0 : State) (e : List Word) (log : List PortAccess)
    (s : State) : Prop where
  frame : RunFrame s0 s
  phase : s.phase = .idle
  status : s.status = { s0.status with busy := false, done := true, extValid := true }
  errAddr : s.errAddr = s0.errAddr
  ext : s.ext = e
  kept : ∀ a, (∀ y' x', y' < s0.planeH → x' < s0.planeW →
      a < dstAddr f s0 y' x' ∨ dstAddr f s0 y' x' + sampleBytes f ≤ a) →
    readByte s.mem a = readByte s0.mem a
  written : s0.mem.wf = true → ∀ y' < s0.planeH, ∀ x' < s0.planeW,
    ∃ d, memRead s.mem (dstAddr f s0 y' x') (sampleBytes f) = outWord d f s0 e y' x'
  port : s.port.reverse =
    log ++ accessesBefore true (dstAddr f s0) (sampleBytes f) s0.planeW s0.planeH 0

theorem scoreOf_frame {s t : State} (h : RunFrame s t) (n : Nat) (flt : Bool) (b : Vector Coef 16) :
    scoreOf n flt t b = scoreOf n flt s b := by
  unfold scoreOf; rw [h.thr, h.params]

theorem quantOf_frame {s t : State} (h : RunFrame s t) (n : Nat) (f : SampleFormat) (v : Coef) :
    quantOf n f t v = quantOf n f s v := by
  unfold quantOf; rw [h.params]

/-- What the step of output `(y, x)` computes is an output word of R208. -/
theorem FilterInv.word {f : SampleFormat} {s0 s : State} {e : List Word} {log : List PortAccess}
    {y x : Nat} (h : FilterInv f s0 e log y x s) :
    (∃ d, quantOf s.drawn f s (filterCompute f s).accV = outWord d f s0 e y x) ∧
      SlotsFilled (isFloat f) (s0.planeW + 16) e y (slotsAfter x) (filterCompute f s).colc := by
  have hs : SlotsFilled (isFloat f) (s0.planeW + 16) e y (slotsAfter x) (filterCompute f s).colc := by
    rw [filterCompute_colc, h.row, h.col, h.ext, h.frame.planeW]
    exact slotsFilled_schedule _ h.slots
  refine ⟨?_, hs⟩
  have hlt : ∀ k < 7, x + k < slotsAfter x := fun k hk => by unfold slotsAfter; omega
  obtain ⟨d0, h0⟩ := hs x (hlt 0 (by omega))
  obtain ⟨d1, h1⟩ := hs (x + 1) (hlt 1 (by omega))
  obtain ⟨d2, h2⟩ := hs (x + 2) (hlt 2 (by omega))
  obtain ⟨d3, h3⟩ := hs (x + 3) (hlt 3 (by omega))
  obtain ⟨d4, h4⟩ := hs (x + 4) (hlt 4 (by omega))
  obtain ⟨d5, h5⟩ := hs (x + 5) (hlt 5 (by omega))
  obtain ⟨d6, h6⟩ := hs (x + 6) (hlt 6 (by omega))
  refine ⟨fun k => [d0, d1, d2, d3, d4, d5, d6, s.drawn + 12 * bfDraws, s.drawn, s.drawn].getD k 0, ?_⟩
  rw [filterCompute_accV, filterCompute_block, scoreOf_frame h.frame, quantOf_frame h.frame, h.col]
  unfold sevenSlots outWord
  rw [h0, h1, h2, h3, h4, h5, h6]
  simp only [List.getD_cons_zero, List.getD_cons_succ, Nat.add_zero]

/-- `FILTER` starts with the complete buffer. -/
theorem FilterInv.start {f : SampleFormat} {s0 s : State} {log : List PortAccess}
    (hg : badGeometry f s0 = false) (hfr : RunFrame s0 s) (hp : s.phase = .filter) (hr : s.row = 0)
    (hc : s.col = 0) (hm : s.mem = s0.mem) (hst : s.status = { s0.status with extValid := true })
    (he : s.errAddr = s0.errAddr) (hl : s.port.reverse = log) :
    FilterInv f s0 s.ext log 0 0 s where
  frame := hfr
  phase := hp
  row := hr
  col := hc
  rowLt := by have := (geometry_facts hg).2.2.1; omega
  colLt := by have := (geometry_facts hg).1; omega
  status := hst
  errAddr := he
  ext := rfl
  slots := fun h => absurd rfl h
  wf := by rw [hm]; exact id
  kept := fun a _ => by rw [hm]
  written := fun _ y' x' _ h => by rcases h with h | ⟨_, h⟩ <;> omega
  port := by simp [accessesBefore, hl]

/-- The state with the work of output `(y, x)` done and its word stored. -/
def filterStored (f : SampleFormat) (s : State) (a n : Nat) (w : Word) : State :=
  storeSample a n w (drawOn (portIssue true a n (filterCompute f s)))

theorem filterStored_frame (f : SampleFormat) (s : State) (a n : Nat) (w : Word) :
    RunFrame s (filterStored f s a n w) :=
  (((filterCompute_frame f s).trans (portIssue_frame _ _ _ _)).trans (drawOn_frame _)).trans
    (storeSample_frame a n w _)

/-- The step of `FILTER` in the terms of its invariant. -/
theorem FilterInv.tick {f : SampleFormat} {s0 s : State} {e : List Word} {log : List PortAccess}
    {y x : Nat} (h : FilterInv f s0 e log y x s) (hf : formatOf s0.fmt = some f) :
    runTick s =
      if busFaultAt s0.params (dstAddr f s0 y x) true then
        raiseError .busError (BitVec.ofNat 32 (dstAddr f s0 y x))
          (filterStored f s (dstAddr f s0 y x) (sampleBytes f) (Config.freeMem s.drawn))
      else
        filterNext (filterStored f s (dstAddr f s0 y x) (sampleBytes f)
          (quantOf s.drawn f s (filterCompute f s).accV)) := by
  have hd : dstAddr f s s.row s.col = dstAddr f s0 y x := by
    rw [dstAddr_frame f h.frame, h.row, h.col]
  unfold runTick
  rw [h.phase]
  simp only [h.frame.fmt, hf]
  unfold filterTick
  dsimp only
  rw [hd, h.frame.params]
  rfl

/-- What a store of output `(y, x)` leaves of memory. -/
theorem FilterInv.stored {f : SampleFormat} {s0 s : State} {e : List Word} {log : List PortAccess}
    {y x : Nat} (h : FilterInv f s0 e log y x s) (w : Word) :
    (s0.mem.wf = true →
      (filterStored f s (dstAddr f s0 y x) (sampleBytes f) w).mem.wf = true) ∧
    (∀ a, (∀ y' x', y' < s0.planeH → x' < s0.planeW → EarlierSample y' x' y x ∨ y' = y ∧ x' = x →
      a < dstAddr f s0 y' x' ∨ dstAddr f s0 y' x' + sampleBytes f ≤ a) →
      readByte (filterStored f s (dstAddr f s0 y x) (sampleBytes f) w).mem a = readByte s0.mem a) := by
  have hm : (filterStored f s (dstAddr f s0 y x) (sampleBytes f) w).mem =
      memWrite s.mem (dstAddr f s0 y x) (sampleBytes f) w := by
    unfold filterStored
    rw [storeSample_mem, drawOn_mem, portIssue_mem, filterCompute_mem]
  rw [hm]
  refine ⟨fun h0 => wf_memWrite _ _ _ (h.wf h0), fun a ha => ?_⟩
  rw [readByte_memWrite_other _ (ha y x h.rowLt h.colLt (.inr ⟨rfl, rfl⟩))]
  exact h.kept a fun y' x' h1 h2 h3 => ha y' x' h1 h2 (.inl h3)

/-- A store of output `(y, x)`, whatever its word, leaves every earlier sample as it was written. -/
theorem FilterInv.storedEarlier {f : SampleFormat} {s0 s : State} {e : List Word} {log : List PortAccess}
    {y x : Nat} (h : FilterInv f s0 e log y x s) (hg : badGeometry f s0 = false)
    (h0 : s0.mem.wf = true) (w : Word) (y' x' : Nat) (hx' : x' < s0.planeW)
    (hlt : EarlierSample y' x' y x) :
    ∃ d, memRead (filterStored f s (dstAddr f s0 y x) (sampleBytes f) w).mem (dstAddr f s0 y' x')
      (sampleBytes f) = outWord d f s0 e y' x' := by
  unfold filterStored
  rw [storeSample_mem, drawOn_mem, portIssue_mem, filterCompute_mem, memRead_memWrite_other]
  · exact h.written h0 y' x' hx' hlt
  · exact .inl (sampleAddr_apart (geometry_facts hg).2.2.2.2.2.1 hx' hlt)

/-- The samples written once output `(y, x)` is stored. -/
theorem FilterInv.storedWord {f : SampleFormat} {s0 s : State} {e : List Word} {log : List PortAccess}
    {y x : Nat} (h : FilterInv f s0 e log y x s) (hf : formatOf s0.fmt = some f)
    (hg : badGeometry f s0 = false) (h0 : s0.mem.wf = true) (y' x' : Nat) (hx' : x' < s0.planeW)
    (hlt : EarlierSample y' x' y x ∨ y' = y ∧ x' = x) :
    ∃ d, memRead (filterStored f s (dstAddr f s0 y x) (sampleBytes f)
        (quantOf s.drawn f s (filterCompute f s).accV)).mem (dstAddr f s0 y' x') (sampleBytes f) =
      outWord d f s0 e y' x' := by
  rcases hlt with hlt | ⟨rfl, rfl⟩
  · exact h.storedEarlier hg h0 _ y' x' hx' hlt
  · obtain ⟨⟨d, hd⟩, _⟩ := h.word
    refine ⟨d, ?_⟩
    have hlt := quantOf_lt s.drawn f s (filterCompute f s).accV (by rw [h.frame.fmt]; exact hf)
    unfold filterStored
    rw [storeSample_mem, drawOn_mem, portIssue_mem, filterCompute_mem,
      memRead_memWrite _ _ _ (h.wf h0), Nat.mod_eq_of_lt hlt, ← hd]
    simp

/-- One write of `FILTER` that is answered: the invariant holds at the next sample, or the command has
completed. -/
theorem FilterInv.step {f : SampleFormat} {s0 s : State} {e : List Word} {log : List PortAccess}
    {y x : Nat} (h : FilterInv f s0 e log y x s) (hf : formatOf s0.fmt = some f)
    (hg : badGeometry f s0 = false)
    (hok : busFaultAt s0.params (dstAddr f s0 y x) true = false) :
    (x + 1 < s0.planeW ∧ FilterInv f s0 e log y (x + 1) (runTick s)) ∨
      (x + 1 = s0.planeW ∧ y + 1 < s0.planeH ∧ FilterInv f s0 e log (y + 1) 0 (runTick s)) ∨
      (x + 1 = s0.planeW ∧ y + 1 = s0.planeH ∧ FilterDone f s0 e log (runTick s)) := by
  have hx := h.colLt
  have hy := h.rowLt
  rw [h.tick hf, if_neg (by simp [hok])]
  have hst := h.stored (quantOf s.drawn f s (filterCompute f s).accV)
  have hwr := h.storedWord hf hg
  obtain ⟨_, hsl⟩ := h.word
  have hfr : RunFrame s0 (filterStored f s (dstAddr f s0 y x) (sampleBytes f)
      (quantOf s.drawn f s (filterCompute f s).accV)) := h.frame.trans (filterStored_frame _ _ _ _ _)
  generalize hu : filterStored f s (dstAddr f s0 y x) (sampleBytes f)
    (quantOf s.drawn f s (filterCompute f s).accV) = u at *
  have hup : u.phase = .filter := by simp [← hu, filterStored, h.phase]
  have hur : u.row = y := by simp [← hu, filterStored, h.row]
  have huc : u.col = x := by simp [← hu, filterStored, h.col]
  have hus : u.status = { s0.status with extValid := true } := by
    simp [← hu, filterStored, h.status]
  have hue : u.errAddr = s0.errAddr := by simp [← hu, filterStored, h.errAddr]
  have hux : u.ext = e := by simp [← hu, filterStored, h.ext]
  have hcol : u.colc = (filterCompute f s).colc := by
    rw [← hu]; unfold filterStored; rw [storeSample_colc, drawOn_colc, portIssue_colc]
  have hport : u.port.reverse =
      log ++ accessesBefore true (dstAddr f s0) (sampleBytes f) s0.planeW y (x + 1) := by
    rw [accessesBefore_next, ← List.append_assoc, ← h.port]
    simp [← hu, filterStored]
  rw [← hcol] at hsl
  clear hu
  rcases filterNext_cases u with ⟨h1, he⟩ | ⟨h1, h2, he⟩ | ⟨h1, h2, he⟩
  · rw [hfr.planeW, huc] at h1
    refine .inl ⟨h1, ?_⟩
    rw [he]
    exact
      { frame := hfr.trans rfl
        phase := hup
        row := hur
        col := by show u.col + 1 = x + 1; rw [huc]
        rowLt := hy
        colLt := h1
        status := hus
        errAddr := hue
        ext := hux
        slots := fun _ => hsl
        wf := hst.1
        kept := fun a ha => hst.2 a fun y' x' h3 h4 h5 => ha y' x' h3 h4 (by
          unfold EarlierSample at *; omega)
        written := fun h0 y' x' h3 h4 => hwr h0 y' x' h3 (by unfold EarlierSample at *; omega)
        port := hport }
  · rw [hfr.planeW, huc] at h1
    rw [hfr.planeH, hur] at h2
    have hxW : x + 1 = s0.planeW := by omega
    refine .inr (.inl ⟨hxW, h2, ?_⟩)
    rw [he]
    exact
      { frame := hfr.trans rfl
        phase := hup
        row := by show u.row + 1 = y + 1; rw [hur]
        col := rfl
        rowLt := h2
        colLt := by omega
        status := hus
        errAddr := hue
        ext := hux
        slots := fun h => absurd rfl h
        wf := hst.1
        kept := fun a ha => hst.2 a fun y' x' h3 h4 h5 => ha y' x' h3 h4 (by
          unfold EarlierSample at *; omega)
        written := fun h0 y' x' h3 h4 => hwr h0 y' x' h3 (by unfold EarlierSample at *; omega)
        port := by
          rw [hxW] at hport
          rw [accessesBefore_row]
          exact hport }
  · rw [hfr.planeW, huc] at h1
    rw [hfr.planeH, hur] at h2
    have hxW : x + 1 = s0.planeW := by omega
    have hyH : s0.planeH = y + 1 := by omega
    refine .inr (.inr ⟨hxW, by omega, ?_⟩)
    rw [he]
    exact
      { frame := hfr.trans rfl
        phase := rfl
        status := by rw [complete_status, hus]
        errAddr := hue
        ext := hux
        kept := fun a ha => hst.2 a fun y' x' h3 h4 _ => ha y' x' h3 h4
        written := fun h0 y' h3 x' h4 => hwr h0 y' x' h4 (by unfold EarlierSample; omega)
        port := by
          rw [complete_port, hport, hxW]
          conv_rhs => rw [hyH, accessesBefore_row] }

/-! ### Whole phases -/

/-- A `RUN` that passes its checks starts with `EXTEND`. -/
theorem runStart_ok {s : State} (h : runCheck s = none) : runStart s = beginExtend s := by
  unfold runStart; rw [h]

/-- From any read on, if every later read is answered the `RUN` reaches its first write, with the buffer
complete. -/
theorem ExtendInv.toFilter {f : SampleFormat} {s0 : State} (hf : formatOf s0.fmt = some f)
    (hg : badGeometry f s0 = false)
    (hok : ∀ y < s0.planeH, ∀ x < s0.planeW, busFaultAt s0.params (srcAddr f s0 y x) false = false)
    (n : Nat) {y x : Nat} {s : State} (h : ExtendInv f s0 y x s) (hn : ticksLeft s ≤ n) :
    ∃ u, runToEnd s = runToEnd u ∧ BufferDone f s0 u.ext ∧
      FilterInv f s0 u.ext
        (s0.port.reverse ++ accessesBefore false (srcAddr f s0) (sampleBytes f) s0.planeW s0.planeH 0)
        0 0 u := by
  induction n generalizing y x s with
  | zero => simp [ticksLeft, h.phase] at hn
  | succ n ih =>
    have ht := ticksLeft_runTick s (.inl h.phase)
    have he := runToEnd_runTick s (.inl h.phase)
    rcases h.step hf hg (hok y h.rowLt x h.colLt) with
      ⟨_, h'⟩ | ⟨_, _, h'⟩ | ⟨_, _, h1, h2, h3, h4, h5, h6, h7, h8, h9⟩
    · obtain ⟨u, hu, hb⟩ := ih h' (by omega)
      exact ⟨u, he.symm.trans hu, hb⟩
    · obtain ⟨u, hu, hb⟩ := ih h' (by omega)
      exact ⟨u, he.symm.trans hu, hb⟩
    · exact ⟨_, he.symm, h8, FilterInv.start hg h1 h2 h3 h4 h5 h6 h7 h9⟩

/-- From any write on, if every later write is answered the `RUN` completes. -/
theorem FilterInv.toDone {f : SampleFormat} {s0 : State} {e : List Word} {log : List PortAccess}
    (hf : formatOf s0.fmt = some f) (hg : badGeometry f s0 = false)
    (hok : ∀ y < s0.planeH, ∀ x < s0.planeW, busFaultAt s0.params (dstAddr f s0 y x) true = false)
    (n : Nat) {y x : Nat} {s : State} (h : FilterInv f s0 e log y x s) (hn : ticksLeft s ≤ n) :
    FilterDone f s0 e log (runToEnd s) := by
  induction n generalizing y x s with
  | zero => simp [ticksLeft, h.phase] at hn
  | succ n ih =>
    have ht := ticksLeft_runTick s (.inr h.phase)
    rw [← runToEnd_runTick s (.inr h.phase)]
    rcases h.step hf hg (hok y h.rowLt x h.colLt) with ⟨_, h'⟩ | ⟨_, _, h'⟩ | ⟨_, _, h'⟩
    · exact ih h' (by omega)
    · exact ih h' (by omega)
    · rw [runToEnd_of_idle _ h'.phase]; exact h'

/-- The first read that is not answered, if every earlier one is: the `RUN` gets there. -/
theorem ExtendInv.toFailure {f : SampleFormat} {s0 : State} (hf : formatOf s0.fmt = some f)
    (hg : badGeometry f s0 = false) {yb xb : Nat} (hyb : yb < s0.planeH)
    (hxb : xb < s0.planeW)
    (hok : ∀ y < s0.planeH, ∀ x < s0.planeW, EarlierSample y x yb xb →
      busFaultAt s0.params (srcAddr f s0 y x) false = false)
    (n : Nat) {y x : Nat} {s : State} (h : ExtendInv f s0 y x s)
    (hle : EarlierSample y x yb xb ∨ y = yb ∧ x = xb) (hn : ticksLeft s ≤ n) :
    ∃ u, runToEnd s = runToEnd u ∧ ExtendInv f s0 yb xb u := by
  induction n generalizing y x s with
  | zero => simp [ticksLeft, h.phase] at hn
  | succ n ih =>
    rcases hle with hle | ⟨rfl, rfl⟩
    · have ht := ticksLeft_runTick s (.inl h.phase)
      have he := runToEnd_runTick s (.inl h.phase)
      have hy := h.rowLt
      have hx := h.colLt
      unfold EarlierSample at hle ih
      rcases h.step hf hg (hok y h.rowLt x h.colLt hle) with ⟨h1, h'⟩ | ⟨h1, h2, h'⟩ | ⟨h1, h2, _⟩
      · obtain ⟨u, hu, hb⟩ := ih h' (by omega) (by omega)
        exact ⟨u, he.symm.trans hu, hb⟩
      · obtain ⟨u, hu, hb⟩ := ih h' (by omega) (by omega)
        exact ⟨u, he.symm.trans hu, hb⟩
      · omega
    · exact ⟨s, rfl, h⟩

/-- The first write that is not answered, if every earlier one is: the `RUN` gets there. -/
theorem FilterInv.toFailure {f : SampleFormat} {s0 : State} {e : List Word} {log : List PortAccess}
    (hf : formatOf s0.fmt = some f) (hg : badGeometry f s0 = false) {yb xb : Nat}
    (hyb : yb < s0.planeH) (hxb : xb < s0.planeW)
    (hok : ∀ y < s0.planeH, ∀ x < s0.planeW, EarlierSample y x yb xb →
      busFaultAt s0.params (dstAddr f s0 y x) true = false)
    (n : Nat) {y x : Nat} {s : State} (h : FilterInv f s0 e log y x s)
    (hle : EarlierSample y x yb xb ∨ y = yb ∧ x = xb) (hn : ticksLeft s ≤ n) :
    ∃ u, runToEnd s = runToEnd u ∧ FilterInv f s0 e log yb xb u := by
  induction n generalizing y x s with
  | zero => simp [ticksLeft, h.phase] at hn
  | succ n ih =>
    rcases hle with hle | ⟨rfl, rfl⟩
    · have ht := ticksLeft_runTick s (.inr h.phase)
      have he := runToEnd_runTick s (.inr h.phase)
      have hy := h.rowLt
      have hx := h.colLt
      unfold EarlierSample at hle ih
      rcases h.step hf hg (hok y h.rowLt x h.colLt hle) with ⟨h1, h'⟩ | ⟨h1, h2, h'⟩ | ⟨h1, h2, _⟩
      · obtain ⟨u, hu, hb⟩ := ih h' (by omega) (by omega)
        exact ⟨u, he.symm.trans hu, hb⟩
      · obtain ⟨u, hu, hb⟩ := ih h' (by omega) (by omega)
        exact ⟨u, he.symm.trans hu, hb⟩
      · omega
    · exact ⟨s, rfl, h⟩

end Sys2Proof.Machine
end

