-- ==== Sys2Proof/Tests/Slice0.lean ====
section
/-! SUPPORT. Tests/Slice0.lean: checks on fixed values.  Expected values come from the vectors of
95_test_vectors.md or from the worked examples of the rules named; after them, for every statement with
hypotheses, a witness that meets them. -/

namespace Sys2Proof.Tests

open Sys2Proof.Machine Sys2Proof.Claims

/-! ### Well-formedness -/

theorem test_wf_largest_qp : (Instr.setqp 63).wf = true := by decide
theorem test_wf_refuses_qp_64 : (Instr.setqp 64).wf = false := by decide
theorem test_params_wf : defaultParams.wf = true := by decide
theorem test_params_refuses_width_17 : { defaultParams with maxWidth := 17 }.wf = false := by decide
theorem test_params_refuses_width_0 : { defaultParams with maxWidth := 0 }.wf = false := by decide
theorem test_params_refuses_width_65536 : { defaultParams with maxWidth := 65536 }.wf = false := by decide
theorem test_params_refuses_scratch_1279 :
    { defaultParams with scratchBytes := 1279 }.wf = false := by decide

/-! ### Decoding: the words of R83, bit by bit, and words of 2.7 that are illegal -/

theorem test_decode_nop : decode 0b00000000000000000000000000000000#32 = .ok .nop := by decide
theorem test_decode_setqp :
    decode 0b00000000000000000010101000000001#32 = .ok (.setqp 42) := by decide
theorem test_decode_run : decode 0b00000000000000000000000000000010#32 = .ok .run := by decide
theorem test_decode_diagA : decode 0b00000000000000000000000000001000#32 = .ok .diagA := by decide
theorem test_decode_diagB : decode 0b00000000000000000000000000001001#32 = .ok .diagB := by decide
theorem test_decode_diagS : decode 0b00000000000000000000000000001010#32 = .ok .diagS := by decide
theorem test_decode_diagQ : decode 0b00000000000000000000000000001011#32 = .ok .diagQ := by decide
theorem test_decode_xread : decode 0b00000000000000000000000000001100#32 = .ok .xread := by decide
theorem test_decode_refuses_reserved_op :
    decode 0x00000004#32 = .error .reservedOpcode ∧ decode 0x0000000F#32 = .error .reservedOpcode := by
  decide
theorem test_decode_refuses_run_with_qp : decode 0x00000102#32 = .error .qpFieldInUse := by decide
theorem test_decode_refuses_rsv0 : decode 0x00000010#32 = .error .reservedBits := by decide
theorem test_decode_refuses_rsv1 : decode 0x00004001#32 = .error .reservedBits := by decide
theorem test_decodeTableWord :
    decodeTableWord 32 0x3F01 = some (.setqp 63) ∧ decodeTableWord 8 0x0C = some .xread ∧
      decodeTableWord 32 0x7 = none := by decide

/-! ### A small machine -/

/-- An idle core with a legal format and everything else as after reset. -/
def withFmt (stype : BitVec 2) (bits : BitVec 6) : State := { State.reset with fmt := ⟨stype, bits⟩ }

/-- `DI` with its first entries given and 0 behind them. -/
def diOf (l : List Int) : Vector Word 28 := Vector.ofFn fun i => BitVec.ofInt 32 (l.getD i.val 0)

/-- The threshold table with the three classes of R205. -/
def classes (c00 c02 c22 : Nat) : Vector Word 16 :=
  let a := BitVec.ofNat 32 c00
  let b := BitVec.ofNat 32 c02
  let c := BitVec.ofNat 32 c22
  #v[a, b, a, b, b, c, b, c, a, b, a, b, b, c, b, c]

/-- An idle core with `FMT`, `DI`, a table and `THR_VALID`. -/
def withOperands (stype : BitVec 2) (bits : BitVec 6) (di : List Int) (thr : Vector Word 16) : State :=
  { withFmt stype bits with
    di := diOf di, thr := thr, status := { State.reset.status with thrValid := true } }

/-- The state a command leaves, the given one where it leaves none. -/
def after (i : Instr) (s : State) : State :=
  match exec i s with
  | .next t => t
  | .fault _ => s
  | .refused _ => s

/-- The state a step leaves, the given one where it leaves none. -/
def stepped (s : State) : State :=
  match step s with
  | .next t => t
  | .fault _ => s
  | .refused _ => s

/-! ### Commands (2.2 to 2.7) -/

/-- C1. -/
theorem test_nop : readReg .status (stepped (State.reset.withFetchWord 32 0)) = 0x00000002#32 := by
  decide
/-- C2. -/
theorem test_illegal :
    readReg .status (stepped (State.reset.withFetchWord 32 4)) = 0x00000104#32 := by decide
/-- T2. -/
theorem test_setqp : (after (.setqp 5) (withFmt 0 8)).thr = classes 79 125 199 := by decide
/-- T6. -/
theorem test_setqp_zero : readReg .status (after (.setqp 0) (withFmt 0 8)) = 0x00000304#32 := by decide
/-- A2. -/
theorem test_diagA :
    ((after .diagA (withOperands 0 8 [-5, 3, 0, 7, -2, 1, 4] (classes 0 0 0))).dout.toList.take 5) =
      [15, 24, 11, 27, 0] := by decide
/-- A10. -/
theorem test_diagA_float :
    ((after .diagA (withOperands 2 32
      [0x3F000000, 0x3E800000, 0x3E000000, 0x3F800000, 0x3E000000, 0x3E800000, 0x3F000000]
      (classes 0 0 0))).dout.toList.take 4) =
      [0x446F1000, 0x43DF2000, 0x440F7000, 0x43BF4000] := by decide +kernel
/-- B2. -/
theorem test_diagB :
    (after .diagB (withOperands 0 8
      [47, 22, 11, 11, 38, 0, -22, 0, 40, 0, 0, 0, 42, 0, 22, 0, 33, -22, -11, -11, 35, 11, -11, -22,
        48, 0, 0, 0] (classes 0 0 0))).dout.toList =
      [325, 11, 11, 0xFFFFFFEA, 0xFFFFFFEA, 0xFFFFFFB3, 0x58, 0xFFFFFFF5, 33, 33, 99, 44, 0xFFFFFFF5,
        44, 0xFFFFFFF5, 0xFFFFFFDF] := by decide
/-- B3. -/
theorem test_diagB_float :
    ((after .diagB (withOperands 2 32
      ((List.range 28).map fun k => if k % 4 = 0 then 0x44FF0000 else 0)
      (classes 0 0 0))).dout.toList.take 3) = [0x467F0000, 0, 0] := by decide +kernel
/-- S8. -/
theorem test_diagS :
    (after .diagS (withOperands 0 8
      [325, 11, 11, -22, -22, -77, 88, -11, 33, 33, 99, 44, -11, 44, -11, -33]
      (classes 79 125 199))).accLo = 0x0016D000 := by decide
/-- S9. -/
theorem test_diagS_float :
    (after .diagS (withOperands 2 32 [0x40000000, 0x42C90000, 0xC1A00000, 0x41F00000]
      (classes 15 24 39))).accLo = 0x489A5BC0 := by decide +kernel
/-- R184, `ACC = -2^17 - 1` under wrap. -/
theorem test_diagQ :
    (after .diagQ { withFmt 0 8 with accLo := 0xFFFDFFFF, accHi := 0xFFFFFFFF }).dout[0] = 255 := by
  decide
/-- R184, `ACC = 316 126.0` in the float domain. -/
theorem test_diagQ_float :
    (after .diagQ { withFmt 2 32 with accLo := 0x489A5BC0, accHi := 0xFFFFFFFF }).dout[0] =
      0x3B9AF6B7 := by decide +kernel
/-- X4, after reset. -/
theorem test_xread_not_extended :
    readReg .status (stepped (State.reset.withFetchWord 32 0xC)) = 0x00000704#32 := by decide

/-- A core that passes the checks of a `RUN`: 16×16 `U8`, source at `0x100`, destination at `0x1000` with a
stride of 32. -/
def ready : State :=
  { withOperands 0 8 [] (classes 79 125 199) with
    width := 16, height := 16
    srcBase := 0x100, srcStride := 16, dstBase := 0x1000, dstStride := 32
    mem := [(0x100, 9), (0x101, 7)] }

/-- An `XREAD` of `E[1][2]` from a buffer that holds 5 there (R107). -/
theorem test_xread :
    (after .xread { ready with
      status := { ready.status with extValid := true }
      ext := List.replicate 34 0 ++ [5], di := diOf [1, 2] }).dout[0] = 5 := by decide
/-- R207: a width of 8 is no multiple of 16. -/
theorem test_run_bad_geometry : (after .run { ready with width := 8 }).status.errCode = .badGeometry := by
  decide
/-- The first access of a `RUN` reads sample `(0, 0)` into `E[8][8]` (R102). -/
theorem test_run_first_read :
    extAt 32 (runTick (runStart ready)).ext 8 8 = 9 ∧
      (runTick (runStart ready)).port = [⟨false, 0x100, 1⟩] := by decide

/-! ### The register window (2.7) -/

/-- C7. -/
theorem test_status_w1c :
    readReg .status (serveRegWrite 0x014 4 0x4
      { State.reset with status := ⟨false, false, true, false, false, false, .illegalCmd⟩ }) =
      0x00000100#32 := by decide
/-- C10 and C11. -/
theorem test_busy_writes :
    serveRegWrite 0x024 4 32 { State.reset with status := { State.reset.status with busy := true } } =
      { State.reset with
        status := { State.reset.status with busy := true, wovr := true }, response := .written } := by
  decide
/-- C12 and C13. -/
theorem test_read_only_registers :
    (serveRegRead 0x000 4 State.reset).response = .value 0x50503701 ∧
      (serveRegRead 0x0BC 4 State.reset).response = .value 655 := by decide
/-- R20: an access of two bytes. -/
theorem test_window_refuses_halfword : (serveRegRead 0x014 2 State.reset).response = .busError := by
  decide
/-- R62: a halfword is read with its low byte at the lower address. -/
theorem test_memRead_little_endian : memRead [(0x100, 9), (0x101, 7)] 0x100 2 = 0x0709 := by decide

/-- R263, R66: a host read across the end of a destination row shows the padding as memory holds it. -/
theorem test_torn_read_keeps_padding :
    ∃ (t : State) (v : Word),
      serve (.memRead 0x100E .b4) { ready with phase := .filter, mem := [(0x1010, 9), (0x1011, 7)] } =
        .next t ∧ t.response = .memValue v ∧ v.toNat / 2 ^ 16 = 0x0709 := by
  obtain ⟨v, n, h, hv⟩ := serveMemRead_value (addr := 0x100E) (width := .b4)
    { ready with phase := .filter, mem := [(0x1010, 9), (0x1011, 7)] } (by decide)
  refine ⟨_, v, h, rfl, ?_⟩
  have h2 := hv 2 (by decide) (by decide)
  have h3 := hv 3 (by decide) (by decide)
  have m2 : (readByte [(0x1010, 9), (0x1011, 7)] (0x100E + 2)).toNat = 9 := by decide
  have m3 : (readByte [(0x1010, 9), (0x1011, 7)] (0x100E + 3)).toNat = 7 := by decide
  have hlt := v.isLt
  rw [m2] at h2
  rw [m3] at h3
  omega

/-! ### Witnesses: states and operands that meet the hypotheses of each statement -/

/-- `ready` with a command of word `w` in flight. -/
def inFlight (w : Word) : State := issued w [] ready

theorem ready_coherent : ready.Coherent where
  memWf := by decide
  memInSpace := by unfold State.memInSpace; decide
  busy := by unfold State.busyMatchesPhase; decide
  clean := by unfold State.busyIsClean; decide
  record := by unfold State.completionRecord; decide
  errAddr := by unfold State.errAddrMeaning; decide
  extValid := by
    refine ⟨by decide, by decide, fun h => ?_⟩
    exact absurd h (by decide)
  inFlight := fun h => by rcases h with h | h <;> exact absurd h (by decide)

theorem inFlight_coherent (w : Word) : (inFlight w).Coherent where
  memWf := ready_coherent.memWf
  memInSpace := ready_coherent.memInSpace
  busy := by simp [State.busyMatchesPhase, inFlight, issued]
  clean := by simp [State.busyIsClean, inFlight, issued]
  record := by simp [State.completionRecord, inFlight, issued]
  errAddr := by simp [State.errAddrMeaning, inFlight, issued]
  extValid := by
    refine ⟨by simp [inFlight, issued], by simp [inFlight, issued], fun h => ?_⟩
    exact absurd h (by simp [inFlight, issued, ready, withOperands, State.reset])
  inFlight := fun h => by simp [inFlight, issued] at h

theorem ready_int : IntFormat ready 1 255 := .inl (by decide)

theorem ready_legal : LegalFormat ready 1 := .inl ⟨255, ready_int⟩

theorem ready_geometry : GeometryOk 1 ready := by unfold GeometryOk PlaneOk; decide

theorem ready_capacity : CapacityOk 1 ready := by unfold CapacityOk; decide

theorem ready_run : RunReady 1 ready :=
  ⟨ready_legal, ready_geometry, ready_capacity, by decide⟩

theorem ready_reads : ReadsAnswered 1 ready := fun _ _ _ _ => rfl

theorem ready_writes : WritesAnswered 1 ready := fun _ _ _ _ => rfl

/-- `ready` in the float domain. -/
def readyFlt : State :=
  { ready with
    fmt := ⟨2, 32⟩, srcStride := 64, dstStride := 64
    status := { State.reset.status with thrValid := true } }

theorem readyFlt_flt : FltFormat readyFlt := by unfold FltFormat; decide

theorem readyFlt_run : RunReady 4 readyFlt :=
  ⟨.inr ⟨readyFlt_flt, rfl⟩, by unfold GeometryOk PlaneOk; decide, by unfold CapacityOk; decide,
    by decide⟩

theorem witness_WorkedEncodingsDecode :
    FmtOk (withFmt 0 8) ∧ FmtOk (withFmt 1 9) ∧ FmtOk (withFmt 1 16) ∧ FmtOk (withFmt 2 32) := by
  unfold FmtOk; decide

theorem witness_DecodeOfEncodeIsIdentity : (Instr.setqp 0).wf = true ∧ (Instr.setqp 63).wf = true := by
  decide

/-- An idle `ready` whose next stimulus writes `w` to `CMD`. -/
def writing (w : Word) : State := { ready with script := [⟨.regWrite 0x010 4 w, none⟩] }

theorem witness_StepIssuesAndRunsCommand :
    (writing 0x2).status.busy = false ∧ nextWritesCmd (writing 0x2) 0x2 [] ∧ decode 0x2 = .ok .run := by
  unfold nextWritesCmd; decide

theorem witness_IllegalWordCompletesWithIllegalCmd :
    (writing 0x10).status.busy = false ∧ nextWritesCmd (writing 0x10) 0x10 [] ∧ IllegalBits 0x10 :=
  ⟨rfl, rfl, by unfold IllegalBits; decide⟩

/-- One word for each kind of illegal word, at the ends of its range. -/
theorem witness_IllegalBits :
    IllegalBits 0x4000 ∧ IllegalBits 0x3 ∧ IllegalBits 0x7 ∧ IllegalBits 0xD ∧ IllegalBits 0xF ∧
      IllegalBits 0x102 := by
  unfold IllegalBits; decide

theorem witness_EveryStepKeepsCoherence : ready.Coherent ∧ step ready = .next ready :=
  ⟨ready_coherent, rfl⟩

theorem witness_EveryStepKeepsParameters : step (writing 0) = .next (stepped (writing 0)) := rfl

theorem witness_CommandsRightAfterReset :
    Instr.nop.wf = true ∧ Instr.xread.wf = true ∧ (Instr.setqp 0).wf = true := by decide

theorem witness_ResetAbortsRun :
    LegalFormat { ready with phase := .filter } 1 ∧ LegalFormat readyFlt 4 ∧ readyFlt.phase ≠ .filter ∧
      dstAt 1 ready 0 0 = 0x1000 :=
  ⟨ready_legal, .inr ⟨readyFlt_flt, rfl⟩, by decide, by decide⟩

theorem witness_RegisterMapIsOneToOne :
    regAt 0 = some .id ∧ regAt 0x07C = some (.thr 15) ∧ regAt 0x16C = some (.di 27) ∧
      regAt 0x1C4 = some .accHi := by decide

theorem witness_WindowAccessRules :
    (2 : Nat) ≠ 4 ∧ 0x012 % 4 ≠ 0 ∧ regAt 0x0C0 = none ∧ regAt 0x170 = none ∧ regAt 0x1C8 = none ∧
      regAt 0xFFC = none ∧ ready.status.busy = false := by decide

theorem witness_HostReadsWhatItWrote : ready.status.busy = false := by decide

theorem witness_FormatAndGeometryWritesInvalidate : ready.status.busy = false := by decide

theorem witness_ThresholdWriteValidates : ready.status.busy = false ∧ (0 : Fin 16) ≠ 15 := by decide

theorem witness_InterruptIsLevelSensitive : ready.status.busy = false := by decide

theorem witness_BusyWritesAreDropped :
    (inFlight 0x2).status.busy = true ∧ 0x010 % 4 = 0 ∧ 0x014 % 4 = 0 ∧ 0x018 % 4 = 0 ∧
      0xFFC % 4 = 0 := by decide

theorem witness_BusyReadsOldOrNew :
    (inFlight 0x501).Coherent ∧ (inFlight 0x501).status.busy = true ∧
      0xFFFFFFFC + widthBytes .b4 ≤ 2 ^ 32 ∧ ready.phase = .idle ∧
      ((inFlight 0x8).phase = .issued ∧ decode (inFlight 0x8).cmd ≠ .ok .run) ∧
      LegalFormat (inFlight 0x2) 1 ∧ ¬InDst 1 (inFlight 0x2) 0x1010 ∧ (widthBytes .b1 = 1 ∧ 0x100F % 1 = 0) :=
  ⟨inFlight_coherent _, rfl, by decide, by decide, by decide, ready_legal, by
    rintro ⟨y, _, x, hx, h, h'⟩
    have hd : dstAt 1 (inFlight 0x2) y x = 0x1000 + y * 32 + x * 1 := rfl
    have hx' : x < 16 := hx
    omega, by decide, by decide⟩

theorem witness_OperandsFixedWhileBusy :
    (inFlight 0x2).status.busy = true ∧ HostAct.regRead 0x014 4 ≠ .resetCore ∧
      (∃ t, serve (.regRead 0x014 4) (inFlight 0x2) = .next t) ∧
      (∃ t, serve (.memWrite 0x1000 .b4 7) (inFlight 0x2) = .next t) ∧
      0xFFFFFFFC + widthBytes .b4 ≤ 2 ^ 32 ∧ ready.phase = .idle ∧ ready.mem.wf = true ∧
      3 < widthBytes .b4 ∧ (0xFFFFFFFB < 0xFFFFFFFC ∨ 0xFFFFFFFC + widthBytes .b4 ≤ 0xFFFFFFFB) :=
  ⟨rfl, by decide, ⟨_, rfl⟩, ⟨_, rfl⟩, by decide, by decide, by decide, by decide, by decide⟩

theorem witness_InterleavingEndsAsAtOnce :
    advance 1 (inFlight 0x2) = .next (runStart (inFlight 0x2)) := rfl

theorem witness_EveryCommandCompletes :
    (inFlight 0x2).Coherent ∧ (inFlight 0x2).status.busy = true ∧ (inFlight 0x2).script = [] :=
  ⟨inFlight_coherent _, rfl, rfl⟩

theorem witness_MemoryIsLittleEndian :
    ready.mem.wf = true ∧ 4 ≤ 4 ∧ 3 < 4 ∧ (0xFF < 0x100 ∨ 0x100 + 4 ≤ 0xFF) ∧
      (0x104 < 0x100 ∨ 0x100 + 4 ≤ 0x104) := by decide

theorem witness_OnlyRunUsesThePort : Instr.diagS ≠ .run ∧ exec .diagS ready = .next (after .diagS ready) :=
  ⟨by decide, rfl⟩

theorem witness_SetqpInstallsRoundedThresholds :
    IntFormat ready 1 255 ∧ IntFormat (withFmt 1 9) 2 511 ∧ IntFormat (withFmt 1 16) 2 65535 ∧
      FltFormat readyFlt ∧ 1 ≤ 1 ∧ 63 ≤ 63 :=
  ⟨ready_int, .inr (by decide), .inr (by decide), readyFlt_flt, le_rfl, le_rfl⟩

theorem witness_ThresholdsIncreaseWithQp :
    (65535 = 255 ∨ ∃ b, 9 ≤ b ∧ b ≤ 16 ∧ 65535 = 2 ^ b - 1) ∧ 1 ≤ 62 ∧ 62 < 63 ∧ 15 < 16 :=
  ⟨.inr ⟨16, by decide⟩, by decide⟩

theorem witness_IllegalFormatRaisesBadFormat :
    ¬FmtOk (withFmt 0 0) ∧ ¬FmtOk (withFmt 1 8) ∧ ¬FmtOk (withFmt 1 17) ∧ ¬FmtOk (withFmt 2 31) ∧
      ¬FmtOk (withFmt 3 8) ∧ (withFmt 3 8).status.errCode = .none := by
  unfold FmtOk; decide

theorem witness_NoTableRaisesNoThr :
    (withFmt 0 8).status.thrValid = false ∧ FmtOk (withFmt 0 8) ∧
      LegalFormat { ready with status := State.reset.status } 1 ∧
      GeometryOk 1 { ready with status := State.reset.status } ∧
      CapacityOk 1 { ready with status := State.reset.status } :=
  ⟨by decide, by unfold FmtOk; decide, ready_legal, ready_geometry, ready_capacity⟩

theorem witness_DiagIntegerResults : IntFormat ready 1 255 ∧ ready.status.thrValid = true :=
  ⟨ready_int, rfl⟩

theorem witness_DiagFloatResults : FltFormat readyFlt ∧ readyFlt.status.thrValid = true :=
  ⟨readyFlt_flt, rfl⟩

/-- `ready` with a valid buffer and the coordinates of an `XREAD`. -/
def extended16 (r c : Int) : State :=
  { ready with status := { ready.status with extValid := true }, di := diOf [r, c] }

theorem witness_XreadReadsElement :
    (extended16 31 31).status.extValid = true ∧
      ((extended16 31 31).di[0]).toNat < (extended16 31 31).height.toNat + 16 ∧
      ((extended16 31 31).di[1]).toNat < (extended16 31 31).width.toNat + 16 := by decide

theorem witness_XreadRaisesItsErrors :
    ready.status.extValid = false ∧
      (extended16 32 0).height.toNat + 16 ≤ ((extended16 32 0).di[0]).toNat ∧
      (extended16 0 (-1)).width.toNat + 16 ≤ ((extended16 0 (-1)).di[1]).toNat := by decide

theorem witness_UnsignedTestsAreMagnitudeTests :
    (-2 ^ 31 : Int) ≤ -2 ^ 31 ∧ (2 : Int) ^ 31 - 1 < 2 ^ 31 ∧ 2 ^ 30 - 1 < 2 ^ 30 ∧
      (|-79| : Int) ≤ 79 ∧ (79 : Int) < |-80| ∧ (|-80| : Int) ≤ 2 * 79 ∧ (|158| : Int) = 2 * 79 ∧
      (2 * 79 : Int) < |159| := by norm_num

theorem witness_FloatClassifiedByTruncation :
    FiniteFlt 0xC1C73333 ∧ |truncInt 0xC1C73333| < 2 ^ 31 ∧ (24 : Nat) < 2 ^ 30 := by
  unfold FiniteFlt; decide

theorem witness_FirstThresholdIsNeverUsed :
    exec .diagS ready = .next (after .diagS ready) ∧ exec .run ready = .next (after .run ready) :=
  ⟨rfl, rfl⟩

theorem witness_FloatSumRoundsOnce : FiniteFlt 0x7F7FFFFF ∧ FiniteFlt 0x00000001 ∧ FiniteFlt 0x80000000 := by
  unfold FiniteFlt; decide

theorem witness_FloatProductRoundsOnce : FiniteFlt 0x7F7FFFFF ∧ FiniteFlt 0x80000001 := by
  unfold FiniteFlt; decide

theorem witness_FloatSpecialOperands :
    isNaN 0x7FC00000 = true ∧ isInf 0x7F800000 = true ∧ isInf 0xFF800000 = true ∧
      fSign 0x7F800000 ≠ fSign 0xFF800000 ∧ valUnits 0x80000000 = 0 ∧ FiniteFlt 0x80000000 ∧
      isNaN 0x00000001 = false ∧ valUnits 0x00000001 ≠ 0 ∧
      valUnits 0x3F800000 + valUnits 0xBF800000 = 0 ∧ valUnits 0x3F800000 - valUnits 0x3F800000 = 0 ∧
      FiniteFlt 0x3F800000 := by
  unfold FiniteFlt; decide

theorem witness_ConversionAndRescaleAreExact :
    2 ^ 24 - 1 < 2 ^ 24 ∧ FiniteFlt 0x09800000 ∧ (2 : Int) ^ 41 ≤ |valUnits 0x09800000| ∧
      FiniteFlt 0x7F7FFFFF := by
  unfold FiniteFlt; decide

/-- A Stage-A store row after the work of column `x`, from any store. -/
def rowStore (flt : Bool) (p y : Nat) (e : List Word) (c0 : List (Quad Coef)) : Nat → List (Quad Coef)
  | 0 => stageASchedule 0 flt p e y 0 c0
  | x + 1 => stageASchedule (x + 1) flt p e y (x + 1) (rowStore flt p y e c0 x)

theorem witness_SlidingWindowIsDirect (flt : Bool) (e : List Word) (c0 : List (Quad Coef)) :
    rowStore flt 32 0 e c0 0 = stageASchedule 0 flt 32 e 0 0 c0 ∧
      (∀ x, x + 1 < 16 →
        rowStore flt 32 0 e c0 (x + 1) =
          stageASchedule (x + 1) flt 32 e 0 (x + 1) (rowStore flt 32 0 e c0 x)) ∧ 15 < 16 ∧ 6 < 7 :=
  ⟨rfl, fun _ _ => rfl, by decide, by decide⟩

theorem witness_BlockIsBoundedDoubleSum : ∀ r c, (extAt 32 [255, 3] r c).toNat ≤ 255 := by
  intro r c
  unfold extAt
  generalize r * 32 + c = k
  match k with
  | 0 => decide
  | 1 => decide
  | _ + 2 => simp

theorem witness_FlatWindowComesBack :
    (∃ b, 9 ≤ b ∧ b ≤ 16 ∧ SampleFormat.u16 16 = .u16 b) ∧ 65535 ≤ peakOf (.u16 16) ∧
      defaultFactorRom[0] = 4096 := ⟨⟨16, by decide⟩, by decide, by decide⟩

theorem witness_RunChecksInOrder :
    ¬FmtOk (withFmt 0 0) ∧ LegalFormat { ready with width := 8 } 1 ∧
      ¬GeometryOk 1 { ready with width := 8 } ∧
      GeometryOk 1 { ready with params := { ready.params with scratchBytes := 1280 - 1 } } ∧
      ¬CapacityOk 1 { ready with params := { ready.params with scratchBytes := 1280 - 1 } } ∧
      CapacityOk 1 { ready with params := { ready.params with scratchBytes := 1280 } } :=
  ⟨by unfold FmtOk; decide, ready_legal, fun h => absurd h.2.1 (by decide), ready_geometry,
    by unfold CapacityOk; decide, by unfold CapacityOk; decide⟩

/-- `ready` with two host writes recorded: one of exactly sample `(0, 0)`, one of two samples. -/
def raced : State := { ready with races := [⟨0x100, 1, 7⟩, ⟨0x102, 2, 9⟩] }

theorem witness_RunBuildsMirroredBuffer :
    RunReady 1 ready ∧ ReadsAnswered 1 ready ∧ ready.races = [] ∧ RunReady 1 raced ∧
      ReadsAnswered 1 raced ∧ Meets 1 raced 0 0 ⟨0x100, 1, 7⟩ ∧ Meets 1 raced 0 3 ⟨0x102, 2, 9⟩ ∧
      ∀ r ∈ raced.races, ¬Meets 1 raced 0 1 r ∧ ¬Meets 1 raced 0 4 r :=
  ⟨ready_run, ready_reads, by decide, ⟨ready_legal, ready_geometry, ready_capacity, rfl⟩,
    fun _ _ _ _ => rfl, by unfold Meets; decide, by unfold Meets; decide, by unfold Meets; decide⟩

theorem witness_RunCompletesWithItsFrame :
    RunReady 1 ready ∧ ReadsAnswered 1 ready ∧ WritesAnswered 1 ready ∧ ¬InDst 1 ready 0xFFF ∧
      RunReady 4 readyFlt :=
  ⟨ready_run, ready_reads, ready_writes, by
    rintro ⟨y, _, x, _, h, _⟩
    have hd : dstAt 1 ready y x = 0x1000 + y * 32 + x * 1 := rfl
    omega, readyFlt_run⟩

theorem witness_RunFiltersIntegerPlane :
    RunReady 1 ready ∧ IntFormat ready 1 255 ∧ ready.mem.wf = true ∧ ReadsAnswered 1 ready ∧
      WritesAnswered 1 ready ∧ exec .run ready = .next (after .run ready) :=
  ⟨ready_run, ready_int, by decide, ready_reads, ready_writes, rfl⟩

theorem witness_RunFiltersFloatPlane :
    RunReady 4 readyFlt ∧ FltFormat readyFlt ∧ readyFlt.mem.wf = true ∧ ReadsAnswered 4 readyFlt ∧
      WritesAnswered 4 readyFlt ∧ exec .run readyFlt = .next (after .run readyFlt) :=
  ⟨readyFlt_run, readyFlt_flt, by decide, fun _ _ _ _ => rfl, fun _ _ _ _ => rfl, rfl⟩

theorem witness_RunAccessOrder :
    RunReady 1 ready ∧ ReadsAnswered 1 ready ∧ WritesAnswered 1 ready ∧
      exec .run ready = .next (after .run ready) := ⟨ready_run, ready_reads, ready_writes, rfl⟩

/-- `ready` on a platform whose bus gives an error at one address. -/
def faulting (a : Nat) : State :=
  { ready with params := { ready.params with busFault := [⟨a, a, true, true⟩] } }

theorem faulting_run (a : Nat) : RunReady 1 (faulting a) :=
  ⟨ready_legal, ready_geometry, ready_capacity, rfl⟩

theorem faulting_elsewhere {a b : Nat} (w : Bool) (h : b ≠ a) :
    busFaultAt (faulting a).params b w = false := by
  simp only [busFaultAt, faulting, List.any_cons, List.any_nil, Bool.or_false]
  cases w <;> simp <;> omega

/-- The first sample. -/
theorem witness_RunStopsAtFailedRead_first :
    RunReady 1 (faulting 0x100) ∧ busFaultAt (faulting 0x100).params (srcAt 1 (faulting 0x100) 0 0) false ∧
      ∀ y' < 16, ∀ x' < 16, Before y' x' 0 0 →
        busFaultAt (faulting 0x100).params (srcAt 1 (faulting 0x100) y' x') false = false :=
  ⟨faulting_run _, by decide, fun y' _ x' _ h => by unfold Before at h; omega⟩

/-- The last sample. -/
theorem witness_RunStopsAtFailedRead_last :
    RunReady 1 (faulting 0x1FF) ∧
      busFaultAt (faulting 0x1FF).params (srcAt 1 (faulting 0x1FF) 15 15) false ∧
      ∀ y' < 16, ∀ x' < 16, Before y' x' 15 15 →
        busFaultAt (faulting 0x1FF).params (srcAt 1 (faulting 0x1FF) y' x') false = false := by
  refine ⟨faulting_run _, by decide, fun y' hy x' hx h => faulting_elsewhere _ ?_⟩
  have hs : srcAt 1 (faulting 0x1FF) y' x' = 0x100 + y' * 16 + x' * 1 := rfl
  unfold Before at h
  omega

theorem witness_RunStopsAtFailedWrite :
    RunReady 1 (faulting 0x11EF) ∧ ReadsAnswered 1 (faulting 0x11EF) ∧
      busFaultAt (faulting 0x11EF).params (dstAt 1 (faulting 0x11EF) 15 15) true ∧
      ∀ y' < 16, ∀ x' < 16, Before y' x' 15 15 →
        busFaultAt (faulting 0x11EF).params (dstAt 1 (faulting 0x11EF) y' x') true = false := by
  refine ⟨faulting_run _, fun y hy x hx => faulting_elsewhere _ ?_, by decide,
    fun y' hy x' hx h => faulting_elsewhere _ ?_⟩
  · have hs : srcAt 1 (faulting 0x11EF) y x = 0x100 + y * 16 + x * 1 := rfl
    have hy' : y < 16 := hy
    have hx' : x < 16 := hx
    omega
  · have hs : dstAt 1 (faulting 0x11EF) y' x' = 0x1000 + y' * 32 + x' * 1 := rfl
    unfold Before at h
    omega

theorem witness_RunIgnoresOldScratchAndDiagnostics :
    RunReady 1 ready ∧ exec .run ready = .next (after .run ready) ∧
      exec .run { ready with ext := [1], di := diOf [3], row := 7 } =
        .next (after .run { ready with ext := [1], di := diOf [3], row := 7 }) :=
  ⟨ready_run, rfl, rfl⟩

end Sys2Proof.Tests
end

section
/-! SUPPORT. No part of a step changes a parameter (R10, R22, R38). -/

namespace Sys2Proof.Machine

/-! ### The parameters of a step -/

/-- No register write that is performed changes a parameter: `FACTOR` and the `PARAM_*` registers are
read-only (R22, R38). -/
@[simp] theorem writeReg_params (r : Reg) (w : Word) (s : State) :
    (writeReg r w s).params = s.params := by
  cases r <;> rfl

/-- No register write during a command changes a parameter (R262). -/
@[simp] theorem writeRegBusy_params (r : Option Reg) (w : Word) (s : State) :
    (writeRegBusy r w s).params = s.params := by
  unfold writeRegBusy
  split <;> rfl

/-- No command changes a parameter. -/
theorem exec_params {i : Instr} {s t : State} (h : exec i s = .next t) : t.params = s.params := by
  by_cases hi : i = .run
  · subst hi
    obtain rfl : runToEnd (runStart s) = t := by injection h
    exact (runToEnd_frame s).params
  · rcases exec_cases i s hi with ⟨c, -, -, he⟩ | ⟨_, _, _, _, _, _, _, he, -⟩
    · rw [he] at h; cases h; rfl
    · rw [he] at h; cases h; rfl

/-- No stimulus changes a parameter, the reset input included (R10, R250). -/
theorem serve_params {a : HostAct} {s t : State} (h : serve a s = .next t) : t.params = s.params := by
  cases a with
  | regWrite addr width data =>
    obtain rfl : serveRegWrite addr width data s = t := by injection h
    rcases serveRegWrite_cases addr width data s with
      h | h | ⟨-, r, h⟩ | ⟨-, h⟩ | ⟨-, r, h⟩ <;> simp [h]
  | regRead addr width =>
    obtain rfl : serveRegRead addr width s = t := by injection h
    obtain ⟨a, n, h⟩ := serveRegRead_frame addr width s
    rw [h]
  | memWrite addr width data =>
    rcases serveMemWrite_cases addr width data s with hw | ⟨-, _, hw⟩
    · cases hw.symm.trans h
    · cases hw.symm.trans h; rfl
  | memRead addr width =>
    rcases serveMemRead_cases addr width s with hr | ⟨_, _, hr⟩
    · cases hr.symm.trans h
    · cases hr.symm.trans h; rfl
  | resetCore => cases h; rfl

end Sys2Proof.Machine
end

section
open Sys2Proof Sys2Proof.Machine

/-- Settles O10: "the parameters are those of `s`" is an invariant of every part of a step. -/
theorem everyStepKeepsParameters : Obligations.EveryStepKeepsParameters := by
  intro s t h
  refine step_preserves (P := fun u => u.params = s.params) ?_ ?_ ?_ ?_ ?_ ?_ rfl h
  · exact fun i u v hu _ he => (exec_params he).trans hu
  · exact fun u hu _ => hu
  · exact fun u hu _ => (runStart_frame u).params.trans hu
  · exact fun u hu => (runTick_frame u).params.trans hu
  · exact fun a u v hu he => (serve_params he).trans hu
  · exact fun u r hu => hu

end

section
/-! SUPPORT. Binary32: the fields of a pattern, the magnitudes a pattern can hold, and why rounding a
magnitude once gives the nearest of them (00_scope R14).  Every operation is then an exact integer that
goes through `roundTo`. -/

namespace Sys2Proof.Machine

open Sys2Proof.Claims

/-! ### The fields of a pattern -/

/-- The exponent field of a pattern read as a number. -/
theorem fExp_eq (w : Word) : fExp w = w.toNat / 2 ^ 23 % 2 ^ 8 := by
  rw [fExp, BitVec.extractLsb'_toNat, Nat.shiftRight_eq_div_pow]

/-- The fraction field of a pattern read as a number. -/
theorem fFrac_eq (w : Word) : fFrac w = w.toNat % 2 ^ 23 := by
  rw [fFrac, BitVec.extractLsb'_toNat, Nat.shiftRight_zero]

/-- The sign of a pattern is its top bit. -/
theorem fSign_iff (w : Word) : fSign w = true ↔ 2 ^ 31 ≤ w.toNat := by
  have hw := w.isLt
  rw [fSign, BitVec.getLsbD, Nat.testBit_eq_decide_div_mod_eq, decide_eq_true_eq]
  omega

/-- Sign, exponent and fraction are the whole of a pattern. -/
theorem pattern_ext {a b : Word} (hs : fSign a = fSign b) (he : fExp a = fExp b)
    (hf : fFrac a = fFrac b) : a = b := by
  have ha := a.isLt
  have hb := b.isLt
  rw [fExp_eq, fExp_eq] at he
  rw [fFrac_eq, fFrac_eq] at hf
  rw [Bool.eq_iff_iff, fSign_iff, fSign_iff] at hs
  exact BitVec.eq_of_toNat_eq (by omega)

/-- The classes of a pattern by its fields. -/
theorem isInf_iff (w : Word) : isInf w = true ↔ fExp w = 255 ∧ fFrac w = 0 := by simp [isInf]

theorem isNaN_iff (w : Word) : isNaN w = true ↔ fExp w = 255 ∧ fFrac w ≠ 0 := by simp [isNaN]

/-- An infinity is no NaN. -/
theorem isNaN_of_isInf {w : Word} (h : isInf w = true) : isNaN w = false := by
  obtain ⟨-, hf⟩ := (isInf_iff w).1 h
  simp [isNaN, hf]

/-- Only a zero has no magnitude: its exponent and fraction are zero. -/
theorem magUnits_eq_zero_iff (w : Word) : magUnits w = 0 ↔ fExp w = 0 ∧ fFrac w = 0 := by
  unfold magUnits
  split_ifs with h <;> simp [h]

/-- `magUnits` of an infinity is not zero, so `fmul` does not take it for one. -/
theorem magUnits_ne_zero_of_isInf {w : Word} (h : isInf w = true) : magUnits w ≠ 0 := by
  obtain ⟨he, -⟩ := (isInf_iff w).1 h
  simp [magUnits_eq_zero_iff, he]

/-- The value of a pattern has its magnitude. -/
theorem natAbs_valUnits (w : Word) : (valUnits w).natAbs = magUnits w := by
  unfold valUnits
  split_ifs <;> simp

theorem valUnits_eq_zero_iff (w : Word) : valUnits w = 0 ↔ magUnits w = 0 := by
  rw [← natAbs_valUnits, Int.natAbs_eq_zero]

/-! ### The other sign -/

/-- Turning the sign bit leaves the other bits. -/
theorem extractLsb'_fNeg (w : Word) {start len : Nat} (h : start + len ≤ 31) :
    (fNeg w).extractLsb' start len = w.extractLsb' start len := by
  ext i hi
  have hbit : (0x80000000#32).getLsbD (start + i) = false := by
    rw [show 0x80000000#32 = BitVec.twoPow 32 31 from rfl, BitVec.getLsbD_twoPow]
    simp; omega
  simp [fNeg, hbit]

@[simp] theorem fExp_fNeg (w : Word) : fExp (fNeg w) = fExp w := by
  rw [fExp, extractLsb'_fNeg w (by omega), fExp]

@[simp] theorem fFrac_fNeg (w : Word) : fFrac (fNeg w) = fFrac w := by
  rw [fFrac, extractLsb'_fNeg w (by omega), fFrac]

@[simp] theorem fSign_fNeg (w : Word) : fSign (fNeg w) = !fSign w := by
  simp [fSign, fNeg]

@[simp] theorem isNaN_fNeg (w : Word) : isNaN (fNeg w) = isNaN w := by simp [isNaN]

@[simp] theorem isInf_fNeg (w : Word) : isInf (fNeg w) = isInf w := by simp [isInf]

@[simp] theorem magUnits_fNeg (w : Word) : magUnits (fNeg w) = magUnits w := by simp [magUnits]

@[simp] theorem valUnits_fNeg (w : Word) : valUnits (fNeg w) = -valUnits w := by
  unfold valUnits
  cases h : fSign w <;> simp [h]

theorem finiteFlt_fNeg {w : Word} (h : FiniteFlt w) : FiniteFlt (fNeg w) := by
  obtain ⟨hn, hi⟩ := h
  exact ⟨by rwa [isNaN_fNeg], by rwa [isInf_fNeg]⟩

/-! ### The pattern of a sign and magnitude bits -/

theorem toNat_withSign (neg : Bool) {p : Nat} (hp : p < 2 ^ 31) :
    (withSign neg p).toNat = neg.toNat * 2 ^ 31 + p := by
  cases neg
  · simp [withSign]; omega
  · simp [withSign]; omega

theorem fSign_withSign (neg : Bool) {p : Nat} (hp : p < 2 ^ 31) : fSign (withSign neg p) = neg := by
  rw [Bool.eq_iff_iff, fSign_iff, toNat_withSign neg hp]
  cases neg
  · simp; omega
  · simp

theorem fExp_withSign (neg : Bool) {p : Nat} (hp : p < 2 ^ 31) :
    fExp (withSign neg p) = p / 2 ^ 23 := by
  rw [fExp_eq, toNat_withSign neg hp]
  omega

theorem fFrac_withSign (neg : Bool) {p : Nat} (hp : p < 2 ^ 31) :
    fFrac (withSign neg p) = p % 2 ^ 23 := by
  rw [fFrac_eq, toNat_withSign neg hp]
  omega

theorem isNaN_withSign (neg : Bool) {p : Nat} (hp : p ≤ 0x7F800000) :
    isNaN (withSign neg p) = false := by
  rw [Bool.eq_false_iff, Ne, isNaN_iff, fExp_withSign neg (by omega), fFrac_withSign neg (by omega)]
  omega

theorem isInf_withSign (neg : Bool) {p : Nat} (hp : p ≤ 0x7F800000) :
    isInf (withSign neg p) = true ↔ p = 0x7F800000 := by
  rw [isInf_iff, fExp_withSign neg (by omega), fFrac_withSign neg (by omega)]
  omega

/-- A significand `q` at the last place `2^(g-149)` is the magnitude `q * 2^g`, a carry to `2^24`
included: this is how `roundMag` lays out its bits. -/
theorem magUnits_withSign (neg : Bool) {g q : Nat} (hq : q ≤ 2 ^ 24) (hg : g = 0 ∨ 2 ^ 23 ≤ q)
    (hp : g * 2 ^ 23 + q < 2 ^ 31) : magUnits (withSign neg (g * 2 ^ 23 + q)) = q * 2 ^ g := by
  rw [magUnits, fExp_withSign neg hp, fFrac_withSign neg hp]
  rcases lt_or_ge q (2 ^ 23) with hlt | hge
  · obtain rfl : g = 0 := by omega
    rw [if_pos (by omega)]; omega
  rw [if_neg (by omega)]
  rcases hq.lt_or_eq with hlt | rfl
  · rw [show (g * 2 ^ 23 + q) / 2 ^ 23 - 1 = g by omega,
      show 2 ^ 23 + (g * 2 ^ 23 + q) % 2 ^ 23 = q by omega]
  · rw [show (g * 2 ^ 23 + 2 ^ 24) / 2 ^ 23 - 1 = g + 1 by omega,
      show 2 ^ 23 + (g * 2 ^ 23 + 2 ^ 24) % 2 ^ 23 = 2 ^ 23 by omega]
    ring

/-! ### The magnitudes that a pattern can hold -/

/-- A magnitude whose significant bits fit 24 places: from `2^(23+g)` on it is a multiple of `2^g`.  In
units of `2^-149` these are the magnitudes of binary32, the bound of the exponent aside. -/
def FitsSignificand (c : Nat) : Prop := ∀ g : Nat, 2 ^ (23 + g) ≤ c → 2 ^ g ∣ c

theorem fitsSignificand_magUnits (w : Word) : FitsSignificand (magUnits w) := by
  intro g hg
  have hfrac : fFrac w < 2 ^ 23 := by rw [fFrac_eq]; exact Nat.mod_lt _ (by norm_num)
  unfold magUnits at *
  split_ifs at * with he
  · rw [Nat.pow_add] at hg
    have := Nat.le_mul_of_pos_right (2 ^ 23) (Nat.two_pow_pos g)
    exact absurd (this.trans hg) (Nat.not_le.2 hfrac)
  · refine Dvd.dvd.mul_left (Nat.pow_dvd_pow 2 ?_) _
    have hlt : (2 ^ 23 + fFrac w) * 2 ^ (fExp w - 1) < 2 ^ (24 + (fExp w - 1)) := by
      rw [Nat.pow_add]
      exact Nat.mul_lt_mul_of_pos_right (by omega) (Nat.two_pow_pos _)
    have := (Nat.pow_lt_pow_iff_right (by norm_num)).1 (hg.trans_lt hlt)
    omega

/-! ### The rounding of a shift -/

/-- `roundShift` is off by at most half a place, and by half a place only at an even result. -/
theorem roundShift_bounds (m d : Nat) :
    2 * (roundShift m d * 2 ^ d) ≤ 2 * m + 2 ^ d ∧ 2 * m ≤ 2 * (roundShift m d * 2 ^ d) + 2 ^ d ∧
      (2 * (roundShift m d * 2 ^ d) = 2 * m + 2 ^ d ∨ 2 * m = 2 * (roundShift m d * 2 ^ d) + 2 ^ d →
        roundShift m d % 2 = 0) := by
  have hm : m / 2 ^ d * 2 ^ d + m % 2 ^ d = m := Nat.div_add_mod' m _
  have hr : m % 2 ^ d < 2 ^ d := Nat.mod_lt _ (Nat.two_pow_pos d)
  unfold roundShift
  split_ifs with h
  · rw [Nat.add_mul, Nat.one_mul]; omega
  · omega

/-- What lies at or above a multiple of the place does not round below it. -/
theorem le_roundShift {n m d : Nat} (h : n * 2 ^ d ≤ m) : n ≤ roundShift m d := by
  obtain ⟨-, hhi, -⟩ := roundShift_bounds m d
  have hd := Nat.two_pow_pos d
  by_contra hlt
  have := Nat.mul_le_mul_right (2 ^ d) (show roundShift m d + 1 ≤ n by omega)
  rw [Nat.add_mul, Nat.one_mul] at this
  omega

/-- What lies at or below a multiple of the place does not round above it. -/
theorem roundShift_le {n m d : Nat} (h : m ≤ n * 2 ^ d) : roundShift m d ≤ n := by
  obtain ⟨hlo, -, -⟩ := roundShift_bounds m d
  have hd := Nat.two_pow_pos d
  by_contra hlt
  have := Nat.mul_le_mul_right (2 ^ d) (show n + 1 ≤ roundShift m d by omega)
  rw [Nat.add_mul, Nat.one_mul] at this
  omega

/-- A value rounds above an odd `n` from half a place below the even `n + 1` on: the tie goes up. -/
theorem lt_roundShift_iff {n : Nat} (hn : n % 2 = 1) (m d : Nat) :
    n < roundShift m d ↔ (2 * n + 1) * 2 ^ d ≤ 2 * m := by
  obtain ⟨hlo, hhi, heven⟩ := roundShift_bounds m d
  have hd := Nat.two_pow_pos d
  rw [Nat.add_mul, Nat.one_mul, Nat.mul_assoc]
  constructor
  · intro h
    have := Nat.mul_le_mul_right (2 ^ d) (show n + 1 ≤ roundShift m d by omega)
    rw [Nat.add_mul, Nat.one_mul] at this
    omega
  · intro h
    by_contra hle
    rcases (show roundShift m d + 1 ≤ n ∨ roundShift m d = n by omega) with hq | hq
    · have := Nat.mul_le_mul_right (2 ^ d) hq
      rw [Nat.add_mul, Nat.one_mul] at this
      omega
    · rw [hq] at hhi heven
      omega

/-- No multiple of the place `D` is nearer to `m` than one that is off by at most half of it, and one as
near is that multiple or both are off by half. -/
theorem nearest_multiple {D q m : Int} (hD : 0 < D) (h : 2 * |q * D - m| ≤ D) (j : Int) :
    |q * D - m| ≤ |j * D - m| ∧
      (|q * D - m| = |j * D - m| → j = q ∨ 2 * |q * D - m| = D) := by
  by_cases hj : j = q
  · exact ⟨by rw [hj], fun _ => .inl hj⟩
  have hfar : D ≤ |q * D - m| + |j * D - m| := by
    calc D ≤ |q - j| * D := le_mul_of_one_le_left hD.le (Int.one_le_abs (by omega))
      _ = |(q * D - m) - (j * D - m)| := by rw [← abs_of_pos hD, ← abs_mul, abs_of_pos hD]; ring_nf
      _ ≤ |q * D - m| + |j * D - m| := abs_sub _ _
  exact ⟨by omega, fun _ => .inr (by omega)⟩

/-- `roundShift m d` is the multiple of `2^d` nearest to `m`, the even one of two. -/
theorem roundShift_nearest (m d : Nat) (j : Int) :
    |(roundShift m d : Int) * 2 ^ d - m| ≤ |j * 2 ^ d - m| ∧
      (|(roundShift m d : Int) * 2 ^ d - m| = |j * 2 ^ d - m| →
        j = roundShift m d ∨ roundShift m d % 2 = 0) := by
  obtain ⟨hlo, hhi, heven⟩ := roundShift_bounds m d
  zify at hlo hhi heven
  have hhalf : 2 * |(roundShift m d : Int) * 2 ^ d - m| ≤ 2 ^ d := by
    rcases abs_cases ((roundShift m d : Int) * 2 ^ d - m) with ⟨h, -⟩ | ⟨h, -⟩ <;> omega
  obtain ⟨hle, heq⟩ := nearest_multiple (by positivity) hhalf j
  refine ⟨hle, fun h => (heq h).imp_right fun htie => ?_⟩
  have := heven (by
    rcases abs_cases ((roundShift m d : Int) * 2 ^ d - m) with ⟨h, -⟩ | ⟨h, -⟩ <;> omega)
  omega

/-! ### The rounding of a magnitude -/

/-- Nothing finer than the last unit is kept. -/
theorem le_dropBits (m k : Nat) : k ≤ dropBits m k := le_max_left _ _

/-- The bits kept are at most 24. -/
theorem lt_two_pow_dropBits (m k : Nat) : m < 2 ^ (24 + dropBits m k) := by
  refine Nat.lt_log2_self.trans_le (Nat.pow_le_pow_right (by norm_num) ?_)
  unfold dropBits
  omega

/-- Above the last unit the bits kept are 24. -/
theorem two_pow_dropBits_le {m k : Nat} (h : k < dropBits m k) : 2 ^ (23 + dropBits m k) ≤ m := by
  unfold dropBits at *
  have hd : max k (m.log2 + 1 - 24) = m.log2 + 1 - 24 := max_eq_right (by omega)
  rw [hd, show 23 + (m.log2 + 1 - 24) = m.log2 by omega]
  refine Nat.log2_self_le ?_
  rintro rfl
  simp at h

/-- The significand of `m` units of `2^-(149+k)`, rounded. -/
def significand (m k : Nat) : Nat := roundShift m (dropBits m k)

theorem significand_le (m k : Nat) : significand m k ≤ 2 ^ 24 := by
  refine roundShift_le ?_
  rw [← Nat.pow_add]
  exact (lt_two_pow_dropBits m k).le

theorem le_significand {m k : Nat} (h : k < dropBits m k) : 2 ^ 23 ≤ significand m k := by
  refine le_roundShift ?_
  rw [← Nat.pow_add]
  exact two_pow_dropBits_le h

/-- The layout of the magnitude bits, by the significand. -/
theorem roundMag_eq (m k : Nat) :
    roundMag m k = min ((dropBits m k - k) * 2 ^ 23 + significand m k) 0x7F800000 := rfl

theorem roundMag_le (m k : Nat) : roundMag m k ≤ 0x7F800000 := min_le_right _ _

/-- The rounded magnitude is an infinity exactly from half a place beyond the largest finite one on. -/
theorem roundMag_eq_inf_iff (m k : Nat) :
    roundMag m k = 0x7F800000 ↔ (2 ^ 25 - 1) * 2 ^ 252 * 2 ^ k ≤ m := by
  have hk := le_dropBits m k
  have hlt := lt_two_pow_dropBits m k
  have hsig := significand_le m k
  rw [roundMag_eq, min_eq_right_iff]
  rcases lt_trichotomy (dropBits m k) (253 + k) with hd | hd | hd
  · have : 2 ^ (24 + dropBits m k) ≤ (2 ^ 25 - 1) * 2 ^ 252 * 2 ^ k := by
      calc 2 ^ (24 + dropBits m k) ≤ 2 ^ (24 + 252 + k) :=
            Nat.pow_le_pow_right (by norm_num) (by omega)
        _ = 2 ^ 24 * 2 ^ 252 * 2 ^ k := by
            rw [Nat.pow_add 2 (24 + 252) k, Nat.pow_add 2 24 252]
        _ ≤ (2 ^ 25 - 1) * 2 ^ 252 * 2 ^ k := by gcongr; norm_num
    constructor <;> intro h <;> omega
  · have hround := lt_roundShift_iff (n := 2 ^ 24 - 1) (by norm_num) m (dropBits m k)
    rw [← significand, hd, Nat.pow_add] at hround
    constructor <;> intro h
    · have := hround.1 (by omega)
      omega
    · have := hround.2 (by omega)
      omega
  · have hle := le_significand (m := m) (k := k) (by omega)
    have : (2 ^ 25 - 1) * 2 ^ 252 * 2 ^ k ≤ m := by
      calc (2 ^ 25 - 1) * 2 ^ 252 * 2 ^ k ≤ 2 ^ 25 * 2 ^ 252 * 2 ^ k := by gcongr; norm_num
        _ = 2 ^ (25 + 252 + k) := by
            rw [Nat.pow_add 2 (25 + 252) k, Nat.pow_add 2 25 252]
        _ ≤ 2 ^ (23 + dropBits m k) := Nat.pow_le_pow_right (by norm_num) (by omega)
        _ ≤ m := two_pow_dropBits_le (by omega)
    exact ⟨fun _ => this, fun _ => by omega⟩

/-- No value that fits a significand is nearer to `m` than the rounded one, and one as near is the
rounded value itself or the rounded significand is even. -/
theorem significand_nearest (m k : Nat) {c : Int} (hc : FitsSignificand c.natAbs) :
    |(significand m k : Int) * 2 ^ dropBits m k - m| ≤ |c * 2 ^ k - m| ∧
      (|(significand m k : Int) * 2 ^ dropBits m k - m| = |c * 2 ^ k - m| →
        c * 2 ^ k = significand m k * 2 ^ dropBits m k ∨ significand m k % 2 = 0) := by
  obtain ⟨g, hg⟩ := Nat.exists_eq_add_of_le (le_dropBits m k)
  have hplace : ∀ j : Int, j * 2 ^ g * 2 ^ k = j * 2 ^ dropBits m k := fun j => by
    rw [hg, pow_add]; ring
  by_cases hdvd : (2 : Int) ^ g ∣ c
  · obtain ⟨j, rfl⟩ := hdvd
    rw [mul_comm (2 ^ g) j, hplace]
    obtain ⟨hle, heq⟩ := roundShift_nearest m (dropBits m k) j
    exact ⟨hle, fun h => (heq h).imp_left fun hj => by rw [hj, significand]⟩
  -- `c` has bits below the last place, so it lies under the least significand, and `m` does not.
  · have hpos : k < dropBits m k := by
      rcases g with - | g
      · simp at hdvd
      · omega
    have hm : (2 : Int) ^ 23 * 2 ^ dropBits m k ≤ m := by
      have := two_pow_dropBits_le hpos
      rw [Nat.pow_add] at this
      exact_mod_cast this
    have hlt : c * 2 ^ k < 2 ^ 23 * 2 ^ dropBits m k := by
      rw [← hplace]
      refine mul_lt_mul_of_pos_right ?_ (by positivity)
      by_contra hge
      have hbig : (2 : Int) ^ (23 + g) ≤ c := by rw [pow_add]; omega
      have := hc g (by zify; exact hbig.trans (le_abs_self c))
      exact hdvd (by exact_mod_cast Int.natCast_dvd.2 this)
    have hstrict : |(significand m k : Int) * 2 ^ dropBits m k - m| < |c * 2 ^ k - m| := by
      refine (roundShift_nearest m (dropBits m k) (2 ^ 23)).1.trans_lt ?_
      rw [abs_of_nonpos (by omega), abs_of_neg (by omega)]
      omega
    exact ⟨hstrict.le, fun h => absurd h hstrict.ne⟩

/-! ### The rounded pattern -/

/-- The factor of a sign bit. -/
def signFactor (neg : Bool) : Int := if neg then -1 else 1

theorem valUnits_eq (w : Word) : valUnits w = signFactor (fSign w) * magUnits w := by
  unfold valUnits signFactor
  split_ifs <;> simp

@[simp] theorem natAbs_signFactor_mul (neg : Bool) (x : Int) :
    (signFactor neg * x).natAbs = x.natAbs := by
  cases neg <;> simp [signFactor]

@[simp] theorem signFactor_mul_cancel (neg : Bool) (x : Int) :
    signFactor neg * (signFactor neg * x) = x := by
  cases neg <;> simp [signFactor]

/-- Turning the sign of both keeps a distance. -/
theorem abs_sub_of_sign {neg : Bool} {z : Int} (hz : z = signFactor neg * z.natAbs) (x : Int) :
    |x - z| = |signFactor neg * x - z.natAbs| := by
  calc |x - z| = |signFactor neg * (signFactor neg * x - z.natAbs)| := by
        rw [mul_sub, signFactor_mul_cancel, ← hz]
    _ = |signFactor neg * x - z.natAbs| := by
        rw [Int.abs_eq_natAbs, natAbs_signFactor_mul, Int.abs_eq_natAbs]

/-- A number that is not zero has one sign. -/
theorem neg_iff_of_sign {neg : Bool} {z : Int} (hz : z = signFactor neg * z.natAbs) (h0 : z ≠ 0) :
    neg = true ↔ z < 0 := by
  unfold signFactor at hz
  split_ifs at hz with h <;> simp only [h, true_iff, Bool.false_eq_true, false_iff] <;> omega

theorem fSign_roundTo (neg : Bool) (m k : Nat) : fSign (roundTo neg m k) = neg :=
  fSign_withSign neg (by have := roundMag_le m k; omega)

theorem isNaN_roundTo (neg : Bool) (m k : Nat) : isNaN (roundTo neg m k) = false :=
  isNaN_withSign neg (roundMag_le m k)

/-- Rounding makes an infinity exactly from half a place beyond the largest finite value on. -/
theorem isInf_roundTo (neg : Bool) (m k : Nat) :
    isInf (roundTo neg m k) = true ↔ (2 ^ 25 - 1) * 2 ^ 252 * 2 ^ k ≤ m := by
  rw [roundTo, isInf_withSign neg (roundMag_le m k), roundMag_eq_inf_iff]

section Finite
variable {neg : Bool} {m k : Nat}

/-- A finite result has the magnitude bits of its significand. -/
theorem roundMag_of_finite (h : isInf (roundTo neg m k) = false) :
    (dropBits m k - k) * 2 ^ 23 + significand m k < 0x7F800000 ∧
      roundMag m k = (dropBits m k - k) * 2 ^ 23 + significand m k := by
  rw [roundTo, Bool.eq_false_iff, Ne, isInf_withSign neg (roundMag_le m k), roundMag_eq] at h
  rw [roundMag_eq]
  omega

/-- A finite result counts its significand at the last place. -/
theorem magUnits_roundTo (h : isInf (roundTo neg m k) = false) :
    magUnits (roundTo neg m k) * 2 ^ k = significand m k * 2 ^ dropBits m k := by
  obtain ⟨hlt, heq⟩ := roundMag_of_finite h
  have hk := le_dropBits m k
  have hplace : dropBits m k - k = 0 ∨ 2 ^ 23 ≤ significand m k := by
    rcases hk.eq_or_lt with hd | hd
    · exact .inl (by omega)
    · exact .inr (le_significand hd)
  rw [roundTo, heq, magUnits_withSign neg (significand_le m k) hplace (by omega), Nat.mul_assoc,
    ← Nat.pow_add, Nat.sub_add_cancel hk]

/-- A finite result is even exactly where its significand is. -/
theorem toNat_roundTo_mod_two (h : isInf (roundTo neg m k) = false) :
    (roundTo neg m k).toNat % 2 = significand m k % 2 := by
  obtain ⟨hlt, heq⟩ := roundMag_of_finite h
  rw [roundTo, heq, toNat_withSign neg (by omega)]
  omega

end Finite

/-- Rounding is correct: for every `z` units of `2^-(149+k)`, with the sign of `z` or, for zero, any. -/
theorem roundsTo_roundTo {neg : Bool} {z : Int} (k : Nat) (hz : z = signFactor neg * z.natAbs) :
    RoundsTo z k (roundTo neg z.natAbs k) := by
  refine ⟨isNaN_roundTo .., ?_, fun h => ?_, fun hfin c _ => ?_⟩
  · rw [isInf_roundTo, Int.abs_eq_natAbs]
    zify
    norm_num
  · rw [isInf_roundTo] at h
    have hpos : 0 < z.natAbs := lt_of_lt_of_le (by positivity) h
    rw [fSign_roundTo]
    exact neg_iff_of_sign hz (Int.natAbs_pos.1 hpos)
  · have hval : valUnits (roundTo neg z.natAbs k) * 2 ^ k =
        signFactor neg * (significand z.natAbs k * 2 ^ dropBits z.natAbs k) := by
      rw [valUnits_eq, fSign_roundTo, mul_assoc]
      congr 1
      exact_mod_cast magUnits_roundTo hfin
    have hfits : FitsSignificand (signFactor neg * valUnits c).natAbs := by
      rw [natAbs_signFactor_mul, natAbs_valUnits]
      exact fitsSignificand_magUnits c
    obtain ⟨hle, htie⟩ := significand_nearest z.natAbs k hfits
    rw [toNat_roundTo_mod_two hfin, abs_sub_of_sign hz, abs_sub_of_sign hz, hval,
      signFactor_mul_cancel, ← mul_assoc]
    refine ⟨hle, fun h => (htie h).imp_left fun heq => ?_⟩
    refine mul_right_cancel₀ (pow_ne_zero k two_ne_zero) ?_
    rw [hval, ← heq, mul_assoc, signFactor_mul_cancel]

/-- A value that fits a significand and lies below `2^127` is kept as it is. -/
theorem roundTo_exact {c m k : Nat} (neg : Bool) (hc : FitsSignificand c) (hm : c * 2 ^ k = m)
    (hlt : c < 2 ^ 24 * 2 ^ 252) :
    FiniteFlt (roundTo neg m k) ∧ magUnits (roundTo neg m k) = c := by
  have hfin : isInf (roundTo neg m k) = false := by
    rw [Bool.eq_false_iff, Ne, isInf_roundTo, ← hm, Nat.mul_le_mul_right_iff (Nat.two_pow_pos k)]
    omega
  refine ⟨⟨isNaN_roundTo .., hfin⟩, Nat.eq_of_mul_eq_mul_right (Nat.two_pow_pos k) ?_⟩
  obtain ⟨hle, -⟩ := significand_nearest m k (c := c) hc
  have hzero : (c : Int) * 2 ^ k - m = 0 := by rw [← hm]; push_cast; ring
  rw [hzero, abs_zero, abs_nonpos_iff] at hle
  rw [magUnits_roundTo hfin, hm]
  zify
  omega

/-! ### The operations, case by case -/

/-- The middle part of a pattern put together from three. -/
theorem extractLsb'_append_append (x : BitVec 1) (y : BitVec 9) (z : BitVec 22) :
    (x ++ (y ++ z)).extractLsb' 22 9 = y := by
  ext i hi
  rw [BitVec.getElem_extractLsb', BitVec.getLsbD_append, if_pos (by omega), BitVec.getLsbD_append,
    if_neg (by omega), Nat.add_sub_cancel_left, BitVec.getLsbD_eq_getElem hi]

/-- The NaN that an operation makes is quiet, whatever is drawn (I7). -/
theorem quietNaN_quietNaN (n : Nat) : QuietNaN (quietNaN n) := by
  have h := congrArg BitVec.toNat (extractLsb'_append_append
    ((Config.freeNaN n).extractLsb' 22 1) 0x1FF#9 ((Config.freeNaN n).extractLsb' 0 22))
  rwa [BitVec.extractLsb'_toNat, Nat.shiftRight_eq_div_pow] at h

theorem fmul_comm (n : Nat) (a b : Word) : fmul n a b = fmul n b a := by
  unfold fmul
  rw [Bool.or_comm (isNaN a), Bool.or_comm (isInf a), Bool.or_comm (!isInf a && _),
    bne_comm (a := fSign a), Nat.mul_comm (magUnits a)]

section Operations
variable {n : Nat} {a b : Word}

theorem fadd_of_nan (h : isNaN a = true ∨ isNaN b = true) : fadd n a b = quietNaN n := by
  rw [fadd, if_pos (by simpa using h)]

theorem fmul_of_nan (h : isNaN a = true ∨ isNaN b = true) : fmul n a b = quietNaN n := by
  rw [fmul, if_pos (by simpa using h)]

/-- An infinity and one of the other sign have no sum. -/
theorem fadd_of_inf_opposite (ha : isInf a = true) (hb : isInf b = true) (hs : fSign a ≠ fSign b) :
    fadd n a b = quietNaN n := by
  simp [fadd, ha, hb, hs]

/-- An infinity absorbs every number but an infinity of the other sign. -/
theorem fadd_of_inf_left (ha : isInf a = true) (hb : isNaN b = false)
    (hs : isInf b = true → fSign a = fSign b) : fadd n a b = a := by
  have hs' : (isInf b && fSign a != fSign b) = false := by simpa using hs
  simp [fadd, isNaN_of_isInf ha, ha, hb, hs']

theorem fadd_of_inf_right (ha : FiniteFlt a) (hb : isInf b = true) : fadd n a b = b := by
  obtain ⟨hnan, hinf⟩ := ha
  simp [fadd, hnan, hinf, isNaN_of_isInf hb, hb]

/-- An exact zero sum is `+0` unless both operands are negative. -/
theorem fadd_of_sum_zero (ha : FiniteFlt a) (hb : FiniteFlt b) (h : valUnits a + valUnits b = 0) :
    fadd n a b = withSign (fSign a && fSign b) 0 := by
  obtain ⟨hna, hia⟩ := ha
  obtain ⟨hnb, hib⟩ := hb
  simp [fadd, hna, hia, hnb, hib, h, withSign]

/-- Every other sum of finite operands is the exact sum, rounded. -/
theorem fadd_of_sum_ne_zero (ha : FiniteFlt a) (hb : FiniteFlt b) (h : valUnits a + valUnits b ≠ 0) :
    fadd n a b =
      roundTo (decide (valUnits a + valUnits b < 0)) (valUnits a + valUnits b).natAbs 0 := by
  obtain ⟨hna, hia⟩ := ha
  obtain ⟨hnb, hib⟩ := hb
  simp [fadd, hna, hia, hnb, hib, h]

/-- The product of an infinity and a zero is no number. -/
theorem fmul_of_inf_zero (ha : isInf a = true) (hb : magUnits b = 0) : fmul n a b = quietNaN n := by
  have hib : isInf b = false := by
    rw [Bool.eq_false_iff]
    exact fun h => magUnits_ne_zero_of_isInf h hb
  simp [fmul, ha, hb, hib]

/-- The product of an infinity and any other number is an infinity. -/
theorem fmul_of_inf_left (ha : isInf a = true) (hb : isNaN b = false) (h0 : magUnits b ≠ 0) :
    fmul n a b = withSign (fSign a != fSign b) 0x7F800000 := by
  simp [fmul, isNaN_of_isInf ha, ha, hb, h0]

/-- The product of finite operands is the exact product, rounded. -/
theorem fmul_of_finite (ha : FiniteFlt a) (hb : FiniteFlt b) :
    fmul n a b = roundTo (fSign a != fSign b) (magUnits a * magUnits b) 149 := by
  obtain ⟨hna, hia⟩ := ha
  obtain ⟨hnb, hib⟩ := hb
  simp [fmul, hna, hia, hnb, hib]

/-! ### The rounding of each operation -/

theorem sign_of_decide (z : Int) : z = signFactor (decide (z < 0)) * z.natAbs := by
  rw [signFactor]
  split_ifs with h <;> simp only [decide_eq_true_eq] at h <;> omega

theorem signFactor_bne (p q : Bool) : signFactor (p != q) = signFactor p * signFactor q := by
  cases p <;> cases q <;> rfl

theorem withSign_zero_eq_roundTo (neg : Bool) (k : Nat) : withSign neg 0 = roundTo neg 0 k := by
  have : roundMag 0 k = 0 := by simp [roundMag, dropBits, roundShift]
  rw [roundTo, this]

/-- R14: the sum of finite operands, rounded once. -/
theorem fadd_roundsTo (ha : FiniteFlt a) (hb : FiniteFlt b) :
    RoundsTo (valUnits a + valUnits b) 0 (fadd n a b) := by
  by_cases h : valUnits a + valUnits b = 0
  · rw [fadd_of_sum_zero ha hb h, h, withSign_zero_eq_roundTo _ 0]
    exact roundsTo_roundTo 0 (by simp)
  · rw [fadd_of_sum_ne_zero ha hb h]
    exact roundsTo_roundTo 0 (sign_of_decide _)

/-- R14: the difference of finite operands, rounded once. -/
theorem fsub_roundsTo (ha : FiniteFlt a) (hb : FiniteFlt b) :
    RoundsTo (valUnits a - valUnits b) 0 (fsub n a b) := by
  rw [sub_eq_add_neg, ← valUnits_fNeg]
  exact fadd_roundsTo ha (finiteFlt_fNeg hb)

/-- R14: the product of finite operands, rounded once. -/
theorem fmul_roundsTo (ha : FiniteFlt a) (hb : FiniteFlt b) :
    RoundsTo (valUnits a * valUnits b) 149 (fmul n a b) := by
  rw [fmul_of_finite ha hb, ← natAbs_valUnits a, ← natAbs_valUnits b, ← Int.natAbs_mul]
  refine roundsTo_roundTo 149 ?_
  rw [Int.natAbs_mul, natAbs_valUnits, natAbs_valUnits, signFactor_bne]
  nth_rw 1 [valUnits_eq a, valUnits_eq b]
  push_cast
  ring

/-- R14: the conversion of an integer, rounded once. -/
theorem f32_roundsTo (k : Int) : RoundsTo (k * 2 ^ 149) 0 (f32 k) := by
  have hneg : decide (k < 0) = decide (k * 2 ^ 149 < 0) := by
    rw [decide_eq_decide]; omega
  have habs : k.natAbs * 2 ^ 149 = (k * 2 ^ 149).natAbs := by
    rw [Int.natAbs_mul]; rfl
  rw [f32, hneg, habs]
  exact roundsTo_roundTo 0 (sign_of_decide _)

end Operations

/-! ### Exact conversions and products -/

/-- An integer below `2^24`, at any place, fits a significand. -/
theorem fitsSignificand_mul_two_pow {c e : Nat} (h : c < 2 ^ 24) : FitsSignificand (c * 2 ^ e) := by
  intro g hg
  have hlt : 2 ^ (23 + g) < 2 ^ (24 + e) := by
    rw [Nat.pow_add 2 24 e]
    exact hg.trans_lt (Nat.mul_lt_mul_of_pos_right h (Nat.two_pow_pos e))
  have := (Nat.pow_lt_pow_iff_right (by norm_num)).1 hlt
  exact Dvd.dvd.mul_left (Nat.pow_dvd_pow 2 (by omega)) c

/-- Taking a factor `2^e` away keeps a magnitude that fits a significand. -/
theorem fitsSignificand_of_mul_two_pow {c e : Nat} (h : FitsSignificand (c * 2 ^ e)) :
    FitsSignificand c := by
  intro g hg
  have := h (g + e) (by
    rw [← Nat.add_assoc, Nat.pow_add]
    exact Nat.mul_le_mul_right _ hg)
  rw [Nat.pow_add] at this
  exact Nat.dvd_of_mul_dvd_mul_right (Nat.two_pow_pos e) this

/-- The magnitude of a finite pattern lies below `2^128`. -/
theorem magUnits_lt {w : Word} (h : FiniteFlt w) : magUnits w < 2 ^ 24 * 2 ^ 253 := by
  have hexp : fExp w ≠ 255 := (finite_iff w).1 h
  have hlt : fExp w < 256 := by rw [fExp_eq]; exact Nat.mod_lt _ (by norm_num)
  have hfrac : fFrac w < 2 ^ 23 := by rw [fFrac_eq]; exact Nat.mod_lt _ (by norm_num)
  unfold magUnits
  split_ifs
  · omega
  · exact Nat.mul_lt_mul_of_lt_of_le (by omega) (Nat.pow_le_pow_right (by norm_num) (by omega))
      (by positivity)

/-- R165: an integer below `2^24` converts exactly. -/
theorem f32_exact {k : Nat} (h : k < 2 ^ 24) :
    FiniteFlt (f32 k) ∧ valUnits (f32 k) = k * 2 ^ 149 := by
  have hneg : decide ((k : Int) < 0) = false := by simp
  obtain ⟨hfin, hmag⟩ := roundTo_exact false (fitsSignificand_mul_two_pow (e := 149) h)
    (k := 0) (by rw [Nat.pow_zero, Nat.mul_one]) (by omega)
  rw [f32, hneg, Int.natAbs_natCast]
  refine ⟨hfin, ?_⟩
  rw [valUnits_eq, fSign_roundTo, hmag]
  simp [signFactor]

/-- R182: the product with `2^-18` drops no bit of a value of at least `2^41` units. -/
theorem fmul_fltInv2p18_exact (n : Nat) {v : Word} (hv : FiniteFlt v) (h : 2 ^ 41 ≤ magUnits v) :
    FiniteFlt (fmul n v fltInv2p18) ∧ valUnits (fmul n v fltInv2p18) * 2 ^ 18 = valUnits v := by
  have hscale : FiniteFlt fltInv2p18 ∧ fSign fltInv2p18 = false ∧ magUnits fltInv2p18 = 2 ^ 131 :=
    ⟨⟨by decide, by decide⟩, by decide, by decide⟩
  obtain ⟨hfin, hpos, hmag⟩ := hscale
  obtain ⟨c, hc⟩ : 2 ^ 18 ∣ magUnits v := fitsSignificand_magUnits v 18 h
  rw [Nat.mul_comm] at hc
  have hfits : FitsSignificand c := fitsSignificand_of_mul_two_pow (hc ▸ fitsSignificand_magUnits v)
  have hlt := magUnits_lt hv
  obtain ⟨hfin', hmag'⟩ := roundTo_exact (fSign v) hfits (k := 149) (m := magUnits v * 2 ^ 131)
    (by rw [hc]; ring) (by omega)
  rw [fmul_of_finite hv hfin, hpos, hmag, Bool.bne_false]
  refine ⟨hfin', ?_⟩
  rw [valUnits_eq, fSign_roundTo, hmag', valUnits_eq v, hc]
  push_cast
  ring

/-! ### Zeros and infinities -/

/-- `-0` by its sign and magnitude. -/
theorem eq_negZero_iff (w : Word) : w = 0x80000000#32 ↔ fSign w = true ∧ magUnits w = 0 := by
  rw [magUnits_eq_zero_iff]
  have hz : fSign 0x80000000#32 = true ∧ fExp 0x80000000#32 = 0 ∧ fFrac 0x80000000#32 = 0 := by
    decide
  obtain ⟨hzs, hze, hzf⟩ := hz
  refine ⟨fun h => h ▸ ⟨hzs, hze, hzf⟩, fun ⟨hs, he, hf⟩ => ?_⟩
  exact pattern_ext (hs.trans hzs.symm) (he.trans hze.symm) (hf.trans hzf.symm)

theorem fNeg_eq_negZero_iff (w : Word) : fNeg w = 0x80000000#32 ↔ w = 0x00000000#32 := by
  rw [fNeg, ← BitVec.xor_left_inj (x := w) (z := 0x80000000#32), BitVec.zero_xor]

/-- Infinities of one sign are one pattern. -/
theorem inf_eq_of_fSign {a b : Word} (ha : isInf a = true) (hb : isInf b = true)
    (hs : fSign a = fSign b) : a = b := by
  obtain ⟨hea, hfa⟩ := (isInf_iff a).1 ha
  obtain ⟨heb, hfb⟩ := (isInf_iff b).1 hb
  exact pattern_ext hs (hea.trans heb.symm) (hfa.trans hfb.symm)

/-- Two negative patterns whose values cancel are both `-0`. -/
theorem signs_of_sum_zero {a b : Word} (h : valUnits a + valUnits b = 0) :
    (fSign a && fSign b) = true ↔ a = 0x80000000#32 ∧ b = 0x80000000#32 := by
  rw [eq_negZero_iff, eq_negZero_iff, Bool.and_eq_true]
  refine ⟨fun ⟨hsa, hsb⟩ => ?_, fun ⟨⟨hsa, _⟩, hsb, _⟩ => ⟨hsa, hsb⟩⟩
  simp only [valUnits, hsa, hsb, if_true] at h
  exact ⟨⟨hsa, by omega⟩, hsb, by omega⟩

/-- R14: the sign of an exact zero sum. -/
theorem fadd_zero {n : Nat} {a b : Word} (ha : FiniteFlt a) (hb : FiniteFlt b)
    (h : valUnits a + valUnits b = 0) :
    fadd n a b = if a = 0x80000000#32 ∧ b = 0x80000000#32 then 0x80000000#32 else 0x00000000#32 := by
  rw [fadd_of_sum_zero ha hb h, withSign]
  simp only [signs_of_sum_zero h]
  rfl

/-- R14: the sign of an exact zero difference. -/
theorem fsub_zero {n : Nat} {a b : Word} (ha : FiniteFlt a) (hb : FiniteFlt b)
    (h : valUnits a - valUnits b = 0) :
    fsub n a b = if a = 0x80000000#32 ∧ b = 0x00000000#32 then 0x80000000#32 else 0x00000000#32 := by
  rw [fsub, fadd_zero ha (finiteFlt_fNeg hb) (by rw [valUnits_fNeg]; omega)]
  simp only [fNeg_eq_negZero_iff]

/-- R14: an infinity times a number that is not zero is an infinity with the product of the signs. -/
theorem fmul_inf {n : Nat} {a b : Word} (ha : isInf a = true) (hb : isNaN b = false)
    (h0 : valUnits b ≠ 0) :
    isInf (fmul n a b) = true ∧ (fSign (fmul n a b) = true ↔ fSign a ≠ fSign b) := by
  rw [fmul_of_inf_left ha hb (mt (valUnits_eq_zero_iff b).2 h0), isInf_withSign _ le_rfl,
    fSign_withSign _ (by norm_num)]
  exact ⟨rfl, bne_iff_ne⟩

/-- R14: a finite product has the product of the signs. -/
theorem fSign_fmul {n : Nat} {a b : Word} (ha : FiniteFlt a) (hb : FiniteFlt b) :
    fSign (fmul n a b) = true ↔ fSign a ≠ fSign b := by
  rw [fmul_of_finite ha hb, fSign_roundTo, bne_iff_ne]

end Sys2Proof.Machine
end

section
open Sys2Proof Sys2Proof.Machine Sys2Proof.Claims

/-- Settles O45: an exact zero sum and every other one are the exact sum rounded. -/
theorem floatSumRoundsOnce : Obligations.FloatSumRoundsOnce :=
  fun _ _ _ ha hb => ⟨fadd_roundsTo ha hb, fsub_roundsTo ha hb⟩

/-- Settles O46: the exact product counts units of `2^-298`, which `roundTo` rounds at 149 places. -/
theorem floatProductRoundsOnce : Obligations.FloatProductRoundsOnce :=
  fun _ _ _ ha hb => fmul_roundsTo ha hb

/-- Settles O47, clause by clause from the cases of `fadd` and `fmul`; `fsub` adds the other sign. -/
theorem floatSpecialOperands : Obligations.FloatSpecialOperands := by
  intro n a b
  refine ⟨fun h => ?_, fun ha hb hs => ?_, fun ha hb hs => ?_, fun ha hb => ?_, fun ha hb hs => ?_,
    fun ha hb hs => ?_, fun ha hb => ?_, fun ha hb h0 => ?_, fsub_zero, fadd_zero, fSign_fmul⟩
  · rw [fadd_of_nan h, fsub, fadd_of_nan (by rwa [isNaN_fNeg]), fmul_of_nan h]
    exact ⟨quietNaN_quietNaN n, quietNaN_quietNaN n, quietNaN_quietNaN n⟩
  · rw [fadd_of_inf_opposite ha hb hs]
    exact quietNaN_quietNaN n
  · rw [fsub, fadd_of_inf_opposite ha (by rwa [isInf_fNeg]) (by simp [hs])]
    exact quietNaN_quietNaN n
  · rw [fmul_comm n b a, fmul_of_inf_zero ha ((valUnits_eq_zero_iff b).1 hb)]
    exact ⟨quietNaN_quietNaN n, quietNaN_quietNaN n⟩
  · exact ⟨fadd_of_inf_left ha (isNaN_of_isInf hb) fun _ => hs, inf_eq_of_fSign ha hb hs⟩
  · refine fadd_of_inf_left ha (isNaN_of_isInf (by rwa [isInf_fNeg])) fun _ => ?_
    rw [fSign_fNeg]
    exact Bool.eq_not.2 hs
  · obtain ⟨hnan, hinf⟩ := hb
    have hno : isInf b = true → fSign a = fSign b := by simp [hinf]
    have hno' : isInf (fNeg b) = true → fSign a = fSign (fNeg b) := by simp [hinf]
    exact ⟨fadd_of_inf_left ha hnan hno, fadd_of_inf_right ⟨hnan, hinf⟩ ha,
      fadd_of_inf_left ha (by rwa [isNaN_fNeg]) hno',
      fadd_of_inf_right ⟨hnan, hinf⟩ (by rwa [isInf_fNeg])⟩
  · obtain ⟨hinf, hsign⟩ := fmul_inf (n := n) ha hb h0
    rw [fmul_comm n b a]
    exact ⟨hinf, hsign, hinf, hsign⟩

/-- Settles O48: both exact cases are magnitudes that fit a significand, which rounding keeps. -/
theorem conversionAndRescaleAreExact : Obligations.ConversionAndRescaleAreExact := by
  refine ⟨f32_roundsTo, fun k => f32_exact, fun n v hv h => fmul_fltInv2p18_exact n hv ?_⟩
  rw [Int.abs_eq_natAbs, natAbs_valUnits] at h
  exact_mod_cast h

end

section
/-! SUPPORT. `Coherent` goes through every part of a step: it is a claim about few fields, so most updates
keep it at once, and the two ways a command ends, the sequencer's moves and the stores each have one lemma
(Safety.lean; R24, R33, R106, R207, R232). -/

namespace Sys2Proof.Machine

/-! ### Updates that `Coherent` does not see -/

/-- `t` is `s` but for fields that no clause of `Coherent` names. -/
def CoherenceFrame (s t : State) : Prop :=
  t = { s with
    cmd := t.cmd
    status := { s.status with wovr := t.status.wovr, thrValid := t.status.thrValid }
    ie := t.ie, qp := t.qp, thr := t.thr, di := t.di, dout := t.dout, accLo := t.accLo, accHi := t.accHi
    ext := t.ext, colc := t.colc, block := t.block, accV := t.accV
    port := t.port, races := t.races, script := t.script, response := t.response
    drawn := t.drawn, seen := t.seen }

section
variable {s t : State}

theorem State.Coherent.of_frame (h : s.Coherent) (hf : CoherenceFrame s t) : t.Coherent := by
  obtain ⟨hwf, hspace, hbusy, hclean, hrecord, haddr, hext, hfly⟩ := h
  rw [hf]
  exact ⟨hwf, hspace, hbusy, hclean, hrecord, haddr, hext, hfly⟩

/-! ### An idle core and a command in flight -/

/-- No command is in flight where `BUSY` is 0 (R24). -/
theorem State.Coherent.phase_idle (h : s.Coherent) (hb : s.status.busy = false) : s.phase = .idle := by
  by_contra hp
  exact absurd (h.busy.2 hp) (by simp [hb])

/-- While a command is in flight its completion record and `ERRADDR` are clear (R200, R33). -/
theorem State.Coherent.record_clear (h : s.Coherent) (hp : s.phase ≠ .idle) :
    s.status.done = false ∧ s.status.err = false ∧ s.status.errCode = .none ∧ s.errAddr = 0 := by
  obtain ⟨hdone, herr, hcode⟩ := h.clean (h.busy.2 hp)
  exact ⟨hdone, herr, hcode, h.errAddr (by simp [hcode])⟩

/-- An idle core stays coherent when its operands change, if the buffer is then valid for none but a
geometry that a `RUN` accepts (R29, R32, R106). -/
theorem State.Coherent.of_idle (h : s.Coherent) (hp : s.phase = .idle)
    {fmt : Fmt} {width height : BitVec 16} {srcBase srcStride dstBase dstStride : Word} {tv ev : Bool}
    (hev : ev = true → State.extGeometry { s with fmt := fmt, width := width, height := height }) :
    State.Coherent { s with
      fmt := fmt, width := width, height := height, srcBase := srcBase, srcStride := srcStride
      dstBase := dstBase, dstStride := dstStride
      status := { s.status with thrValid := tv, extValid := ev } } where
  memWf := h.memWf
  memInSpace := h.memInSpace
  busy := h.busy
  clean := h.clean
  record := h.record
  errAddr := h.errAddr
  extValid := ⟨by simp [hp], by simp [hp], hev⟩
  inFlight := by simp [State.runInFlightChecked, hp]

/-! ### Issue and completion -/

/-- Issue puts a command in flight with a clear record (R200). -/
theorem State.Coherent.issue (h : s.Coherent) (w : Word) : (issue w s).Coherent where
  memWf := h.memWf
  memInSpace := h.memInSpace
  busy := by simp [State.busyMatchesPhase]
  clean := by simp [State.busyIsClean]
  record := by simp [State.completionRecord]
  errAddr := by simp [State.errAddrMeaning]
  extValid := ⟨by simp, by simp, h.extValid.2.2⟩
  inFlight := by simp [State.runInFlightChecked]

/-- Completion sets `DONE` alone, over the clear record of a command in flight (R202, R232). -/
theorem State.Coherent.complete (h : s.Coherent) (hp : s.phase ≠ .idle) : (complete s).Coherent := by
  obtain ⟨-, herr, hcode, haddr⟩ := h.record_clear hp
  exact
    { memWf := h.memWf
      memInSpace := h.memInSpace
      busy := by simp [State.busyMatchesPhase]
      clean := by simp [State.busyIsClean]
      record := by simp [State.completionRecord, herr, hcode]
      errAddr := fun _ => haddr
      extValid := ⟨by simp, by simp, h.extValid.2.2⟩
      inFlight := by simp [State.runInFlightChecked] }

/-- An error sets `ERR` and its code alone, over the clear record of a command in flight, and `ERRADDR`
for a bus error only (R226, R232, R33). -/
theorem State.Coherent.raiseError (h : s.Coherent) (hp : s.phase ≠ .idle) {c : ErrCode} {a : Word}
    (hc : c ≠ .none) (ha : c ≠ .busError → a = 0) : (raiseError c a s).Coherent := by
  obtain ⟨hdone, -⟩ := h.record_clear hp
  exact
    { memWf := h.memWf
      memInSpace := h.memInSpace
      busy := by simp [State.busyMatchesPhase]
      clean := by simp [State.busyIsClean]
      record := by simp [State.completionRecord, hdone, hc]
      errAddr := ha
      extValid := ⟨by simp, by simp, h.extValid.2.2⟩
      inFlight := by simp [State.runInFlightChecked] }

/-! ### Memory -/

/-- A store inside the memory space keeps every address of memory there (R60, R63). -/
theorem memInSpace_memWrite {m : Memory} {a n : Nat} (w : Word) (hm : ∀ c ∈ m, c.1 < 2 ^ Config.addrW)
    (ha : a + n ≤ 2 ^ 32) : ∀ c ∈ memWrite m a n w, c.1 < 2 ^ Config.addrW :=
  writeLE_listed (P := (· < 2 ^ Config.addrW)) a n w.toNat hm fun _ hk =>
    lt_of_lt_of_le (Nat.add_lt_add_left hk a) ha

/-- A store inside the memory space keeps memory canonical (R60, R63). -/
theorem State.Coherent.storeSample (h : s.Coherent) {a n : Nat} (w : Word) (ha : a + n ≤ 2 ^ 32) :
    (storeSample a n w s).Coherent where
  memWf := wf_memWrite a n w h.memWf
  memInSpace := memInSpace_memWrite w h.memInSpace ha
  busy := h.busy
  clean := h.clean
  record := h.record
  errAddr := h.errAddr
  extValid := h.extValid
  inFlight := h.inFlight

/-! ### The sequencer of a `RUN` -/

/-- What the checks of R207 accept and what they answer otherwise. -/
theorem runCheck_cases (s : State) :
    (∃ c, runCheck s = some c ∧ c ≠ .none ∧ c ≠ .busError) ∨
      (runCheck s = none ∧ ∃ f, formatOf s.fmt = some f ∧ badGeometry f s = false ∧
        overCapacity f s = false ∧ s.status.thrValid = true) := by
  unfold runCheck
  cases hf : formatOf s.fmt with
  | none => exact .inl ⟨.badFormat, rfl, by decide, by decide⟩
  | some f =>
    dsimp only
    split_ifs with hg hc ht
    · exact .inl ⟨.badGeometry, rfl, by decide, by decide⟩
    · exact .inl ⟨.capacity, rfl, by decide, by decide⟩
    · exact .inl ⟨.noThr, rfl, by decide, by decide⟩
    · exact .inr ⟨rfl, f, rfl, by simpa using hg, by simpa using hc, by simpa using ht⟩

/-- The geometry that a `RUN` accepts is one that the buffer may be valid for (R106, R207). -/
theorem extGeometry_of_checked {f : SampleFormat} (hf : formatOf s.fmt = some f)
    (hg : badGeometry f s = false) : s.extGeometry := by
  obtain ⟨hW, hW16, hH, hH16, -⟩ := geometry_facts hg
  exact ⟨⟨f, hf⟩, hW16, hW, hH16, hH⟩

/-- A `RUN` is refused with a code of its checks or starts on what they accept (R206, R207). -/
theorem State.Coherent.runStart (h : s.Coherent) (hp : s.phase = .issued) : (runStart s).Coherent := by
  have hp' : s.phase ≠ .idle := by simp [hp]
  rcases runCheck_cases s with ⟨c, hr, hc, hc'⟩ | ⟨hr, f, hf, hg, hcap, -⟩
  · have he : Machine.runStart s = Machine.raiseError c 0 s := by unfold Machine.runStart; rw [hr]
    rw [he]
    exact h.raiseError hp' hc fun _ => rfl
  · obtain ⟨hdone, herr, hcode, haddr⟩ := h.record_clear hp'
    obtain ⟨hW, -, hH, -⟩ := geometry_facts hg
    rw [runStart_ok hr]
    exact
      { memWf := h.memWf
        memInSpace := h.memInSpace
        busy := by simp [State.busyMatchesPhase, h.busy.2 hp']
        clean := fun _ => ⟨hdone, herr, hcode⟩
        record := h.record
        errAddr := fun _ => haddr
        extValid := by simp [State.extValidMeaning]
        inFlight := fun _ => ⟨f, hf, hg, hcap, show 0 < s.planeH by omega, show 0 < s.planeW by omega⟩ }

/-- The sequencer may stand at any sample of the plane. -/
theorem State.Coherent.moveTo (h : s.Coherent) {y x : Nat} (hy : y < s.planeH) (hx : x < s.planeW) :
    State.Coherent { s with row := y, col := x } where
  memWf := h.memWf
  memInSpace := h.memInSpace
  busy := h.busy
  clean := h.clean
  record := h.record
  errAddr := h.errAddr
  extValid := h.extValid
  inFlight := fun hp => by
    obtain ⟨f, hf, hg, hc, -⟩ := h.inFlight hp
    exact ⟨f, hf, hg, hc, hy, hx⟩

/-- The next sample of `EXTEND`, or `FILTER` with a valid buffer after the last one (R106). -/
theorem State.Coherent.extendNext (h : s.Coherent) (hp : s.phase = .extend) :
    (extendNext s).Coherent := by
  obtain ⟨f, hf, hg, hc, hrow, hcol⟩ := h.inFlight (.inl hp)
  rcases extendNext_cases s with ⟨h1, he⟩ | ⟨-, h2, he⟩ | ⟨-, -, he⟩ <;> rw [he]
  · exact h.moveTo hrow h1
  · exact h.moveTo h2 (Nat.zero_lt_of_lt hcol)
  · have hp' : s.phase ≠ .idle := by simp [hp]
    exact
      { memWf := h.memWf
        memInSpace := h.memInSpace
        busy := by simp [State.busyMatchesPhase, h.busy.2 hp']
        clean := h.clean
        record := h.record
        errAddr := h.errAddr
        extValid := ⟨by simp, by simp, fun _ => extGeometry_of_checked hf hg⟩
        inFlight := fun _ => ⟨f, hf, hg, hc, Nat.zero_lt_of_lt hrow, Nat.zero_lt_of_lt hcol⟩ }

/-- The next sample of `FILTER`, or the completion of the command after the last one (R202). -/
theorem State.Coherent.filterNext (h : s.Coherent) (hp : s.phase = .filter) :
    (filterNext s).Coherent := by
  obtain ⟨-, -, -, -, hrow, hcol⟩ := h.inFlight (.inr hp)
  rcases filterNext_cases s with ⟨h1, he⟩ | ⟨-, h2, he⟩ | ⟨-, -, he⟩ <;> rw [he]
  · exact h.moveTo hrow h1
  · exact h.moveTo h2 (Nat.zero_lt_of_lt hcol)
  · exact h.complete (by simp [hp])

/-- One read of `EXTEND` and what follows from its answer (R76, R102). -/
theorem State.Coherent.extendTick (h : s.Coherent) (hp : s.phase = .extend) (f : SampleFormat) :
    (extendTick f s).Coherent := by
  have hread : ∀ a n e, State.Coherent { drawOn (portIssue false a n s) with ext := e } :=
    fun _ _ _ => h.of_frame rfl
  unfold Machine.extendTick
  dsimp only
  split_ifs
  · exact (hread _ _ s.ext).raiseError (by simp [hp]) (by decide) (by simp)
  · exact (hread _ _ _).extendNext hp

/-- The next sample write of `FILTER` lies in the memory space (R61, R207). -/
theorem State.Coherent.nextWrite_inSpace (h : s.Coherent) (hp : s.phase = .filter) {f : SampleFormat}
    (hf : formatOf s.fmt = some f) : dstAddr f s s.row s.col + sampleBytes f ≤ 2 ^ 32 := by
  obtain ⟨g, hg, hgeo, -, hrow, hcol⟩ := h.inFlight (.inr hp)
  obtain rfl : g = f := Option.some.inj (hg.symm.trans hf)
  exact dstAddr_bound hgeo hrow hcol

/-- One write of `FILTER`, inside the memory space, and what follows from its answer (R76, R208). -/
theorem State.Coherent.filterTick (h : s.Coherent) (hp : s.phase = .filter) {f : SampleFormat}
    (hf : formatOf s.fmt = some f) : (filterTick f s).Coherent := by
  have hworked : (drawOn (portIssue true (dstAddr f s s.row s.col) (sampleBytes f)
      (filterCompute f s))).Coherent := h.of_frame rfl
  have hstored := fun w => hworked.storeSample w (h.nextWrite_inSpace hp hf)
  unfold Machine.filterTick
  dsimp only
  split_ifs
  · exact (hstored _).raiseError (by simp [hp]) (by decide) (by simp)
  · exact (hstored _).filterNext (by simp [hp])

/-- One sequencer step of a `RUN` in flight; a core in any other phase stays as it is. -/
theorem State.Coherent.runTick (h : s.Coherent) : (runTick s).Coherent := by
  have hbad : s.phase ≠ .idle → (Machine.raiseError .badFormat 0 s).Coherent := fun hp =>
    h.raiseError hp (by decide) fun _ => rfl
  unfold Machine.runTick
  split
  next => exact h
  next => exact h
  next hp =>
    split
    · exact hbad (by simp [hp])
    · exact h.extendTick hp _
  next hp =>
    split
    · exact hbad (by simp [hp])
    next hf => exact h.filterTick hp hf

theorem State.Coherent.runTicks (h : s.Coherent) (k : Nat) : (runTicks k s).Coherent := by
  induction k generalizing s with
  | zero => exact h
  | succ k ih =>
    rw [Machine.runTicks]
    split_ifs
    · exact h
    · exact ih h.runTick

/-- A command in flight executes to its end (R201, R202). -/
theorem State.Coherent.exec (h : s.Coherent) (hp : s.phase = .issued) {i : Instr}
    (he : exec i s = .next t) : t.Coherent := by
  have hp' : s.phase ≠ .idle := by simp [hp]
  by_cases hi : i = .run
  · subst hi
    obtain rfl : runToEnd (Machine.runStart s) = t := by injection he
    exact (h.runStart hp).runTicks _
  · rcases exec_cases i s hi with ⟨c, hc, hc', hr⟩ | ⟨thr, qp, tv, dout, lo, hi, drawn, hr, -⟩
    · cases hr.symm.trans he
      exact h.raiseError hp' hc fun _ => rfl
    · cases hr.symm.trans he
      have hresult : State.Coherent { s with
          thr := thr, qp := qp, status := { s.status with thrValid := tv }, dout := dout, accLo := lo
          accHi := hi, drawn := drawn } := h.of_frame rfl
      exact hresult.complete hp'

/-! ### Stimuli -/

/-- A `STATUS` write clears flags of the record and adds none (R25). -/
theorem State.Coherent.statusClear (h : s.Coherent) (w : Word) :
    State.Coherent { s with status := statusClear w s.status } := by
  obtain ⟨hboth, herr, hdone⟩ := h.record
  exact
    { memWf := h.memWf
      memInSpace := h.memInSpace
      busy := h.busy
      clean := fun hb => by
        obtain ⟨hd, he, hc⟩ := h.clean hb
        exact ⟨by simp [Machine.statusClear, hd], by simp [Machine.statusClear, he], hc⟩
      record := by
        simp only [State.completionRecord, Machine.statusClear, Bool.and_eq_true]
        exact ⟨fun ⟨⟨hd, _⟩, he, _⟩ => hboth ⟨hd, he⟩, fun he => herr he.1, fun hd => hdone hd.1⟩
      errAddr := h.errAddr
      extValid := h.extValid
      inFlight := h.inFlight }

/-- A performed register write (R20 to R41): an issue, a cleared flag, or operands of an idle core. -/
theorem State.Coherent.writeReg (h : s.Coherent) (hp : s.phase = .idle) (r : Reg) (w : Word) :
    (writeReg r w s).Coherent := by
  have hkeep := h.extValid.2.2
  cases r with
  | cmd => exact h.issue w
  | status => exact h.statusClear w
  | fmt => exact h.of_idle hp nofun
  | width => exact h.of_idle hp nofun
  | height => exact h.of_idle hp nofun
  | srcBase => exact h.of_idle hp hkeep
  | srcStride => exact h.of_idle hp hkeep
  | dstBase => exact h.of_idle hp hkeep
  | dstStride => exact h.of_idle hp hkeep
  | ie => exact h.of_frame rfl
  | thr i => exact h.of_frame rfl
  | di i => exact h.of_frame rfl
  | accLo => exact h.of_frame rfl
  | accHi => exact h.of_frame rfl
  | id => exact h
  | paramMaxW => exact h
  | paramScratch => exact h
  | paramOpt => exact h
  | qp => exact h
  | errAddr => exact h
  | factor i => exact h
  | dout i => exact h

/-- A register write during a command touches `STATUS` flags and `IE` alone (R262). -/
theorem State.Coherent.writeRegBusy (h : s.Coherent) (r : Option Reg) (w : Word) :
    (writeRegBusy r w s).Coherent := by
  unfold Machine.writeRegBusy
  split
  · exact h.statusClear w
  · exact h.of_frame rfl
  · exact h.of_frame rfl

/-- `t` holds in every register, in the sequencer and on the port what reset leaves there (R250). -/
def AtReset (t : State) : Prop :=
  t = { State.reset with
    params := t.params, ext := t.ext, colc := t.colc, block := t.block, accV := t.accV, mem := t.mem
    script := t.script, drawn := t.drawn, seen := t.seen }

theorem atReset_reset : AtReset State.reset := rfl

theorem atReset_resetSignal (s : State) : AtReset (resetSignal s) := rfl

/-- A core at reset is coherent if its memory is (R250). -/
theorem AtReset.coherent (ht : AtReset t) (hwf : t.mem.wf = true) (hspace : t.memInSpace) :
    t.Coherent := by
  rw [ht]
  exact
    { memWf := hwf
      memInSpace := hspace
      busy := by simp [State.busyMatchesPhase, State.reset]
      clean := by simp [State.busyIsClean, State.reset]
      record := by simp [State.completionRecord, State.reset]
      errAddr := fun _ => rfl
      extValid := by simp [State.extValidMeaning, State.reset]
      inFlight := by simp [State.runInFlightChecked, State.reset] }

/-- The reset input stores at most the bytes of the next sample write of a `RUN`, in the memory space
(R251, R207). -/
theorem State.Coherent.memAfterReset (h : s.Coherent) :
    (memAfterReset s).wf = true ∧ ∀ c ∈ memAfterReset s, c.1 < 2 ^ Config.addrW := by
  unfold Machine.memAfterReset
  split
  next f hp hf =>
    exact ⟨wf_memWrite _ _ _ h.memWf,
      memInSpace_memWrite _ h.memInSpace (h.nextWrite_inSpace hp hf)⟩
  · exact ⟨h.memWf, h.memInSpace⟩

/-- Every stimulus keeps a core coherent (R20, R60, R250). -/
theorem State.Coherent.serve (h : s.Coherent) {a : HostAct} (he : serve a s = .next t) : t.Coherent := by
  cases a with
  | regWrite addr width data =>
    obtain rfl : serveRegWrite addr width data s = t := by injection he
    rcases serveRegWrite_cases addr width data s with
      hw | hw | ⟨-, r, hw⟩ | ⟨-, hw⟩ | ⟨hb, r, hw⟩ <;> rw [hw]
    · exact h.of_frame rfl
    · exact h.of_frame rfl
    · exact (h.writeRegBusy r data).of_frame rfl
    · exact h.of_frame rfl
    · exact (h.writeReg (h.phase_idle hb) r data).of_frame rfl
  | regRead addr width =>
    obtain rfl : serveRegRead addr width s = t := by injection he
    obtain ⟨a, n, hr⟩ := serveRegRead_frame addr width s
    rw [hr]
    exact h.of_frame rfl
  | memWrite addr width data =>
    rcases serveMemWrite_cases addr width data s with hw | ⟨hspace, _, hw⟩
    · cases hw.symm.trans he
    · cases hw.symm.trans he
      exact (h.storeSample data hspace).of_frame rfl
  | memRead addr width =>
    rcases serveMemRead_cases addr width s with hr | ⟨_, _, hr⟩
    · cases hr.symm.trans he
    · cases hr.symm.trans he
      exact h.of_frame rfl
  | resetCore =>
    cases he
    exact (atReset_resetSignal s).coherent h.memAfterReset.1 h.memAfterReset.2

end

end Sys2Proof.Machine
end

section
open Sys2Proof Sys2Proof.Machine

/-- Settles O9: `Coherent` is an invariant of every part of a step. -/
theorem everyStepKeepsCoherence : Obligations.EveryStepKeepsCoherence := by
  intro s t h hstep
  refine step_preserves (P := State.Coherent) ?_ ?_ ?_ ?_ ?_ ?_ h hstep
  · exact fun i u v hu hp he => hu.exec hp he
  · exact fun u hu hp => hu.raiseError (by simp [hp]) (by decide) fun _ => rfl
  · exact fun u hu hp => hu.runStart hp
  · exact fun u hu => hu.runTick
  · exact fun a u v hu he => hu.serve he
  · exact fun u r hu => hu.of_frame rfl

/-- Settles O8: a core at reset with an empty memory. -/
theorem resetStateIsCoherent : Obligations.ResetStateIsCoherent :=
  atReset_reset.coherent wf_reset fun _ hc => absurd hc List.not_mem_nil

end

section
/-! SUPPORT. The register window: which offset answers for which register, what one host access does to a
core whose window it meets, and the bits of the words that registers hold (10_state R20 to R42). -/

namespace Sys2Proof.Machine

/-! ### The register map (R42) -/

/-- An array that starts at a word-aligned offset holds those of its words alone. -/
theorem arrayIndex_eq_some {base n off : Nat} {i : Fin n} (hbase : base % 4 = 0)
    (h : arrayIndex base n off = some i) : base + 4 * i.val = off := by
  unfold arrayIndex at h
  split at h
  next hin =>
    have hi : (off - base) / 4 = i.val := congrArg Fin.val (Option.some.inj h)
    omega
  next => cases h

/-- A register answers at its own offset. -/
@[simp] theorem regAt_regOffset (r : Reg) : regAt (regOffset r) = some r := by
  cases r with
  | thr i => exact (by decide : ∀ i : Fin 16, regAt (regOffset (.thr i)) = some (.thr i)) i
  | factor i => exact (by decide : ∀ i : Fin 16, regAt (regOffset (.factor i)) = some (.factor i)) i
  | di i => exact (by decide : ∀ i : Fin 28, regAt (regOffset (.di i)) = some (.di i)) i
  | dout i => exact (by decide : ∀ i : Fin 16, regAt (regOffset (.dout i)) = some (.dout i)) i
  | _ => rfl

/-- A register answers at no offset but its own. -/
theorem regOffset_of_regAt {off : Nat} {r : Reg} (h : regAt off = some r) : regOffset r = off := by
  unfold regAt at h
  split at h
  case h_19 =>
    simp only [Option.or_eq_some_iff, Option.map_eq_some_iff] at h
    rcases h with ⟨i, hi, rfl⟩ | ⟨-, ⟨i, hi, rfl⟩ | ⟨-, ⟨i, hi, rfl⟩ | ⟨-, i, hi, rfl⟩⟩⟩ <;>
      exact arrayIndex_eq_some (by decide) hi
  all_goals cases h; rfl

/-- Every register lies in the window, at a word-aligned offset (R20). -/
theorem regOffset_inside (r : Reg) : regOffset r < 4096 ∧ regOffset r % 4 = 0 := by
  cases r with
  | thr i => dsimp only [regOffset]; omega
  | factor i => dsimp only [regOffset]; omega
  | di i => dsimp only [regOffset]; omega
  | dout i => dsimp only [regOffset]; omega
  | _ => decide

/-! ### One access of the window (R20) -/

section
variable (s : State) (w : Word)

/-- Another width or alignment is refused by the bus. -/
theorem goodAccess_eq_false {off width : Nat} :
    goodAccess off width = false ↔ width ≠ 4 ∨ off % 4 ≠ 0 := by
  simp [goodAccess, Decidable.imp_iff_not_or]

theorem goodAccess_word {off : Nat} (h : off % 4 = 0) : goodAccess off 4 = true := by
  simp [goodAccess, h]

theorem serveRegWrite_refused {off width : Nat} (hin : off < 4096) (h : width ≠ 4 ∨ off % 4 ≠ 0) :
    serveRegWrite (s.params.regBase + off) width w s = { s with response := .busError } := by
  simp only [serveRegWrite, windowOffset_inside _ _ hin, goodAccess_eq_false.2 h]
  rfl

theorem serveRegRead_refused {off width : Nat} (hin : off < 4096) (h : width ≠ 4 ∨ off % 4 ≠ 0) :
    serveRegRead (s.params.regBase + off) width s = { s with response := .busError } := by
  simp only [serveRegRead, windowOffset_inside _ _ hin, goodAccess_eq_false.2 h]
  rfl

/-- A word write on an idle core: nothing at a reserved offset, the register's write elsewhere. -/
theorem serveRegWrite_idle {off : Nat} (hin : off < 4096) (hal : off % 4 = 0)
    (hb : s.status.busy = false) :
    serveRegWrite (s.params.regBase + off) 4 w s =
      { (regAt off).elim s (writeReg · w s) with response := .written } := by
  simp only [serveRegWrite, windowOffset_inside _ _ hin, goodAccess_word hal, hb]
  cases regAt off <;> rfl

/-- A word write on a busy core (R262). -/
theorem serveRegWrite_busy {off : Nat} (hin : off < 4096) (hal : off % 4 = 0)
    (hb : s.status.busy = true) :
    serveRegWrite (s.params.regBase + off) 4 w s =
      { writeRegBusy (regAt off) w s with response := .written } := by
  simp only [serveRegWrite, windowOffset_inside _ _ hin, goodAccess_word hal, hb]
  rfl

/-- A word read of a reserved offset, busy or idle. -/
theorem serveRegRead_reserved {off : Nat} (hin : off < 4096) (hal : off % 4 = 0)
    (hr : regAt off = none) :
    serveRegRead (s.params.regBase + off) 4 s = { s with response := .value 0 } := by
  simp only [serveRegRead, windowOffset_inside _ _ hin, goodAccess_word hal, hr]
  rfl

/-- A host write to a register of an idle core (R20 to R41). -/
theorem serveRegWrite_reg (r : Reg) (hb : s.status.busy = false) :
    serveRegWrite (s.params.regBase + regOffset r) 4 w s =
      { writeReg r w s with response := .written } := by
  obtain ⟨hin, hal⟩ := regOffset_inside r
  rw [serveRegWrite_idle s w hin hal hb, regAt_regOffset]
  rfl

/-- A host read of a register of an idle core (R20 to R41). -/
theorem serveRegRead_reg (r : Reg) (hb : s.status.busy = false) :
    serveRegRead (s.params.regBase + regOffset r) 4 s = { s with response := .value (readReg r s) } := by
  obtain ⟨hin, hal⟩ := regOffset_inside r
  simp only [serveRegRead, windowOffset_inside _ _ hin, goodAccess_word hal, regAt_regOffset, hb]
  rfl

/-- A host write to `STATUS` is performed whether a command executes or not (R25, R262). -/
theorem serveRegWrite_status :
    serveRegWrite (s.params.regBase + 0x014) 4 w s =
      { s with status := statusClear w s.status, response := .written } := by
  cases hb : s.status.busy with
  | false => exact serveRegWrite_reg s w .status hb
  | true => exact serveRegWrite_busy s w (by decide) (by decide) hb

end

/-! ### The words of the registers -/

theorem codeNumber_eq (c : ErrCode) : Claims.codeNumber c = errNumber c := by cases c <;> rfl

theorem errNumber_lt (c : ErrCode) : errNumber c < 2 ^ 8 := by cases c <;> decide

/-- A register reads as its fields, each at its place (R21 to R41). -/
theorem readReg_eq_regValue (r : Reg) (s : State) : readReg r s = Claims.regValue s r := by
  cases r with
  | paramOpt => simp only [readReg, Claims.regValue]; cases s.params.outClamp <;> rfl
  | status =>
    simp only [readReg, Claims.regValue, statusWord, codeNumber_eq]
    congr 1
    omega
  | ie =>
    simp only [readReg, Claims.regValue, ieWord]
    congr 1
    omega
  | fmt => simp only [readReg, Claims.regValue, fmtWord, Nat.pow_zero, Nat.mul_one]
  | qp => exact (BitVec.ofNat_toNat ..).symm
  | width => exact (BitVec.ofNat_toNat ..).symm
  | height => exact (BitVec.ofNat_toNat ..).symm
  | factor i => exact (BitVec.ofNat_toNat ..).symm
  | _ => rfl

/-- A bit of a written word, as the remainder that R25 and R26 name. -/
theorem getLsbD_eq_decide (w : Word) (i : Nat) : w.getLsbD i = decide (w.toNat / 2 ^ i % 2 = 1) :=
  Nat.testBit_eq_decide_div_mod_eq

/-- A write-one-to-clear flag stays exactly where its bit of `w` is 0 (R25). -/
theorem flag_clear_iff (b : Bool) (w : Word) (i : Nat) :
    (b && !w.getLsbD i) = true ↔ b = true ∧ w.toNat / 2 ^ i % 2 = 0 := by
  rw [getLsbD_eq_decide, Bool.and_eq_true, Bool.not_eq_true', decide_eq_false_iff_not,
    Nat.mod_two_not_eq_one]

theorem ieOfWord_eq (w : Word) :
    ieOfWord w = ⟨decide (w.toNat % 2 = 1), decide (w.toNat / 2 % 2 = 1)⟩ := by
  simp only [ieOfWord, getLsbD_eq_decide, Nat.pow_zero, Nat.pow_one, Nat.div_one]

theorem fmtOfWord_eq (w : Word) :
    fmtOfWord w = ⟨BitVec.ofNat 2 w.toNat, BitVec.ofNat 6 (w.toNat / 2 ^ 8)⟩ := by
  simp [fmtOfWord, BitVec.extractLsb', Nat.shiftRight_eq_div_pow]

/-! ### Reserved bits (R20) -/

/-- A mask and a word without a bit in common. -/
theorem and_eq_zero_of_getLsbD {x m : Word} (h : ∀ i : Fin 32, m.getLsbD i = true → x.getLsbD i = false) :
    x &&& m = 0 := by
  ext i hi
  have hbit : m[i] = true → x[i] = false := h ⟨i, hi⟩
  cases hm : m[i] <;> simp [hm, hbit]

/-- A number of `n` bits has no bit from bit `n` on. -/
theorem getLsbD_ofNat_eq_false {a n i : Nat} (ha : a < 2 ^ n) (hi : n ≤ i) :
    (BitVec.ofNat 32 a).getLsbD i = false := by
  rw [BitVec.getLsbD_ofNat, Nat.testBit_lt_two_pow (ha.trans_le (Nat.pow_le_pow_right (by omega) hi)),
    Bool.and_false]

/-- Two fields, the higher one at bit 8, leave the bits between and above them at 0. -/
theorem getLsbD_twoFields_eq_false {a b n m i : Nat} (ha : a < 2 ^ n) (hn : n ≤ 8) (hb : b < 2 ^ m)
    (hi : n ≤ i ∧ i < 8 ∨ 8 + m ≤ i) : (BitVec.ofNat 32 (a + b * 2 ^ 8)).getLsbD i = false := by
  have ha8 : a < 2 ^ 8 := ha.trans_le (Nat.pow_le_pow_right (by omega) hn)
  rw [BitVec.getLsbD_ofNat, show a + b * 2 ^ 8 = 2 ^ 8 * b + a by ring,
    Nat.testBit_two_pow_mul_add _ ha8]
  split_ifs with h8
  · rw [Nat.testBit_lt_two_pow (ha.trans_le (Nat.pow_le_pow_right (by omega) (by omega))), Bool.and_false]
  · rw [Nat.testBit_lt_two_pow (hb.trans_le (Nat.pow_le_pow_right (by omega) (by omega))), Bool.and_false]

/-- The reserved bits of `STATUS` read as 0 (R24). -/
theorem statusWord_reserved (st : Status) : statusWord st &&& 0xFFFF00C0#32 = 0 := by
  obtain ⟨flags, hflags, hword⟩ : ∃ flags < 2 ^ 6,
      statusWord st = BitVec.ofNat 32 (flags + errNumber st.errCode * 2 ^ 8) := by
    have := st.busy.toNat_le; have := st.done.toNat_le; have := st.err.toNat_le
    have := st.wovr.toNat_le; have := st.thrValid.toNat_le; have := st.extValid.toNat_le
    exact ⟨st.busy.toNat + 2 * st.done.toNat + 4 * st.err.toNat + 8 * st.wovr.toNat
      + 16 * st.thrValid.toNat + 32 * st.extValid.toNat, by omega, 
      by rw [statusWord, Nat.mul_comm 256]; rfl⟩
  rw [hword]
  exact and_eq_zero_of_getLsbD fun i hi =>
    getLsbD_twoFields_eq_false hflags (by decide) (errNumber_lt _)
      ((by decide : ∀ i : Fin 32, (0xFFFF00C0#32).getLsbD i = true →
        6 ≤ i.val ∧ i.val < 8 ∨ 8 + 8 ≤ i.val) i hi)

/-- The reserved bits of `FMT` read as 0 (R27). -/
theorem fmtWord_reserved (f : Fmt) : fmtWord f &&& 0xFFFFC0FC#32 = 0 :=
  and_eq_zero_of_getLsbD fun i hi =>
    getLsbD_twoFields_eq_false f.stype.isLt (by decide) f.bits.isLt
      ((by decide : ∀ i : Fin 32, (0xFFFFC0FC#32).getLsbD i = true →
        2 ≤ i.val ∧ i.val < 8 ∨ 8 + 6 ≤ i.val) i hi)

/-- A register with one field of `n` low bits reads its bits above them as 0. -/
theorem ofNat_and_eq_zero {a n : Nat} {m : Word} (ha : a < 2 ^ n)
    (hm : ∀ i : Fin 32, m.getLsbD i = true → n ≤ i.val) : BitVec.ofNat 32 a &&& m = 0 :=
  and_eq_zero_of_getLsbD fun i hi => getLsbD_ofNat_eq_false ha (hm i hi)

theorem statusClear_and (w : Word) (st : Status) :
    statusClear (w &&& 0x0000000E#32) st = statusClear w st := by
  simp [statusClear]

theorem ieOfWord_and (w : Word) : ieOfWord (w &&& 0x00000003#32) = ieOfWord w := by
  simp [ieOfWord]

theorem fmtOfWord_and (w : Word) : fmtOfWord (w &&& 0x00003F03#32) = fmtOfWord w := by
  simp only [fmtOfWord, BitVec.extractLsb'_and]
  congr 1
  · exact BitVec.and_allOnes
  · exact BitVec.and_allOnes

theorem setWidth_and_low (w : Word) : (w &&& 0x0000FFFF#32).setWidth 16 = w.setWidth 16 := by
  rw [BitVec.setWidth_and]
  exact BitVec.and_allOnes

end Sys2Proof.Machine
end

section
/-! SUPPORT. What reset leaves in the registers (R42, R250), what the step of a `CMD` write does (R200), and
what no command but `RUN` touches (R48, R60). -/

namespace Sys2Proof.Machine

open Sys2Proof.Claims

/-- Every register of a core at reset holds its reset value (R42). -/
theorem AtReset.readReg {u : State} (hu : AtReset u) (r : Reg) :
    readReg r u = resetValue u.params r := by
  rw [hu, readReg_eq_regValue]
  cases r with
  | thr i => simp [regValue, resetValue, State.reset]
  | di i => simp [regValue, resetValue, State.reset]
  | dout i => simp [regValue, resetValue, State.reset]
  | status => simp [regValue, resetValue, State.reset, codeNumber]
  | fmt => simp [regValue, resetValue, State.reset]
  | _ => rfl

theorem AtReset.irq {u : State} (hu : AtReset u) : u.irq = false := by rw [hu]; rfl

theorem AtReset.idle {u : State} (hu : AtReset u) : Idle u := by rw [hu]; exact ⟨rfl, rfl⟩

theorem AtReset.port {u : State} (hu : AtReset u) : u.port = [] := by rw [hu]; rfl

/-- The stimulus of `nextWritesCmd` issues its word on an idle core (R23, R200). -/
theorem serveRegWrite_cmd (w : Word) (s : State) (hb : s.status.busy = false) :
    serveRegWrite (s.params.regBase + 0x010) 4 w s = issued w s.script s :=
  serveRegWrite_reg s w .cmd hb

/-- The step that serves a `CMD` write on an idle core settles the issued word. -/
theorem step_of_nextWritesCmd {s : State} {w : Word} {rest : List HostEvent}
    (hb : s.status.busy = false) (hw : nextWritesCmd s w rest) :
    step s = execIssued (issued w rest s) := by
  have hserve : serve (.regWrite (s.params.regBase + 0x010) 4 w) { s with script := rest } =
      .next (issued w rest s) :=
    congrArg Host.Outcome.next (serveRegWrite_cmd w { s with script := rest } hb)
  rw [step, hostStep, hw]
  dsimp only
  rw [hserve]
  rfl

/-- What no command but a `RUN` changes: the scratch space, memory and the record of the port. -/
theorem exec_scratch {i : Instr} {s u : State} (hi : i ≠ .run) (h : exec i s = .next u) :
    u.port = s.port ∧ u.mem = s.mem ∧ u.ext = s.ext ∧ u.colc = s.colc ∧ u.block = s.block := by
  rcases exec_cases i s hi with ⟨c, -, -, he⟩ | ⟨_, _, _, _, _, _, _, he, -⟩
  · cases he.symm.trans h
    exact ⟨rfl, rfl, rfl, rfl, rfl⟩
  · cases he.symm.trans h
    exact ⟨rfl, rfl, rfl, rfl, rfl⟩

end Sys2Proof.Machine
end

section
open Sys2Proof Sys2Proof.Machine Sys2Proof.Claims

/-- Settles O5: the write issues the word, the time to the next stimulus settles it. -/
theorem stepIssuesAndRunsCommand : Obligations.StepIssuesAndRunsCommand := by
  intro s w rest i hb hw hd
  have hcmd : decode (issued w rest s).cmd = .ok i := hd
  rw [step_of_nextWritesCmd hb hw, execIssued, hcmd]

/-- Settles O7: power-on and the reset input both leave a core at reset. -/
theorem resetLeavesResetValues : Obligations.ResetLeavesResetValues :=
  have hon := atReset_reset
  ⟨hon.readReg, hon.irq, hon.idle, hon.port, fun s =>
    have hsig := atReset_resetSignal s
    ⟨resetSignal s, rfl, rfl, hsig.readReg, hsig.irq, hsig.idle, hsig.port⟩⟩

/-- Settles O13: every literal offset is that of its register, which answers there and nowhere else. -/
theorem registerMapIsOneToOne : Obligations.RegisterMapIsOneToOne := by
  refine ⟨rfl, rfl, rfl, rfl, rfl, rfl, rfl, rfl, rfl, rfl, rfl, rfl, rfl, rfl, rfl, rfl,
    fun i => regAt_regOffset (.thr i), fun i => regAt_regOffset (.factor i),
    fun i => regAt_regOffset (.di i), fun i => regAt_regOffset (.dout i), rfl, rfl, fun r => ?_,
    fun off r => regOffset_of_regAt⟩
  obtain ⟨hin, hal⟩ := regOffset_inside r
  exact ⟨hin, hal, regAt_regOffset r⟩

/-- Settles O14: refused accesses, reserved offsets, and the reserved bits of each register. -/
theorem windowAccessRules : Obligations.WindowAccessRules := by
  refine ⟨fun s off width data hin hbad => ?_, fun s off data hin hal hr => ?_, fun s => ?_,
    fun s w => ?_⟩
  · exact ⟨serveRegWrite_refused s data hin hbad, serveRegRead_refused s hin hbad⟩
  · refine ⟨serveRegRead_reserved s hin hal hr, fun hb => ?_⟩
    rw [serveRegWrite_idle s data hin hal hb, hr]
    rfl
  · simp only [readReg_eq_regValue .width, readReg_eq_regValue .height, readReg_eq_regValue .qp]
    refine ⟨statusWord_reserved _, ofNat_and_eq_zero (n := 2) ?_ (by decide), fmtWord_reserved _,
      ofNat_and_eq_zero s.width.isLt (by decide), ofNat_and_eq_zero s.height.isLt (by decide),
      ofNat_and_eq_zero s.qp.isLt (by decide), ofNat_and_eq_zero (n := 1) ?_ (by decide)⟩
    · have := s.ie.doneIe.toNat_le; have := s.ie.errIe.toNat_le; omega
    · exact s.params.outClamp.toNat_lt
  · simp only [writeReg, statusClear_and, ieOfWord_and, fmtOfWord_and, setWidth_and_low, and_self]

/-- Settles O15: each offset is a register's, whose write and read are those of the register. -/
theorem hostReadsWhatItWrote : Obligations.HostReadsWhatItWrote := by
  intro s hb
  refine ⟨fun w => ?_, fun r => ?_⟩
  · have hwr := fun r => serveRegWrite_reg s w r hb
    refine ⟨serveRegWrite_cmd w s hb, ?_, ?_, hwr .width, hwr .height, hwr .srcBase, hwr .srcStride,
      hwr .dstBase, hwr .dstStride, fun i => hwr (.thr i), fun i => hwr (.di i), hwr .accLo, hwr .accHi,
      ?_, fun i => ⟨hwr (.factor i), hwr (.dout i)⟩⟩
    · rw [← ieOfWord_eq]; exact hwr .ie
    · rw [← fmtOfWord_eq]; exact hwr .fmt
    · simp only [List.forall_mem_cons]
      exact ⟨hwr .id, hwr .paramMaxW, hwr .paramScratch, hwr .paramOpt, hwr .qp, hwr .errAddr,
        fun _ h => absurd h List.not_mem_nil⟩
  · rw [serveRegRead_reg s r hb, readReg_eq_regValue]

/-- Settles O16: a `STATUS` write is performed, busy or idle, and each flag it clears is one bit of `w`. -/
theorem statusWriteOneToClear : Obligations.StatusWriteOneToClear := by
  intro s w
  exact ⟨statusClear w s.status, serveRegWrite_status s w, flag_clear_iff _ w 1, flag_clear_iff _ w 2,
    flag_clear_iff _ w 3, rfl, rfl, rfl, rfl⟩

/-- Settles O17: the status of the state that each performed write leaves. -/
theorem formatAndGeometryWritesInvalidate : Obligations.FormatAndGeometryWritesInvalidate := fun s w hb =>
  ⟨congrArg State.status (serveRegWrite_reg s w .fmt hb),
    congrArg State.status (serveRegWrite_reg s w .width hb),
    congrArg State.status (serveRegWrite_reg s w .height hb)⟩

/-- Settles O18: the write of entry `i` is `Vector.set`, which the other entries do not see. -/
theorem thresholdWriteValidates : Obligations.ThresholdWriteValidates := by
  intro s w i hb
  have hw : serveRegWrite (s.params.regBase + 0x040 + 4 * i.val) 4 w s =
      { writeReg (.thr i) w s with response := .written } := by
    rw [Nat.add_assoc]; exact serveRegWrite_reg s w (.thr i) hb
  refine ⟨_, hw.symm, rfl, ?_, fun j hj => ?_, rfl, rfl⟩
  · exact Vector.getElem_set_self i.isLt
  · exact Vector.getElem_set_ne i.isLt j.isLt fun hij => hj (Fin.ext hij.symm)

/-- Settles O26: every other command ends in an error or changes only registers and the draws. -/
theorem onlyRunUsesThePort : Obligations.OnlyRunUsesThePort := fun _ _ _ => exec_scratch

end

section
/-! SUPPORT. A group of bytes as a number (R62), its bytes after a write (R63), and what a host access short
of reset leaves of a core: all of it while a command executes, `E` always (R74, R75, R262). -/

namespace Sys2Proof.Machine

/-! ### Groups of bytes -/

/-- The little-endian value of `n` bytes, as the sum of R62. -/
theorem readLE_eq_sum (m : Memory) (a n : Nat) :
    readLE m a n = ∑ k ∈ Finset.range n, (readByte m (a + k)).toNat * 2 ^ (8 * k) := by
  induction n generalizing a with
  | zero => rfl
  | succ n ih =>
    rw [readLE, ih, Finset.sum_range_succ', Finset.mul_sum, Nat.add_comm]
    simp only [Nat.add_zero, Nat.mul_zero, Nat.pow_zero, Nat.mul_one]
    congr 1
    refine Finset.sum_congr rfl fun k _ => ?_
    rw [Nat.add_right_comm, Nat.add_assoc, Nat.mul_add, Nat.pow_add]
    ring

theorem readLE_lt (m : Memory) (a n : Nat) : readLE m a n < 2 ^ (8 * n) := by
  rw [← readTorn_none m 0 (torn := fun _ => false) fun _ _ => rfl]
  exact readTorn_lt ..

/-- Up to four bytes fit the word that a read gives (R62). -/
theorem toNat_memRead (m : Memory) (a : Nat) {n : Nat} (hn : n ≤ 4) :
    (memRead m a n).toNat = readLE m a n := by
  have hpow : 2 ^ (8 * n) ≤ 2 ^ 32 := Nat.pow_le_pow_right (by norm_num) (by omega)
  rw [memRead, BitVec.toNat_ofNat, Nat.mod_eq_of_lt ((readLE_lt m a n).trans_le hpow)]

/-- Byte `k` of what was written (R63). -/
theorem toNat_readByte_memWrite {m : Memory} (a : Nat) {n k : Nat} (w : Word) (hm : m.wf = true)
    (hk : k < n) : (readByte (memWrite m a n w) (a + k)).toNat = w.toNat / 2 ^ (8 * k) % 2 ^ 8 := by
  rw [memWrite, readByte_writeLE a n _ k hm hk, BitVec.toNat_ofNat, Nat.pow_mul]

/-! ### Host accesses -/

/-- What a host access short of reset may change of a core that executes a command: the flags that R25 and
R262 name, `IE`, memory and the model's record of the host. -/
def BusyHostFrame (s t : State) : Prop :=
  t = { s with
    status := { s.status with done := t.status.done, err := t.status.err, wovr := t.status.wovr }
    ie := t.ie, mem := t.mem, races := t.races, response := t.response, seen := t.seen }

/-- A register write during a command reaches `STATUS` and `IE` only (R262). -/
theorem writeRegBusy_frame (r : Option Reg) (w : Word) (s : State) :
    BusyHostFrame s (writeRegBusy r w s) := by
  unfold writeRegBusy
  split <;> rfl

/-- Whatever the host does while a command executes, short of reset, keeps the frame. -/
theorem serve_busy_frame {a : HostAct} {s t : State} (hb : s.status.busy = true)
    (ha : a ≠ .resetCore) (h : serve a s = .next t) : BusyHostFrame s t := by
  cases a with
  | regWrite addr width data =>
    obtain rfl : serveRegWrite addr width data s = t := by injection h
    rcases serveRegWrite_cases addr width data s with
      hw | hw | ⟨-, r, hw⟩ | ⟨hidle, -⟩ | ⟨hidle, -⟩
    · rw [hw]; rfl
    · rw [hw]; rfl
    · have hr := writeRegBusy_frame r data s
      unfold BusyHostFrame at hr
      rw [hw, hr]; rfl
    · simp [hb] at hidle
    · simp [hb] at hidle
  | regRead addr width =>
    obtain rfl : serveRegRead addr width s = t := by injection h
    obtain ⟨r, n, hr⟩ := serveRegRead_frame addr width s
    rw [hr]; rfl
  | memWrite addr width data =>
    rcases serveMemWrite_cases addr width data s with hw | ⟨-, _, hw⟩
    · cases hw.symm.trans h
    · cases hw.symm.trans h; rfl
  | memRead addr width =>
    rcases serveMemRead_cases addr width s with hr | ⟨_, _, hr⟩
    · cases hr.symm.trans h
    · cases hr.symm.trans h; rfl
  | resetCore => exact absurd rfl ha

@[simp] theorem writeReg_ext (r : Reg) (w : Word) (s : State) : (writeReg r w s).ext = s.ext := by
  cases r <;> rfl

@[simp] theorem writeRegBusy_ext (r : Option Reg) (w : Word) (s : State) :
    (writeRegBusy r w s).ext = s.ext := by
  unfold writeRegBusy
  split <;> rfl

/-- No host access short of reset reaches the buffer `E` (R75, R265). -/
theorem serve_ext {a : HostAct} {s t : State} (ha : a ≠ .resetCore) (h : serve a s = .next t) :
    t.ext = s.ext := by
  cases a with
  | regWrite addr width data =>
    obtain rfl : serveRegWrite addr width data s = t := by injection h
    rcases serveRegWrite_cases addr width data s with
      hw | hw | ⟨-, r, hw⟩ | ⟨-, hw⟩ | ⟨-, r, hw⟩ <;> simp [hw]
  | regRead addr width =>
    obtain rfl : serveRegRead addr width s = t := by injection h
    obtain ⟨r, n, hr⟩ := serveRegRead_frame addr width s
    rw [hr]
  | memWrite addr width data =>
    rcases serveMemWrite_cases addr width data s with hw | ⟨-, _, hw⟩
    · cases hw.symm.trans h
    · cases hw.symm.trans h; rfl
  | memRead addr width =>
    rcases serveMemRead_cases addr width s with hr | ⟨_, _, hr⟩
    · cases hr.symm.trans h
    · cases hr.symm.trans h; rfl
  | resetCore => exact absurd rfl ha

/-- A host write inside the memory space, as a whole state (R88). -/
theorem serveMemWrite_inside {addr : Nat} {width : MemWidth} (w : Word) (s : State)
    (h : addr + widthBytes width ≤ 2 ^ 32) :
    serve (.memWrite addr width w) s = .next { s with
      mem := memWrite s.mem addr (widthBytes width) w
      races := if s.phase = .idle then s.races
        else ⟨addr, widthBytes width, memRead s.mem addr (widthBytes width)⟩ :: s.races
      response := .memWritten } := by
  unfold serve serveMemWrite
  exact if_neg (Nat.not_lt.2 h)

end Sys2Proof.Machine
end

section
open Sys2Proof Sys2Proof.Machine

/-- Settles O25: a group of bytes is the sum of its bytes, and a write reaches its own bytes only. -/
theorem memoryIsLittleEndian : Obligations.MemoryIsLittleEndian := by
  intro m a n w hm hn
  refine ⟨?_, ?_, fun k hk => toNat_readByte_memWrite a w hm hk,
    fun b hb => readByte_memWrite_other w hb, wf_memWrite a n w hm⟩
  · rw [toNat_memRead _ _ hn, memWrite, readLE_writeLE a n _ hm, Nat.pow_mul]
  · rw [toNat_memRead _ _ hn, readLE_eq_sum]

/-- Settles O22: the operands lie outside the frame of a busy core's host access, `E` outside that of
every access, and a host write to memory is `memWrite`. -/
theorem operandsFixedWhileBusy : Obligations.OperandsFixedWhileBusy := by
  refine ⟨fun s t a hb ha h => ?_, fun s t a ha h => serve_ext ha h, fun s addr width w hin => ?_⟩
  · have hframe := serve_busy_frame hb ha h
    unfold BusyHostFrame at hframe
    rw [hframe]
    exact ⟨rfl, rfl, rfl, rfl, rfl, rfl, rfl, rfl, rfl, rfl, rfl, rfl, rfl, rfl, rfl, rfl, rfl, rfl⟩
  · exact ⟨_, serveMemWrite_inside w s hin, rfl, fun hidle => if_pos hidle,
      fun hm k hk => toNat_readByte_memWrite addr w hm hk, fun b hb => readByte_memWrite_other w hb⟩

end

section
/-! SUPPORT. The words of the claims about a `RUN` in the terms of the model: formats, checks, accesses and
the source plane as it is read (R28, R61, R68, R207, R263); then the ends of a `RUN`, answered or not. -/

namespace Sys2Proof.Machine

open Sys2Proof.Claims

/-! ### Formats and checks -/

/-- The integer formats of the claims are those of the integer domain (R27, R28). -/
theorem intFormat_iff {s : State} {bytes peak : Nat} :
    IntFormat s bytes peak ↔
      ∃ f, formatOf s.fmt = some f ∧ isFloat f = false ∧ sampleBytes f = bytes ∧ peakOf f = peak := by
  constructor
  · rintro (⟨ht, hb, rfl, rfl⟩ | ⟨ht, h9, h16, rfl, rfl⟩)
    · exact ⟨.u8, formatOf_u8.2 ⟨ht, by rw [hb]; rfl⟩, rfl, rfl, rfl⟩
    · exact ⟨.u16 _, formatOf_u16.2 ⟨ht, h9, h16, rfl⟩, rfl, rfl, rfl⟩
  · rintro ⟨f, hf, hint, rfl, rfl⟩
    cases f with
    | u8 =>
      obtain ⟨ht, hb⟩ := formatOf_u8.1 hf
      exact .inl ⟨ht, BitVec.eq_of_toNat_eq hb, rfl, rfl⟩
    | u16 b =>
      obtain ⟨ht, h9, h16, rfl⟩ := formatOf_u16.1 hf
      exact .inr ⟨ht, h9, h16, rfl, rfl⟩
    | f32 => cases hint

/-- The float format of the claims (R27, R28). -/
theorem fltFormat_iff {s : State} : FltFormat s ↔ formatOf s.fmt = some .f32 := by
  rw [formatOf_f32]
  exact and_congr_right fun _ => ⟨fun h => by rw [h]; rfl, fun h => BitVec.eq_of_toNat_eq h⟩

/-- A legal format is one that `formatOf` knows, with its storage size (R28). -/
theorem legalFormat_iff {s : State} {bytes : Nat} :
    LegalFormat s bytes ↔ ∃ f, formatOf s.fmt = some f ∧ sampleBytes f = bytes := by
  unfold LegalFormat
  simp only [intFormat_iff, fltFormat_iff]
  constructor
  · rintro (⟨_, f, hf, -, hb, -⟩ | ⟨hf, rfl⟩)
    · exact ⟨f, hf, hb⟩
    · exact ⟨.f32, hf, rfl⟩
  · rintro ⟨f, hf, rfl⟩
    cases f with
    | f32 => exact .inr ⟨hf, rfl⟩
    | u8 => exact .inl ⟨_, _, hf, rfl, rfl, rfl⟩
    | u16 b => exact .inl ⟨_, _, hf, rfl, rfl, rfl⟩

/-- One plane descriptor passes the checks of R207. -/
theorem badPlane_eq_false_iff {f : SampleFormat} {W H : Nat} {base stride : Word} :
    badPlane f W H base stride = false ↔ PlaneOk base stride (sampleBytes f) W H := by
  simp only [badPlane, Bool.or_eq_false_iff, decide_eq_false_iff_not, not_not, not_lt, not_le, and_assoc]
  rfl

/-- The geometry checks of R207. -/
theorem badGeometry_eq_false_iff {f : SampleFormat} {s : State} :
    badGeometry f s = false ↔ GeometryOk (sampleBytes f) s := by
  simp only [badGeometry, Bool.or_eq_false_iff, decide_eq_false_iff_not, not_not, badPlane_eq_false_iff,
    and_assoc]
  rfl

/-- The capacity check of R207 and R223. -/
theorem overCapacity_eq_false_iff {f : SampleFormat} {s : State} :
    overCapacity f s = false ↔ CapacityOk (sampleBytes f) s := by
  simp only [overCapacity, Bool.or_eq_false_iff, decide_eq_false_iff_not, not_lt]
  rfl

/-- A `RUN` that passes its checks has a format and a legal geometry, and runs from the start of `EXTEND`
(R206, R207). -/
theorem exec_run_of_ready {s : State} {bytes : Nat} (h : RunReady bytes s) :
    ∃ f, sampleBytes f = bytes ∧ formatOf s.fmt = some f ∧ badGeometry f s = false ∧
      exec .run s = .next (runToEnd (beginExtend s)) := by
  obtain ⟨hlegal, hgeom, hcap, hthr⟩ := h
  obtain ⟨f, hf, rfl⟩ := legalFormat_iff.1 hlegal
  have hg := badGeometry_eq_false_iff.2 hgeom
  have hc : runCheck s = none := by
    simp [runCheck, hf, hg, overCapacity_eq_false_iff.2 hcap, hthr]
  exact ⟨f, rfl, hf, hg, by rw [exec, execRun, runStart_ok hc]⟩

/-! ### Accesses and samples -/

/-- The accesses of a whole phase, as the claims list them (R68). -/
theorem accessesBefore_all (write : Bool) (addr : Nat → Nat → Nat) (S W H : Nat) :
    accessesBefore write addr S W H 0 =
      (rowMajor H W).map fun q => ⟨write, addr q.1 q.2, S⟩ := by
  simp [accessesBefore, rowMajor, List.map_flatMap, Function.comp_def]

/-- How many accesses have been made before sample `(y, x)` of a phase. -/
theorem length_port {s : State} {log : List PortAccess} {write : Bool} {addr : Nat → Nat → Nat}
    {S W y x : Nat} (h : s.port.reverse = log ++ accessesBefore write addr S W y x) :
    s.port.length = log.length + (y * W + x) := by
  rw [← List.length_reverse, h, List.length_append, length_accessesBefore]

theorem sample_eq (bytes : Nat) (s : State) (y x : Nat) :
    sample bytes s y x = memRead s.mem (srcAt bytes s y x) bytes := by
  rw [memRead, readLE_eq_sum]; rfl

theorem stored_eq (bytes : Nat) (s : State) (m : Memory) (y x : Nat) :
    stored bytes s m y x = memRead m (dstAt bytes s y x) bytes := by
  rw [memRead, readLE_eq_sum]; rfl

theorem meets_iff {f : SampleFormat} {s : State} {y x : Nat} {r : HostRace} :
    Meets (sampleBytes f) s y x r ↔
      overlaps r.addr r.width (srcAddr f s y x) (sampleBytes f) = true := by
  simp only [overlaps, Bool.and_eq_true, decide_eq_true_eq]
  rfl

/-- Every read of a `RUN` gives a value that R263 allows. -/
theorem sourceRead_sourceSample (f : SampleFormat) (s : State) (y x : Nat) :
    SourceRead (sampleBytes f) s y x (sourceSample f s y x) := by
  have hlt : (memRead s.mem (srcAddr f s y x) (sampleBytes f)).toNat < 2 ^ (8 * sampleBytes f) := by
    rw [toNat_memRead _ _ (sampleBytes_le f)]
    exact readLE_lt ..
  have hcases := loadSample_cases (s.drawn + Config.drawStride * (y * s.planeW + x)) (srcAddr f s y x)
    (sampleBytes f) s
  rw [← sourceSample] at hcases
  simp only [SourceRead, meets_iff, sample_eq]
  rcases hcases with ⟨-, hv⟩ | ⟨⟨r, hr, ho⟩, -, hv⟩ | ⟨⟨r, hr, ho, htorn⟩, hv⟩
  · exact ⟨fun _ => hv, fun _ => .inl hv, .inl (by rwa [hv])⟩
  · exact ⟨fun hno => absurd ho (hno r hr), fun _ => hv, hv.imp_left fun hv => by rwa [hv]⟩
  · refine ⟨fun hno => absurd ho (hno r hr), fun hall => absurd (hall r hr ho) htorn, .inl ?_⟩
    rw [hv, BitVec.toNat_ofNat]
    exact (Nat.mod_le _ _).trans_lt (Nat.mod_lt _ (by positivity))

theorem sourcePlane_sourceSample (f : SampleFormat) (s : State) :
    SourcePlane (sampleBytes f) s (sourceSample f s) :=
  fun y _ x _ => sourceRead_sourceSample f s y x

/-! ### The ends of a `RUN` -/

section
variable {f : SampleFormat} {s : State} (hf : formatOf s.fmt = some f) (hg : badGeometry f s = false)
include hf hg

/-- A `RUN` whose reads are answered gets to its first write with the buffer complete. -/
theorem run_reaches_filter (hr : ReadsAnswered (sampleBytes f) s) :
    ∃ u, runToEnd (beginExtend s) = runToEnd u ∧ BufferDone f s u.ext ∧
      FilterInv f s u.ext
        (s.port.reverse ++ accessesBefore false (srcAddr f s) (sampleBytes f) s.planeW s.planeH 0)
        0 0 u :=
  ExtendInv.toFilter hf hg hr _ (ExtendInv.start hg) le_rfl

/-- A `RUN` whose accesses are answered makes every write. -/
theorem run_reaches_done (hr : ReadsAnswered (sampleBytes f) s) (hw : WritesAnswered (sampleBytes f) s) :
    ∃ e, BufferDone f s e ∧
      FilterDone f s e
        (s.port.reverse ++ accessesBefore false (srcAddr f s) (sampleBytes f) s.planeW s.planeH 0)
        (runToEnd (beginExtend s)) := by
  obtain ⟨u, hu, hbuf, hinv⟩ := run_reaches_filter hf hg hr
  exact ⟨u.ext, hbuf, hu ▸ hinv.toDone hf hg hw _ le_rfl⟩

/-- A `RUN` whose first failing read is that of `(y, x)` ends there. -/
theorem run_ends_at_failed_read {y x : Nat} (hy : y < s.planeH) (hx : x < s.planeW)
    (hbad : busFaultAt s.params (srcAddr f s y x) false = true)
    (hok : ∀ y' < s.planeH, ∀ x' < s.planeW, EarlierSample y' x' y x →
      busFaultAt s.params (srcAddr f s y' x') false = false) :
    ∃ u, ExtendInv f s y x u ∧
      runToEnd (beginExtend s) = raiseError .busError (BitVec.ofNat 32 (srcAddr f s y x))
        (drawOn (portIssue false (srcAddr f s y x) (sampleBytes f) u)) := by
  have hfrom : EarlierSample 0 0 y x ∨ 0 = y ∧ 0 = x := by unfold EarlierSample; omega
  obtain ⟨u, hu, hinv⟩ := ExtendInv.toFailure hf hg hy hx hok _ (ExtendInv.start hg) hfrom le_rfl
  refine ⟨u, hinv, ?_⟩
  rw [hu, ← runToEnd_runTick u (.inl hinv.phase), hinv.fails hf hbad]
  exact runToEnd_of_idle _ rfl

/-- A `RUN` whose first failing write is that of `(y, x)` ends there. -/
theorem run_ends_at_failed_write (hr : ReadsAnswered (sampleBytes f) s) {y x : Nat} (hy : y < s.planeH)
    (hx : x < s.planeW) (hbad : busFaultAt s.params (dstAddr f s y x) true = true)
    (hok : ∀ y' < s.planeH, ∀ x' < s.planeW, EarlierSample y' x' y x →
      busFaultAt s.params (dstAddr f s y' x') true = false) :
    ∃ e u, BufferDone f s e ∧
      FilterInv f s e
        (s.port.reverse ++ accessesBefore false (srcAddr f s) (sampleBytes f) s.planeW s.planeH 0)
        y x u ∧
      runToEnd (beginExtend s) = raiseError .busError (BitVec.ofNat 32 (dstAddr f s y x))
        (filterStored f u (dstAddr f s y x) (sampleBytes f) (Config.freeMem u.drawn)) := by
  have hfrom : EarlierSample 0 0 y x ∨ 0 = y ∧ 0 = x := by unfold EarlierSample; omega
  obtain ⟨u₀, hu₀, hbuf, hinv₀⟩ := run_reaches_filter hf hg hr
  obtain ⟨u, hu, hinv⟩ := FilterInv.toFailure hf hg hy hx hok _ hinv₀ hfrom le_rfl
  refine ⟨_, u, hbuf, hinv, ?_⟩
  rw [hu₀, hu, ← runToEnd_runTick u (.inr hinv.phase), hinv.tick hf, if_pos hbad]
  exact runToEnd_of_idle _ rfl

end

/-- A sample address is a 32-bit number, so `ERRADDR` holds it whole (R33, R61). -/
theorem toNat_ofNat_addr {a n : Nat} (h : a + n ≤ 2 ^ 32) (hn : 0 < n) : (BitVec.ofNat 32 a).toNat = a := by
  rw [BitVec.toNat_ofNat, Nat.mod_eq_of_lt (by omega)]

end Sys2Proof.Machine
end

section
open Sys2Proof Sys2Proof.Machine Sys2Proof.Claims

/-- Settles O54: the state after the last write keeps the frame of every step of a `RUN`. -/
theorem runCompletesWithItsFrame : Obligations.RunCompletesWithItsFrame := by
  intro s bytes hready hr hw
  obtain ⟨f, rfl, hf, hg, hrun⟩ := exec_run_of_ready hready
  obtain ⟨e, -, hdone⟩ := run_reaches_done hf hg hr hw
  refine ⟨_, hrun, fun a ha => hdone.kept a fun y x hy hx => ?_, ?_⟩
  · by_contra! hin
    obtain ⟨hlo, hhi⟩ := hin
    exact ha ⟨y, hy, x, hx, hlo, hhi⟩
  · have hframe := hdone.frame
    unfold RunFrame at hframe
    rwa [hdone.status, hdone.errAddr, hdone.phase] at hframe

/-- Settles O57: the log after the last write is that of the two phases, one after the other. -/
theorem runAccessOrder : Obligations.RunAccessOrder := by
  intro s t bytes hready hr hw hexec
  obtain ⟨f, rfl, hf, hg, hrun⟩ := exec_run_of_ready hready
  obtain ⟨e, -, hdone⟩ := run_reaches_done hf hg hr hw
  cases hrun.symm.trans hexec
  rw [hdone.port, accessesBefore_all, accessesBefore_all]
  rfl

/-- Settles O58: the `RUN` gets to the failing read with memory untouched, and ends there. -/
theorem runStopsAtFailedRead : Obligations.RunStopsAtFailedRead := by
  intro s bytes y x hready hy hx hbad hok
  obtain ⟨f, rfl, hf, hg, hrun⟩ := exec_run_of_ready hready
  obtain ⟨u, hinv, hend⟩ := run_ends_at_failed_read hf hg hy hx hbad hok
  rw [hend] at hrun
  refine ⟨_, hrun, ?_, toNat_ofNat_addr (srcAddr_bound hg hy hx) (sampleBytes_pos f), ?_, rfl, rfl, ?_⟩
  · simp only [raiseError_status, drawOn_status, portIssue_status, hinv.status]
    rfl
  · simp only [raiseError_mem, drawOn_mem, portIssue_mem, hinv.mem]
  · simp only [raiseError_port, drawOn_port, portIssue_port, List.length_cons, length_port hinv.port,
      List.length_reverse]
    rfl

end

section
/-! SUPPORT. What the datapath computes for one output sample, in the closed forms of the rules: the butterfly
by output index (R121, R122, R128), the block (R141 to R143), the scorer (R162, R165) and the quantizer
(R180, R181); and so what a `RUN` writes for each sample (R208). -/

namespace Sys2Proof.Machine

open Sys2Proof.Claims

/-! ### Outputs and inputs by index -/

/-- Output `k` of a butterfly. -/
def quadAt {α : Type} (q : Quad α) : Nat → α
  | 0 => q.t0
  | 1 => q.t1
  | 2 => q.t2
  | _ => q.t3

theorem quadAt_quadMap {α β : Type} (g : α → β) (q : Quad α) (k : Nat) :
    quadAt (quadMap g q) k = g (quadAt q k) := by
  unfold quadAt
  split <;> rfl

theorem sevenMap_taps {α β : Type} (g : α → β) (a : Nat → α) :
    sevenMap g (taps a) = taps fun n => g (a n) := rfl

/-- Entry `4·h + v` of the block is output `h` of the butterfly on outputs `v` (R142). -/
theorem getElem_blockOf {α : Type} (u : Nat → Quad α) {h v : Nat} (hh : h < 4) (hv : v < 4) :
    (blockOf (u 0) (u 1) (u 2) (u 3))[4 * h + v] = quadAt (u v) h := by
  interval_cases h <;> interval_cases v <;> rfl

/-- The four butterflies of Stage B by their index (R141). -/
theorem stageB_eq (n : Nat) (flt : Bool) (a : Seven (Quad Coef)) :
    stageB n flt a =
      let u := fun k => stageBRow (n + k * bfDraws) flt (sevenMap (quadAt · k) a)
      blockOf (u 0) (u 1) (u 2) (u 3) := by
  simp only [Nat.zero_mul, Nat.one_mul, Nat.add_zero]
  rfl

theorem getElem_stageB (n : Nat) (flt : Bool) (a : Seven (Quad Coef)) {h v : Nat} (hh : h < 4)
    (hv : v < 4) :
    (stageB n flt a)[4 * h + v] =
      quadAt (stageBRow (n + v * bfDraws) flt (sevenMap (quadAt · v) a)) h := by
  simp only [stageB_eq]
  exact getElem_blockOf (fun k => stageBRow (n + k * bfDraws) flt (sevenMap (quadAt · k) a)) hh hv

theorem getElem_sixteen {α : Type} (g : Nat → α) (i : Fin 16) : (sixteen g)[i] = g i.val := by
  fin_cases i <;> rfl

theorem getElem_eq_getD {α : Type} (v : Vector α 16) (d : α) (i : Fin 16) :
    v[i] = v.toList.getD i.val d := by
  simp

/-! ### The butterflies -/

/-- `BF_INT` as the weighted sums of R128. -/
theorem quadAt_bfInt (a : Nat → Int) {k : Nat} (hk : k < 4) :
    quadAt (bfInt (taps a)) k = butterfly k a := by
  have hsum : butterfly k a = weight k 0 * a 0 + weight k 1 * a 1 + weight k 2 * a 2 + weight k 3 * a 3
      + weight k 4 * a 4 + weight k 5 * a 5 + weight k 6 * a 6 := by
    simp [butterfly, Finset.sum_range_succ]
  rw [hsum]
  interval_cases k <;> simp [quadAt, taps, weight, bfInt_t0, bfInt_t1, bfInt_t2, bfInt_t3] <;> ring

theorem preScale_255 (n : Nat) (w : Word) : preScale n 255 w = fmul n w 0x437F0000#32 := if_pos rfl

theorem preScale_1 (n : Nat) (w : Word) : preScale n 1 w = w := if_neg (by decide)

/-- `BF_FLT` with pre-scale, step by step (R122). -/
theorem quadAt_bfFlt_255 (n : Nat) (a : Nat → Word) (k : Nat) :
    quadAt (bfFlt n 255 (taps a)) k = butterflyFlt255 (fun i => n + i) a k := by
  match k with
  | 0 | 1 | 2 | _ + 3 =>
    simp only [quadAt, butterflyFlt255, fltStages, bfFlt, taps, preScale_255, Nat.add_zero]

/-- `BF_FLT` without pre-scale, step by step (R122). -/
theorem quadAt_bfFlt_1 (n : Nat) (a : Nat → Word) (k : Nat) :
    quadAt (bfFlt n 1 (taps a)) k = butterflyFlt1 (fun i => n + i) a k := by
  match k with
  | 0 | 1 | 2 | _ + 3 =>
    simp only [quadAt, butterflyFlt1, fltStages, bfFlt, taps, preScale_1, Nat.add_zero]

/-- Stage A in the integer domain (R123). -/
theorem quadAt_stageA_int (n p : Nat) (e : List Word) (r c : Nat) {k : Nat} (hk : k < 4) :
    quadAt (stageA n false p e r c) k = .int (butterfly k fun j => (extAt p e (r + j) c).toNat) := by
  rw [← quadAt_bfInt _ hk]
  exact quadAt_quadMap Coef.int _ k

/-- Stage A in the float domain (R123). -/
theorem quadAt_stageA_flt (n p : Nat) (e : List Word) (r c k : Nat) :
    quadAt (stageA n true p e r c) k =
      .flt (butterflyFlt255 (fun i => n + i) (fun j => extAt p e (r + j) c) k) := by
  rw [← quadAt_bfFlt_255]
  exact quadAt_quadMap Coef.flt _ k

/-- One butterfly of Stage B in the integer domain (R141). -/
theorem quadAt_stageBRow_int (n : Nat) (a : Nat → Coef) {k : Nat} (hk : k < 4) :
    quadAt (stageBRow n false (taps a)) k = .int (butterfly k fun j => coefInt (a j)) := by
  rw [← quadAt_bfInt _ hk]
  exact quadAt_quadMap Coef.int _ k

/-- One butterfly of Stage B in the float domain (R141). -/
theorem quadAt_stageBRow_flt (n : Nat) (a : Nat → Coef) (k : Nat) :
    quadAt (stageBRow n true (taps a)) k =
      .flt (butterflyFlt1 (fun i => n + i) (fun j => coefFlt (a j)) k) := by
  rw [← quadAt_bfFlt_1]
  exact quadAt_quadMap Coef.flt _ k

/-! ### The block -/

/-- Two butterflies, one on the results of the other, as the double sum of R143. -/
theorem butterfly_butterfly (h v : Nat) (a : Nat → Nat → Int) :
    butterfly h (fun n => butterfly v (a n)) =
      ∑ n ∈ Finset.range 7, ∑ j ∈ Finset.range 7, weight h n * weight v j * a n j := by
  simp only [butterfly, Finset.mul_sum, mul_assoc]

/-- The block of a window in the integer domain (R141). -/
theorem getElem_stageB_int (n p r c : Nat) (d : Nat → Nat) (e : List Word) {h v : Nat} (hh : h < 4)
    (hv : v < 4) :
    (stageB n false (taps fun m => stageA (d m) false p e r (c + m)))[4 * h + v] =
      .int (butterfly h fun m => butterfly v fun j => (extAt p e (r + j) (c + m)).toNat) := by
  rw [getElem_stageB _ _ _ hh hv, sevenMap_taps, quadAt_stageBRow_int _ _ hh]
  simp only [quadAt_stageA_int _ _ _ _ _ hv, coefInt]

/-- The block of a window in the float domain (R141). -/
theorem getElem_stageB_flt (n p r c : Nat) (d : Nat → Nat) (e : List Word) {h v : Nat} (hh : h < 4)
    (hv : v < 4) :
    (stageB n true (taps fun m => stageA (d m) true p e r (c + m)))[4 * h + v] =
      .flt (butterflyFlt1 (fun i => n + v * bfDraws + i)
        (fun m => butterflyFlt255 (fun i => d m + i) (fun j => extAt p e (r + j) (c + m)) v) h) := by
  rw [getElem_stageB _ _ _ hh hv, sevenMap_taps, quadAt_stageBRow_flt]
  simp only [quadAt_stageA_flt, coefFlt]

theorem butterflyFlt255_congr (d : Nat → Nat) {a a' : Nat → Word} (h : ∀ j < 7, a j = a' j) (k : Nat) :
    butterflyFlt255 d a k = butterflyFlt255 d a' k := by
  unfold butterflyFlt255
  rw [h 0 (by omega), h 1 (by omega), h 2 (by omega), h 3 (by omega), h 4 (by omega), h 5 (by omega),
    h 6 (by omega)]

theorem butterflyFlt1_congr (d : Nat → Nat) {a a' : Nat → Word} (h : ∀ j < 7, a j = a' j) (k : Nat) :
    butterflyFlt1 d a k = butterflyFlt1 d a' k := by
  unfold butterflyFlt1
  rw [h 0 (by omega), h 1 (by omega), h 2 (by omega), h 3 (by omega), h 4 (by omega), h 5 (by omega),
    h 6 (by omega)]

/-! ### The integer scorer -/

/-- The first test of R162, on residues. -/
theorem outsideBand_iff (b : Int) (t1 : Nat) :
    outsideBand b t1 = true ↔ 2 * (t1 : Int) % 2 ^ 32 < (b + t1) % 2 ^ 32 := by
  rw [outsideBand, decide_eq_true_eq, gt_iff_lt, ← Int.ofNat_lt, u32_eq, u32_eq]

/-- The second test of R162, on residues. -/
theorem isLarge_iff (b : Int) (t1 : Nat) :
    isLarge b t1 = true ↔
      2 * (2 * (t1 : Int) % 2 ^ 32) % 2 ^ 32 < (b + 2 * (t1 : Int) % 2 ^ 32) % 2 ^ 32 := by
  rw [isLarge, decide_eq_true_eq, gt_iff_lt, ← Int.ofNat_lt, u32_eq, u32_eq, u32_eq]

theorem contribInt_eq (b : Int) (t1 factor : Nat) : contribInt b t1 factor = contribution b t1 factor := by
  simp only [contribInt, contribution, outsideBand_iff, isLarge_iff, Int.natCast_natAbs]

theorem sum_nonDc (g : Nat → Int) : (nonDc.map fun i => g i.val).sum = ∑ i ∈ Finset.Icc 1 15, g i := rfl

/-- `SCORE_INT` is the sum of R162. -/
theorem scoreInt_sixteen (block : Nat → Int) (thr : Vector Word 16) (factor : Vector (BitVec 16) 16) :
    scoreInt (sixteen block) thr factor = scoreSum block thr factor := by
  rw [scoreInt_eq_sum, scoreSum, ← sum_nonDc]
  simp only [contribInt_eq, getElem_sixteen, getElem_eq_getD thr 0, getElem_eq_getD factor 0]
  rfl

theorem scoreSum_congr {block block' : Nat → Int} (h : ∀ i < 16, block i = block' i)
    (thr : Vector Word 16) (factor : Vector (BitVec 16) 16) :
    scoreSum block thr factor = scoreSum block' thr factor := by
  unfold scoreSum
  rw [h 0 (by omega)]
  congr 1
  refine Finset.sum_congr rfl fun i hi => ?_
  rw [h i (by have := Finset.mem_Icc.1 hi; omega)]

/-! ### The float scorer -/

/-- `trunc` of the model is division toward zero (R13). -/
theorem truncInt_eq (w : Word) : truncInt w = (valUnits w).tdiv (2 ^ 149) := by
  unfold truncInt valUnits
  split_ifs
  · rw [Int.neg_tdiv]; rfl
  · rfl

/-- `CVT_U32` gives a value that R166 allows. -/
theorem convertsTo_cvtU32 (n : Nat) (b : Word) : ConvertsTo b (cvtU32 n b) := by
  unfold cvtU32
  refine ⟨?_, fun hnan hinf hlt => ?_⟩
  · split_ifs
    · exact (Config.freeCvt n).isLt
    · exact u32_lt _
  · rw [← truncInt_eq, Int.abs_eq_natAbs] at hlt
    have hsmall : ¬2 ^ 63 ≤ (truncInt b).natAbs := by omega
    simp only [hnan, hinf, hsmall, decide_false, Bool.or_false, Bool.false_eq_true, if_false]
    rw [u32_eq, truncInt_eq]

theorem fPos_iff (b : Word) : fPos b = true ↔ isNaN b = false ∧ 0 < valUnits b := by
  unfold fPos valUnits
  cases hs : fSign b
  · simp [Nat.pos_iff_ne_zero]
  · simp

theorem fZero_iff (b : Word) : fZero b = true ↔ b = 0x00000000#32 ∨ b = 0x80000000#32 := by
  rw [← fNeg_eq_negZero_iff, eq_negZero_iff, eq_negZero_iff, magUnits_fNeg, fSign_fNeg,
    magUnits_eq_zero_iff]
  cases fSign b <;> simp [fZero]

/-- One coefficient of `SCORE_FLT` is the contribution of R165. -/
theorem addFlt_eq (n : Nat) (v b : Word) (t1 factor : Nat) :
    addFlt n v b t1 factor =
      addContributionFlt (fun k => n + (4 - k)) (cvtU32 n b) v b t1 factor := by
  have hband : outsideBand (cvtU32 n b) t1 = true ↔ 2 * t1 % 2 ^ 32 < (cvtU32 n b + t1) % 2 ^ 32 := by
    rw [outsideBand_iff]; omega
  have hlarge : isLarge (cvtU32 n b) t1 = true ↔
      2 * (2 * t1 % 2 ^ 32) % 2 ^ 32 < (cvtU32 n b + 2 * t1 % 2 ^ 32) % 2 ^ 32 := by
    rw [isLarge_iff]; omega
  simp only [addFlt, addContributionFlt, hband, hlarge, fPos_iff, fZero_iff]
  rfl

/-- The draws of coefficient `i` in the scorer whose first draw is `n`, in the order in which
`addContributionFlt` names them. -/
def scoreDraws (n i k : Nat) : Nat := if i = 0 then n else n + 8 * i + (4 - k)

theorem scoreDraws_succ (n i : Nat) : scoreDraws n (i + 1) = fun k => n + 8 * (i + 1) + (4 - k) := rfl

/-- The accumulation of R165 as one pass over the coefficients in ascending order (R168). -/
theorem scoreSumFlt_eq_foldl (d : Nat → Nat → Nat) (c : Nat → Nat) (block : Nat → Word)
    (thr : Vector Word 16) (factor : Vector (BitVec 16) 16) (m : Nat) :
    scoreSumFlt d c block thr factor m =
      (List.range m).foldl
        (fun v i => addContributionFlt (d (i + 1)) (c (i + 1)) v (block (i + 1))
          (thr.toList.getD (i + 1) 0).toNat (factor.toList.getD (i + 1) 0).toNat)
        (fmul (d 0 0) (block 0) (f32 factor[0].toNat)) := by
  induction m with
  | zero => rfl
  | succ m ih => rw [scoreSumFlt, ih, List.range_succ, List.foldl_append, List.foldl_cons, List.foldl_nil]

theorem foldl_nonDc {α : Type} (g : α → Nat → α) (v : α) :
    nonDc.foldl (fun v i => g v i.val) v = (List.range 15).foldl (fun v i => g v (i + 1)) v := rfl

/-- `SCORE_FLT` is the accumulation of R165. -/
theorem scoreFlt_sixteen (n : Nat) (block : Nat → Word) (thr : Vector Word 16)
    (factor : Vector (BitVec 16) 16) :
    scoreFlt n (sixteen block) thr factor =
      scoreSumFlt (scoreDraws n) (fun i => cvtU32 (n + 8 * i) (block i)) block thr factor 15 := by
  have hblock : (sixteen block)[0] = block 0 := rfl
  rw [scoreSumFlt_eq_foldl, scoreFlt, hblock]
  simp only [addFlt_eq, getElem_sixteen, getElem_eq_getD thr 0, getElem_eq_getD factor 0,
    scoreDraws_succ]
  exact foldl_nonDc (fun v i => addContributionFlt (fun k => n + 8 * i + (4 - k))
    (cvtU32 (n + 8 * i) (block i)) v (block i) (thr.toList.getD i 0).toNat
    (factor.toList.getD i 0).toNat) _

theorem scoreSumFlt_congr {d d' : Nat → Nat → Nat} (c : Nat → Nat) (block : Nat → Word)
    (thr : Vector Word 16) (factor : Vector (BitVec 16) 16) {m : Nat} (h : ∀ i ≤ m, d i = d' i) :
    scoreSumFlt d c block thr factor m = scoreSumFlt d' c block thr factor m := by
  induction m with
  | zero => rw [scoreSumFlt, scoreSumFlt, h 0 le_rfl]
  | succ m ih => rw [scoreSumFlt, scoreSumFlt, h (m + 1) le_rfl, ih fun i hi => h i (by omega)]

/-! ### The quantizer -/

theorem toNat_ofInt_of_lt {z : Int} (h : 0 ≤ z) (h' : z < 2 ^ 32) :
    ((BitVec.ofInt 32 z).toNat : Int) = z := by
  rw [BitVec.toNat_ofInt, Int.toNat_of_nonneg (Int.emod_nonneg _ (by norm_num))]
  exact Int.emod_eq_of_lt h (by norm_num; omega)

/-- `QUANT_INT` gives the output word of R180. -/
theorem quantInt_spec {f : SampleFormat} {s : State} (hf : formatOf s.fmt = some f)
    (hint : isFloat f = false) (clamp : Bool) (v : Int) :
    QuantInt (sampleBytes f) (peakOf f) clamp v (quantInt f clamp v) := by
  have hbounds : (peakOf f : Int) < 2 ^ 32 ∧ (2 : Int) ^ (8 * sampleBytes f) ≤ 2 ^ 32 := by
    cases f with
    | f32 => cases hint
    | u8 => decide
    | u16 b =>
      obtain ⟨-, -, h16, -⟩ := formatOf_u16.1 hf
      have hpow : 2 ^ b ≤ 2 ^ 16 := Nat.pow_le_pow_right (by norm_num) h16
      simp only [peakOf, sampleBytes]
      omega
  obtain ⟨hpeak, hbytes⟩ := hbounds
  obtain ⟨hlo, hhi⟩ := rescaleInt_bounds v
  refine ⟨rescaleInt v, hlo, hhi, ?_, ?_⟩
  · rintro rfl
    exact toNat_ofInt_of_lt (Int.emod_nonneg _ (by positivity))
      ((Int.emod_lt_of_pos _ (by positivity)).trans_le hbytes)
  · rintro rfl
    exact toNat_ofInt_of_lt (by omega) (by omega)

/-! ### The output word of a sample -/

/-- The draws of the operations of one output word, in the order in which `OutFlt` names them: seven columns
of Stage A, four rows of Stage B, sixteen coefficients of the scorer, the quantizer. -/
def outDraws (d : Nat → Nat) (k i : Nat) : Nat :=
  if k < 7 then d k + i
  else if k < 11 then d 7 + (k - 7) * bfDraws + i
  else if k < 27 then scoreDraws (d 8 + 16 * bfDraws) (k - 11) i
  else d 9 + 21 * bfDraws + i

section
variable {f : SampleFormat} {s : State} {e : List Word} {y x : Nat} (d : Nat → Nat)

/-- Coefficient `i` of the block that `outWord` scores. -/
def windowCoef (d : Nat → Nat) (flt : Bool) (s : State) (e : List Word) (y x i : Nat) : Coef :=
  (stageB (d 7) flt
    (taps fun k => stageA (d k) flt (s.planeW + 16) e (y + 5) (x + 5 + k)))[i]?.getD (.int 0)

theorem windowCoef_eq (flt : Bool) {h v : Nat} (hh : h < 4) (hv : v < 4) :
    windowCoef d flt s e y x (4 * h + v) =
      (stageB (d 7) flt
        (taps fun k => stageA (d k) flt (s.planeW + 16) e (y + 5) (x + 5 + k)))[4 * h + v] := by
  rw [windowCoef, Vector.getElem?_eq_getElem (by omega)]
  rfl

theorem outWord_int (hint : isFloat f = false) :
    outWord d f s e y x =
      quantInt f s.params.outClamp
        (scoreSum (fun i => coefInt (windowCoef d false s e y x i)) s.thr s.params.factorRom) := by
  rw [← scoreInt_sixteen]
  unfold outWord quantOf scoreOf
  simp only [hint]
  rfl

theorem outWord_flt (hflt : isFloat f = true) :
    outWord d f s e y x =
      quantFlt (d 9 + 21 * bfDraws)
        (scoreFlt (d 8 + 16 * bfDraws)
          (sixteen fun i => coefFlt (windowCoef d true s e y x i)) s.thr s.params.factorRom) := by
  unfold outWord quantOf scoreOf
  simp only [hflt]
  rfl

/-- Inside a window of a complete buffer the elements are the mirrored source samples (R103). -/
theorem BufferDone.window (hbuf : BufferDone f s e) (hy : y < s.planeH) (hx : x < s.planeW) {j n : Nat}
    (hj : j < 7) (hn : n < 7) :
    extAt (s.planeW + 16) e (y + 5 + j) (x + 5 + n) =
      extended (sourceSample f s) s (y + 5 + j) (x + 5 + n) :=
  hbuf _ (by omega) _ (by omega)

/-- The scored block is the double sum of R143 over the window of the source plane. -/
theorem coefInt_windowCoef (hbuf : BufferDone f s e) (hy : y < s.planeH) (hx : x < s.planeW) {i : Nat}
    (hi : i < 16) :
    coefInt (windowCoef d false s e y x i) = coefSum (sourceSample f s) s y x i := by
  obtain ⟨h, v, hh, hv, rfl⟩ : ∃ h v, h < 4 ∧ v < 4 ∧ i = 4 * h + v :=
    ⟨i / 4, i % 4, by omega, by omega, by omega⟩
  rw [windowCoef_eq d false hh hv, getElem_stageB_int _ _ _ _ _ _ hh hv, coefInt,
    butterfly_butterfly, coefSum, show (4 * h + v) / 4 = h by omega, show (4 * h + v) % 4 = v by omega]
  refine Finset.sum_congr rfl fun n hn => Finset.sum_congr rfl fun j hj => ?_
  rw [hbuf.window hy hx (Finset.mem_range.1 hj) (Finset.mem_range.1 hn)]

/-- The scored block is that of R122 and R141 on the window of the source plane. -/
theorem coefFlt_windowCoef (hbuf : BufferDone f s e) (hy : y < s.planeH) (hx : x < s.planeW) {h v : Nat}
    (hh : h < 4) (hv : v < 4) :
    coefFlt (windowCoef d true s e y x (4 * h + v)) =
      butterflyFlt1 (outDraws d (7 + v))
        (fun n => butterflyFlt255 (outDraws d n)
          (fun j => extended (sourceSample f s) s (y + 5 + j) (x + 5 + n)) v) h := by
  have hrow : outDraws d (7 + v) = fun i => d 7 + v * bfDraws + i := by
    funext i
    rw [outDraws, if_neg (by omega), if_pos (by omega), Nat.add_sub_cancel_left]
  rw [windowCoef_eq d true hh hv, getElem_stageB_flt _ _ _ _ _ _ hh hv, coefFlt, hrow]
  refine butterflyFlt1_congr _ (fun n hn => ?_) h
  have hcol : outDraws d n = fun i => d n + i := by
    funext i
    rw [outDraws, if_pos hn]
  rw [hcol]
  exact butterflyFlt255_congr _ (fun j hj => hbuf.window hy hx hj hn) v

/-- What a `RUN` writes for `(y, x)` from a complete buffer is an output word of R208. -/
theorem outWord_spec (hf : formatOf s.fmt = some f) (hbuf : BufferDone f s e) (hy : y < s.planeH)
    (hx : x < s.planeW) :
    OutWord (sampleBytes f) (sourceSample f s) s y x (outWord d f s e y x) := by
  refine ⟨fun peak hformat => ?_, fun hformat => ?_⟩
  · obtain ⟨f', hf', hint, -, rfl⟩ := intFormat_iff.1 hformat
    obtain rfl : f' = f := Option.some.inj (hf'.symm.trans hf)
    rw [outWord_int d hint, scoreSum_congr fun i hi => coefInt_windowCoef d hbuf hy hx hi]
    exact quantInt_spec hf hint _ _
  · obtain rfl : f = .f32 := Option.some.inj (hf.symm.trans (fltFormat_iff.1 hformat))
    refine ⟨outDraws d, _, fun i => coefFlt (windowCoef d true s e y x i),
      fun h hh v hv => coefFlt_windowCoef d hbuf hy hx hh hv,
      fun i _ _ => convertsTo_cvtU32 (d 8 + 16 * bfDraws + 8 * i) _, ?_⟩
    have hscore : ∀ i ≤ 15, outDraws d (11 + i) = scoreDraws (d 8 + 16 * bfDraws) i := fun i hi => by
      funext k
      rw [outDraws, if_neg (by omega), if_neg (by omega), if_pos (by omega), Nat.add_sub_cancel_left]
    rw [outWord_flt d rfl, scoreFlt_sixteen, scoreSumFlt_congr _ _ _ _ hscore]
    rfl

end

/-- After a `RUN` whose accesses are answered every destination sample holds an output word for the plane
that its reads gave (R208). -/
theorem run_writes_outWord {s t : State} {bytes : Nat} (hready : RunReady bytes s)
    (hwf : s.mem.wf = true) (hr : ReadsAnswered bytes s) (hw : WritesAnswered bytes s)
    (hexec : exec .run s = .next t) :
    ∃ p, SourcePlane bytes s p ∧
      ∀ y < s.height.toNat, ∀ x < s.width.toNat, OutWord bytes p s y x (stored bytes s t.mem y x) := by
  obtain ⟨f, rfl, hf, hg, hrun⟩ := exec_run_of_ready hready
  obtain ⟨e, hbuf, hdone⟩ := run_reaches_done hf hg hr hw
  cases hrun.symm.trans hexec
  refine ⟨_, sourcePlane_sourceSample f s, fun y hy x hx => ?_⟩
  obtain ⟨d, hd⟩ := hdone.written hwf y hy x hx
  rw [stored_eq]
  exact hd ▸ outWord_spec d hf hbuf hy hx

end Sys2Proof.Machine
end

section
open Sys2Proof Sys2Proof.Machine Sys2Proof.Claims

/-- Settles O55: in an integer format the output word is that of R180. -/
theorem runFiltersIntegerPlane : Obligations.RunFiltersIntegerPlane := by
  intro s t bytes peak hready hint hwf hr hw hexec
  obtain ⟨p, hp, hout⟩ := run_writes_outWord hready hwf hr hw hexec
  exact ⟨p, hp, fun y hy x hx => (hout y hy x hx).1 peak hint⟩

/-- Settles O56: in the float format the output word is that of R181. -/
theorem runFiltersFloatPlane : Obligations.RunFiltersFloatPlane := by
  intro s t hready hflt hwf hr hw hexec
  obtain ⟨p, hp, hout⟩ := run_writes_outWord hready hwf hr hw hexec
  exact ⟨p, hp, fun y hy x hx => (hout y hy x hx).2 hflt⟩

/-- Settles O59: the `RUN` gets to the failing write with every earlier sample written, and the bytes that
the failed write leaves are its own. -/
theorem runStopsAtFailedWrite : Obligations.RunStopsAtFailedWrite := by
  intro s bytes y x hready hr hy hx hbad hok
  obtain ⟨f, rfl, hf, hg, hrun⟩ := exec_run_of_ready hready
  obtain ⟨e, u, hbuf, hinv, hend⟩ := run_ends_at_failed_write hf hg hr hy hx hbad hok
  obtain ⟨-, hkept⟩ := hinv.stored (Config.freeMem u.drawn)
  rw [hend] at hrun
  refine ⟨_, sourceSample f s, hrun, ?_, toNat_ofNat_addr (dstAddr_bound hg hy hx) (sampleBytes_pos f),
    rfl, sourcePlane_sourceSample f s, fun hwf y' hy' x' hx' hlt => ?_,
    fun a ha => hkept a fun y' x' hy' hx' hle => ha y' hy' x' hx' hle, rfl, ?_⟩
  · simp only [raiseError_status, filterStored, storeSample_status, drawOn_status, portIssue_status,
      filterCompute_status, hinv.status]
    rfl
  · obtain ⟨d, hd⟩ := hinv.storedEarlier hg hwf (Config.freeMem u.drawn) y' x' hx' hlt
    rw [stored_eq, raiseError_mem]
    exact hd ▸ outWord_spec d hf hbuf hy' hx'
  · simp only [raiseError_port, filterStored, storeSample_port, drawOn_port, portIssue_port,
      filterCompute_port, List.length_cons, length_port hinv.port, List.length_append,
      List.length_reverse, length_accessesBefore]
    rfl

end

section
/-! SUPPORT. The fields of a command word as numbers (R80), the rows of R83 as an opcode and a `QP` value,
and `decode` in these terms: which words are a row, which row, and which words are illegal (R84 to R86). -/

namespace Sys2Proof.Machine

open Sys2Proof.Claims

/-! ### The fields of a word (R80) -/

theorem opField_eq (w : Word) : opField w = w.toNat % 2 ^ 4 := by
  simp [opField, BitVec.extractLsb'_toNat]

theorem rsv0Field_eq (w : Word) : rsv0Field w = w.toNat / 2 ^ 4 % 2 ^ 4 := by
  simp [rsv0Field, BitVec.extractLsb'_toNat, Nat.shiftRight_eq_div_pow]

theorem qpField_eq (w : Word) : qpField w = w.toNat / 2 ^ 8 % 2 ^ 6 := by
  simp [qpField, BitVec.extractLsb'_toNat, Nat.shiftRight_eq_div_pow]

theorem rsv1Field_eq (w : Word) : rsv1Field w = w.toNat / 2 ^ 14 := by
  have hw := w.isLt
  rw [rsv1Field, BitVec.extractLsb'_toNat, Nat.shiftRight_eq_div_pow]
  omega

theorem qpField_lt (w : Word) : qpField w < 2 ^ 6 := BitVec.isLt _

/-- A word without reserved bits is its opcode and its `QP` field. -/
theorem eq_ofNat_fields {w : Word} (h0 : rsv0Field w = 0) (h1 : rsv1Field w = 0) :
    BitVec.ofNat 32 (opField w + qpField w * 2 ^ 8) = w := by
  rw [rsv0Field_eq] at h0
  rw [rsv1Field_eq] at h1
  apply BitVec.eq_of_toNat_eq
  rw [BitVec.toNat_ofNat, opField_eq, qpField_eq]
  omega

/-! ### The rows of R83 -/

/-- The opcode of a row. -/
def opcodeOf : Instr → Nat
  | .nop => 0x0
  | .setqp _ => 0x1
  | .run => 0x2
  | .diagA => 0x8
  | .diagB => 0x9
  | .diagS => 0xA
  | .diagQ => 0xB
  | .xread => 0xC

/-- What a row has in its `QP` field: the operand of `SETQP`, 0 elsewhere (R82, R85). -/
def qpOf : Instr → Nat
  | .setqp qp => qp
  | _ => 0

theorem encode_eq_ofNat (i : Instr) : encode i = BitVec.ofNat 32 (opcodeOf i + qpOf i * 2 ^ 8) := by
  cases i <;> rfl

theorem wf_iff_qpOf_lt (i : Instr) : i.wf = true ↔ qpOf i < 2 ^ 6 := by
  cases i <;> simp [Instr.wf, qpOf]

theorem opcodeOf_lt (i : Instr) : opcodeOf i < 2 ^ 4 := by cases i <;> simp [opcodeOf]

/-- The opcodes of the map, and the one row for each `QP` value they allow (R83 to R85). -/
theorem exists_row_iff (op qp : Nat) :
    (∃ i, op = opcodeOf i ∧ qp = qpOf i) ↔
      (op ≤ 2 ∨ 8 ≤ op ∧ op ≤ 12) ∧ (op ≠ 1 → qp = 0) := by
  constructor
  · rintro ⟨i, rfl, rfl⟩
    cases i <;> simp [opcodeOf, qpOf]
  · rintro ⟨hop, hqp⟩
    have hcases : op = 0 ∨ op = 1 ∨ op = 2 ∨ op = 8 ∨ op = 9 ∨ op = 10 ∨ op = 11 ∨ op = 12 := by omega
    rcases hcases with rfl | rfl | rfl | rfl | rfl | rfl | rfl | rfl
    · exact ⟨.nop, rfl, hqp (by decide)⟩
    · exact ⟨.setqp qp, rfl, rfl⟩
    · exact ⟨.run, rfl, hqp (by decide)⟩
    · exact ⟨.diagA, rfl, hqp (by decide)⟩
    · exact ⟨.diagB, rfl, hqp (by decide)⟩
    · exact ⟨.diagS, rfl, hqp (by decide)⟩
    · exact ⟨.diagQ, rfl, hqp (by decide)⟩
    · exact ⟨.xread, rfl, hqp (by decide)⟩

/-- Each field of the word of a well-formed command. -/
theorem fields_encode {i : Instr} (h : i.wf = true) :
    rsv0Field (encode i) = 0 ∧ rsv1Field (encode i) = 0 ∧
      opField (encode i) = opcodeOf i ∧ qpField (encode i) = qpOf i := by
  have hop := opcodeOf_lt i
  have hqp := (wf_iff_qpOf_lt i).1 h
  rw [rsv0Field_eq, rsv1Field_eq, opField_eq, qpField_eq, encode_eq_ofNat, BitVec.toNat_ofNat]
  omega

/-! ### The decoder -/

theorem withoutQp_eq_ok {w : Word} {i j : Instr} :
    withoutQp w j = .ok i ↔ j = i ∧ qpField w = 0 := by
  unfold withoutQp
  split_ifs with h <;> simp [h]

/-- A word decodes to a row exactly when its fields are those of the row (R83). -/
theorem decode_eq_ok_iff {w : Word} {i : Instr} :
    decode w = .ok i ↔
      rsv0Field w = 0 ∧ rsv1Field w = 0 ∧ opField w = opcodeOf i ∧ qpField w = qpOf i := by
  constructor
  · intro h
    unfold decode at h
    split_ifs at h with hrsv
    obtain ⟨h0, h1⟩ := not_or.1 hrsv
    refine ⟨not_not.1 h0, not_not.1 h1, ?_⟩
    split at h
    case h_2 hop =>
      injection h with h
      subst h
      exact ⟨hop, rfl⟩
    case h_9 => cases h
    all_goals
      obtain ⟨rfl, hqp⟩ := withoutQp_eq_ok.1 h
      exact ⟨by assumption, hqp⟩
  · rintro ⟨h0, h1, hop, hqp⟩
    unfold decode
    rw [if_neg (by simp [h0, h1]), hop]
    cases i with
    | setqp qp => exact congrArg (fun q => Except.ok (Instr.setqp q)) hqp
    | _ => exact withoutQp_eq_ok.2 ⟨rfl, hqp⟩

/-- A word decodes to a row exactly when it is the word of that row (R83). -/
theorem decode_eq_ok_iff_encode {w : Word} {i : Instr} :
    decode w = .ok i ↔ i.wf = true ∧ encode i = w := by
  constructor
  · intro h
    obtain ⟨h0, h1, hop, hqp⟩ := decode_eq_ok_iff.1 h
    refine ⟨(wf_iff_qpOf_lt i).2 (hqp ▸ qpField_lt w), ?_⟩
    rw [encode_eq_ofNat, ← hop, ← hqp]
    exact eq_ofNat_fields h0 h1
  · rintro ⟨hwf, rfl⟩
    exact decode_eq_ok_iff.2 (fields_encode hwf)

/-- A word has a row exactly when neither R84 nor R85 makes it illegal (R86). -/
theorem exists_decode_eq_ok_iff (w : Word) : (∃ i, decode w = .ok i) ↔ ¬IllegalBits w := by
  simp only [decode_eq_ok_iff, exists_and_left, exists_row_iff, rsv0Field_eq, rsv1Field_eq, opField_eq,
    qpField_eq, IllegalBits]
  omega

/-- `decode` refuses exactly the words that R84 and R85 name. -/
theorem exists_decode_eq_error_iff (w : Word) : (∃ e, decode w = .error e) ↔ IllegalBits w := by
  rw [← not_iff_not, ← exists_decode_eq_ok_iff]
  cases decode w <;> simp

/-- An illegal word completes at once with `ILLEGAL_CMD` (R225). -/
theorem execIssued_of_illegal {s : State} (h : IllegalBits s.cmd) :
    execIssued s = .next (failed .illegalCmd s) := by
  obtain ⟨e, he⟩ := (exists_decode_eq_error_iff s.cmd).2 h
  rw [execIssued, he]
  rfl

/-! ### `SETQP` with `qp = 0` -/

/-- The legal formats of the claims are those that `formatOf` knows (R28). -/
theorem fmtOk_iff {s : State} : FmtOk s ↔ ∃ f, formatOf s.fmt = some f := by
  constructor
  · rintro (⟨ht, hb⟩ | ⟨ht, h9, h16⟩ | h)
    · exact ⟨.u8, formatOf_u8.2 ⟨ht, by rw [hb]; rfl⟩⟩
    · exact ⟨.u16 _, formatOf_u16.2 ⟨ht, h9, h16, rfl⟩⟩
    · exact ⟨.f32, fltFormat_iff.1 h⟩
  · rintro ⟨f, hf⟩
    cases f with
    | u8 =>
      obtain ⟨ht, hb⟩ := formatOf_u8.1 hf
      exact .inl ⟨ht, BitVec.eq_of_toNat_eq hb⟩
    | u16 b =>
      obtain ⟨ht, h9, h16, rfl⟩ := formatOf_u16.1 hf
      exact .inr (.inl ⟨ht, h9, h16⟩)
    | f32 => exact .inr (.inr (fltFormat_iff.2 hf))

/-- `qp = 0` is an error of the operand, once the format is legal (R204). -/
theorem exec_setqp_zero {s : State} (h : FmtOk s) : exec (.setqp 0) s = .next (failed .badQp s) := by
  obtain ⟨f, hf⟩ := fmtOk_iff.1 h
  rw [exec, execSetqp, hf]
  rfl

end Sys2Proof.Machine
end

section
/-! SUPPORT. What a host read gives while a command executes: of a register, its current value or the one the
command leaves in it (R261); of memory, which bytes a `RUN` in flight may tear (R263). -/

namespace Sys2Proof.Machine

open Sys2Proof.Claims

/-! ### Reads of a register (R261) -/

/-- A host read of a register of a busy core. -/
theorem serveRegRead_busy (r : Reg) (s : State) (hb : s.status.busy = true) :
    serveRegRead (s.params.regBase + regOffset r) 4 s =
      { s with response := .value (readRegBusy r s), seen := s.seen + 1 } := by
  obtain ⟨hin, hal⟩ := regOffset_inside r
  simp only [serveRegRead, windowOffset_inside _ _ hin, goodAccess_word hal, regAt_regOffset, hb]
  rfl

theorem writtenInFlight_iff {r : Reg} {s : State} :
    writtenInFlight r s = true ↔
      ∃ i, decode s.cmd = .ok i ∧ s.phase = .issued ∧ commandWrites i r = true := by
  unfold writtenInFlight
  cases decode s.cmd <;> simp

/-- The new value of a register is its value after the command (R261). -/
theorem valueAfter_eq {s t : State} {i : Instr} (r : Reg) (hd : decode s.cmd = .ok i)
    (he : exec i s = .next t) : valueAfter r s = readReg r t := by
  rw [valueAfter, execIssued, hd]
  simp only [he]

/-- The old value, or the new one of a register that the issued command writes (R261). -/
theorem readRegBusy_cases (r : Reg) (s : State) :
    readRegBusy r s = readReg r s ∨
      ∃ i t, s.phase = .issued ∧ decode s.cmd = .ok i ∧ commandWrites i r = true ∧
        exec i s = .next t ∧ readRegBusy r s = readReg r t := by
  unfold readRegBusy
  split_ifs with hwritten _
  · exact .inl rfl
  · obtain ⟨i, hd, hp, hc⟩ := writtenInFlight_iff.1 hwritten
    obtain ⟨t, he, -⟩ := exec_ends i s
    exact .inr ⟨i, t, hp, hd, hc, he, valueAfter_eq r hd he⟩
  · exact .inl rfl

/-- No command writes `STATUS` as one of the registers of R261. -/
theorem commandWrites_status (i : Instr) : commandWrites i .status = false := by cases i <;> rfl

theorem readRegBusy_status (s : State) : readRegBusy .status s = statusWord s.status := by
  obtain h | ⟨i, _, -, -, hc, -⟩ := readRegBusy_cases .status s
  · exact h
  · exact absurd hc (by simp [commandWrites_status])

/-- The `STATUS` of a command in flight: busy, with a clear completion record (R200). -/
theorem State.Coherent.status_busy {s : State} (h : s.Coherent) (hb : s.status.busy = true) :
    s.status = ⟨true, false, false, s.status.wovr, s.status.thrValid, s.status.extValid, .none⟩ := by
  obtain ⟨hdone, herr, hcode⟩ := h.clean hb
  cases hst : s.status
  simp only [hst] at hb hdone herr hcode
  rw [hb, hdone, herr, hcode]

/-! ### Reads of memory (R263) -/

/-- A byte of a row of `W` samples of `S` bytes is a byte of one of them. -/
theorem mem_row_iff {S W a b : Nat} (hS : 0 < S) :
    (a ≤ b ∧ b < a + W * S) ↔ ∃ x < W, a + x * S ≤ b ∧ b < a + x * S + S := by
  constructor
  · rintro ⟨hle, hlt⟩
    have hdiv := Nat.div_add_mod' (b - a) S
    have hmod := Nat.mod_lt (b - a) hS
    exact ⟨(b - a) / S, (Nat.div_lt_iff_lt_mul hS).2 (by omega), by omega, by omega⟩
  · rintro ⟨x, hx, hle, hlt⟩
    have := Nat.mul_le_mul_right S (Nat.succ_le_of_lt hx)
    rw [Nat.succ_mul] at this
    omega

/-- The destination plane of the model is that of the claims (R61, R66). -/
theorem inDstPlane_iff {f : SampleFormat} {s : State} {b : Nat} :
    inDstPlane f s b = true ↔ InDst (sampleBytes f) s b := by
  simp only [inDstPlane, List.any_eq_true, List.mem_range, Bool.and_eq_true, decide_eq_true_eq,
    mem_row_iff (sampleBytes_pos f), dstAddr, sampleAddr, Nat.zero_mul, Nat.add_zero]
  rfl

/-- No `RUN` is in flight on an idle core or before the execution of another word. -/
theorem runInFlight_eq_false {s : State}
    (h : s.phase = .idle ∨ (s.phase = .issued ∧ decode s.cmd ≠ .ok .run)) : runInFlight s = false := by
  obtain hp | ⟨hp, hd⟩ := h <;> simp only [runInFlight, hp]
  exact decide_eq_false hd

/-- Which bytes a host read cannot tear (R263). -/
theorem tornByte_eq_false {addr n b : Nat} {s : State}
    (h : s.phase = .idle ∨ (s.phase = .issued ∧ decode s.cmd ≠ .ok .run) ∨
      ∀ bytes, LegalFormat s bytes → ¬InDst bytes s b ∨ (n = bytes ∧ addr % bytes = 0)) :
    tornByte addr n s b = false := by
  unfold tornByte
  split
  · rfl
  next f hf =>
    rw [← or_assoc] at h
    obtain hidle | hdst := h
    · simp [runInFlight_eq_false hidle]
    · obtain hout | ⟨hn, hal⟩ := hdst _ (legalFormat_iff.2 ⟨f, hf, rfl⟩)
      · simp [Bool.eq_false_iff.2 (mt inDstPlane_iff.1 hout)]
      · simp [hn, hal]

end Sys2Proof.Machine
end

section
open Sys2Proof Sys2Proof.Machine Sys2Proof.Claims

/-- Settles O3: the fields of a command's word are those of its row. -/
theorem decodeOfEncodeIsIdentity : Obligations.DecodeOfEncodeIsIdentity := fun _ hwf =>
  decode_eq_ok_iff_encode.2 ⟨hwf, rfl⟩

/-- Settles O4: a word without reserved bits is given by its opcode and its `QP` field. -/
theorem everyWordIsOneRowOrIllegal : Obligations.EveryWordIsOneRowOrIllegal := fun w =>
  ⟨fun _ => decode_eq_ok_iff_encode, exists_decode_eq_error_iff w⟩

/-- Settles O6: the write issues the word, and `decode` refuses it before any operand is read. -/
theorem illegalWordCompletesWithIllegalCmd : Obligations.IllegalWordCompletesWithIllegalCmd := by
  intro s w rest hb hw hbad
  rw [step_of_nextWritesCmd hb hw, execIssued_of_illegal hbad]

/-- Settles O21: a register read gives the old or the new value, a memory read tears only samples. -/
theorem busyReadsOldOrNew : Obligations.BusyReadsOldOrNew := by
  refine ⟨fun s r hcoh hb => ?_, fun s addr width hin => ?_⟩
  · refine ⟨readRegBusy r s, serveRegRead_busy r s hb, ?_, readRegBusy_cases r s⟩
    rintro rfl
    rw [readRegBusy_status, ← hcoh.status_busy hb]
  · obtain ⟨v, n, hserve, hbytes⟩ := serveMemRead_value s hin
    exact ⟨_, v, hserve, rfl, fun k hk hsafe => hbytes k hk (tornByte_eq_false hsafe)⟩

/-- Settles O1: each word by its fields, and `BAD_QP` after the check of the format. -/
theorem workedEncodingsDecode : Obligations.WorkedEncodingsDecode := by
  have hqp : ∃ e, decode 0x00000102#32 = .error e := ⟨.qpFieldInUse, rfl⟩
  have hop : ∃ e, decode 0x00000004#32 = .error e := ⟨.reservedOpcode, rfl⟩
  exact ⟨rfl, rfl, rfl, rfl, rfl, rfl, (exists_decode_eq_error_iff _).1 hqp, hqp,
    (exists_decode_eq_error_iff _).1 hop, hop, rfl, fun _ => exec_setqp_zero⟩

/-- Settles O2: every word of the map is the word of its row. -/
theorem opcodeMapWordsDecode : Obligations.OpcodeMapWordsDecode := by
  have hrow := fun (i : Instr) (hwf : i.wf = true) => decode_eq_ok_iff_encode.2 ⟨hwf, rfl⟩
  exact ⟨hrow .nop rfl, hrow (.setqp 5) rfl, hrow .run rfl, hrow .diagA rfl, hrow .diagB rfl,
    hrow .diagS rfl, hrow .diagQ rfl, hrow .xread rfl⟩

end

section
/-! SUPPORT. The buffer after it is built: no step from the first write of a `RUN` on touches `E` or
`EXT_VALID` (R106), and what `XREAD` does where both of its checks pass (R107). -/

namespace Sys2Proof.Machine

open Sys2Proof.Claims

/-! ### The buffer from the first write on (R106) -/

/-- The buffer is complete, holds `e`, and no read of `EXTEND` is still to come. -/
structure BufferHeld (e : List Word) (s : State) : Prop where
  ext : s.ext = e
  valid : s.status.extValid = true
  built : s.phase ≠ .extend

section
variable {e : List Word} {s : State}

theorem FilterInv.bufferHeld {f : SampleFormat} {s0 : State} {log : List PortAccess} {y x : Nat}
    (h : FilterInv f s0 e log y x s) : BufferHeld e s where
  ext := h.ext
  valid := by rw [h.status]
  built := by simp [h.phase]

/-- An error that ends a `RUN` after `EXTEND` leaves the buffer valid (R106, R226). -/
theorem BufferHeld.raiseError (h : BufferHeld e s) (c : ErrCode) (a : Word) :
    BufferHeld e (raiseError c a s) := ⟨h.ext, h.valid, nofun⟩

/-- The work and the store of one output sample write no element of `E` (R208). -/
theorem BufferHeld.filterStored (h : BufferHeld e s) (f : SampleFormat) (a n : Nat) (w : Word) :
    BufferHeld e (filterStored f s a n w) where
  ext := by simp [Machine.filterStored, h.ext]
  valid := by simp [Machine.filterStored, h.valid]
  built := by simp [Machine.filterStored, h.built]

theorem BufferHeld.filterNext (h : BufferHeld e s) : BufferHeld e (filterNext s) := by
  rcases filterNext_cases s with ⟨-, hn⟩ | ⟨-, -, hn⟩ | ⟨-, -, hn⟩
  · exact hn ▸ ⟨h.ext, h.valid, h.built⟩
  · exact hn ▸ ⟨h.ext, h.valid, h.built⟩
  · exact hn ▸ ⟨h.ext, h.valid, nofun⟩

/-- One write of a `RUN`, whatever its answer. -/
theorem BufferHeld.filterTick (h : BufferHeld e s) (f : SampleFormat) :
    BufferHeld e (filterTick f s) := by
  unfold Machine.filterTick
  dsimp only
  split_ifs
  · exact (h.filterStored f _ _ _).raiseError _ _
  · exact (h.filterStored f _ _ _).filterNext

theorem BufferHeld.runTick (h : BufferHeld e s) : BufferHeld e (runTick s) := by
  unfold Machine.runTick
  split
  next => exact h
  next => exact h
  next hp => exact absurd hp h.built
  next =>
    split
    · exact h.raiseError _ _
    · exact h.filterTick _

theorem BufferHeld.runTicks (h : BufferHeld e s) (k : Nat) : BufferHeld e (runTicks k s) := by
  induction k generalizing s with
  | zero => exact h
  | succ k ih =>
    rw [Machine.runTicks]
    split_ifs
    · exact h
    · exact ih h.runTick

theorem BufferHeld.runToEnd (h : BufferHeld e s) : BufferHeld e (runToEnd s) := h.runTicks _

end

/-- A `RUN` whose reads are answered ends with the complete buffer, however its writes are answered
(R103, R106). -/
theorem run_builds_buffer {f : SampleFormat} {s : State} (hf : formatOf s.fmt = some f)
    (hg : badGeometry f s = false) (hr : ReadsAnswered (sampleBytes f) s) :
    ∃ e, BufferDone f s e ∧ BufferHeld e (runToEnd (beginExtend s)) := by
  obtain ⟨u, hu, hbuf, hinv⟩ := run_reaches_filter hf hg hr
  exact ⟨u.ext, hbuf, hu ▸ hinv.bufferHeld.runToEnd⟩

/-! ### `XREAD` (R107) -/

/-- `DI[i]` by its index (R39). -/
theorem diAt_eq (s : State) {i : Nat} (hi : i < 28) : s.diAt i = s.di[i] := by
  rw [State.diAt, Vector.getElem?_eq_getElem hi]
  rfl

/-- `XREAD` with a valid buffer and coordinates in range completes with the element in `DO[0]`. -/
theorem exec_xread_of_inRange {s : State} (hv : s.status.extValid = true)
    (hr : (s.diAt 0).toNat < s.planeH + 16) (hc : (s.diAt 1).toNat < s.planeW + 16) :
    exec .xread s =
      .next (complete (setDout0 (s.extElem (s.diAt 0).toNat (s.diAt 1).toNat) s)) := by
  have hin : ¬(s.planeH + 16 ≤ (s.diAt 0).toNat ∨ s.planeW + 16 ≤ (s.diAt 1).toNat) := by omega
  rw [exec, execXread, if_neg (by simp [hv]), if_neg hin]

end Sys2Proof.Machine
end

section
open Sys2Proof Sys2Proof.Machine Sys2Proof.Claims

/-- Settles O53: the buffer is complete at the first write, and no later step touches it. -/
theorem runBuildsMirroredBuffer : Obligations.RunBuildsMirroredBuffer := by
  intro s bytes hready hr
  obtain ⟨f, rfl, hf, hg, hrun⟩ := exec_run_of_ready hready
  obtain ⟨e, hbuf, hheld⟩ := run_builds_buffer hf hg hr
  refine ⟨_, sourceSample f s, hrun, hheld.valid, sourcePlane_sourceSample f s, fun r hrow c hcol => ?_⟩
  rw [hheld.ext]
  exact hbuf r hrow c hcol

/-- Settles O40: both checks pass, and the completion writes `DO[0]` alone. -/
theorem xreadReadsElement : Obligations.XreadReadsElement := by
  intro s hv hr hc
  rw [← diAt_eq s (by omega)] at hr hc
  refine ⟨_, exec_xread_of_inRange hv hr hc, ?_, fun k hk => ?_, rfl⟩
  · rw [complete_dout, setDout0_dout, Vector.getElem_set_self, ← diAt_eq s (by omega),
      ← diAt_eq s (by omega)]
    rfl
  · exact Vector.getElem_set_ne (by decide) k.isLt fun h => hk (Fin.ext h.symm)

end

section
/-! SUPPORT. Stage A: what the diagnostics `DIAG_A` and `DIAG_B` leave in `DO`, output by output (R130, R145),
and the Stage-A store along a row of the sliding schedule (R126, R127). -/

namespace Sys2Proof.Machine

open Sys2Proof.Claims

/-! ### The operands of a diagnostic butterfly (R39) -/

/-- `DI[i]` as the claims read it: both read 0 outside the array. -/
theorem diAt_eq_getD (s : State) (i : Nat) : s.diAt i = s.di.toList.getD i 0 := by
  simp [State.diAt, List.getD_eq_getElem?_getD]

theorem diSevenFlt_eq_taps (s : State) (a d : Nat) :
    s.diSevenFlt a d = taps fun j => s.di.toList.getD (d * j + a) 0 := by
  simp [State.diSevenFlt, taps, diAt_eq_getD, Nat.add_comm, Nat.mul_comm]

theorem diSevenInt_eq_sevenMap (s : State) (a d : Nat) :
    s.diSevenInt a d = sevenMap BitVec.toInt (s.diSevenFlt a d) := rfl

theorem diSevenInt_eq_taps (s : State) (a d : Nat) :
    s.diSevenInt a d = taps fun j => (s.di.toList.getD (d * j + a) 0).toInt := by
  rw [diSevenInt_eq_sevenMap, diSevenFlt_eq_taps, sevenMap_taps]

/-! ### The outputs of a diagnostic butterfly (R40) -/

/-- `DO[0..3]` after they are set (R130). -/
theorem getElem_setDout4_low (q : Quad Word) (s : State) {k : Nat} (hk : k < 4) :
    (setDout4 q s).dout[k] = quadAt q k := by
  simp only [setDout4_dout, Vector.getElem_set]
  interval_cases k <;> rfl

/-- `DO[4..15]` stay as they were (R130). -/
theorem getElem_setDout4_high (q : Quad Word) (s : State) {k : Nat} (hk : 4 ≤ k) (hk' : k < 16) :
    (setDout4 q s).dout[k] = s.dout[k] := by
  simp only [setDout4_dout, Vector.getElem_set]
  rw [if_neg (by omega), if_neg (by omega), if_neg (by omega), if_neg (by omega)]

/-- An integer output of a diagnostic, the weighted sum `mod 2^32` (R128). -/
theorem quadAt_wrapQuad_bfInt (a : Nat → Int) {k : Nat} (hk : k < 4) :
    quadAt (wrapQuad (bfInt (taps a))) k = BitVec.ofInt 32 (butterfly k a) := by
  rw [wrapQuad, quadAt_quadMap, quadAt_bfInt a hk]

/-- Entry `4·h + v` of the block, read as the claims read `DO` (R142). -/
theorem getD_blockOf (u : Nat → Quad Word) {h v : Nat} (hh : h < 4) (hv : v < 4) :
    (blockOf (u 0) (u 1) (u 2) (u 3)).toList.getD (4 * h + v) 0 = quadAt (u v) h := by
  rw [← getElem_blockOf u hh hv]
  exact (getElem_eq_getD _ 0 ⟨4 * h + v, by omega⟩).symm

/-! ### `DIAG_A` and `DIAG_B` with a legal format (R130, R145) -/

section
variable {s : State} {f : SampleFormat}

theorem exec_diagA_int (hf : formatOf s.fmt = some f) (hint : isFloat f = false) :
    exec .diagA s = .next (complete (setDout4 (wrapQuad (bfInt (s.diSevenInt 0 1))) s)) := by
  rw [exec, execDiagA, hf]
  exact if_neg (by simp [hint])

theorem exec_diagA_flt (hf : formatOf s.fmt = some .f32) :
    exec .diagA s =
      .next (complete (drawOn (setDout4 (bfFlt s.drawn 255 (s.diSevenFlt 0 1)) s))) := by
  rw [exec, execDiagA, hf]
  rfl

/-- The butterfly of `DIAG_B` on the operands `DI[4·n + k]`, in the integer domain. -/
def diagBInt (s : State) (k : Nat) : Quad Word := wrapQuad (bfInt (s.diSevenInt k 4))

/-- The butterfly of `DIAG_B` on the operands `DI[4·n + k]`, in the float domain. -/
def diagBFlt (s : State) (k : Nat) : Quad Word := bfFlt (s.drawn + k * bfDraws) 1 (s.diSevenFlt k 4)

theorem exec_diagB_int (hf : formatOf s.fmt = some f) (hint : isFloat f = false) :
    exec .diagB s = .next (complete (setDout16
      (blockOf (diagBInt s 0) (diagBInt s 1) (diagBInt s 2) (diagBInt s 3)) s)) := by
  rw [exec, execDiagB, hf]
  exact if_neg (by simp [hint])

theorem exec_diagB_flt (hf : formatOf s.fmt = some .f32) :
    exec .diagB s = .next (complete (drawOn (setDout16
      (blockOf (diagBFlt s 0) (diagBFlt s 1) (diagBFlt s 2) (diagBFlt s 3)) s))) := by
  rw [exec, execDiagB, hf]
  simp only [diagBFlt, Nat.zero_mul, Nat.one_mul, Nat.add_zero]
  rfl

end

theorem quadAt_diagBInt (s : State) (k : Nat) {h : Nat} (hh : h < 4) :
    quadAt (diagBInt s k) h =
      BitVec.ofInt 32 (butterfly h fun n => (s.di.toList.getD (4 * n + k) 0).toInt) := by
  rw [diagBInt, diSevenInt_eq_taps, quadAt_wrapQuad_bfInt _ hh]

theorem quadAt_diagBFlt (s : State) (k h : Nat) :
    quadAt (diagBFlt s k) h =
      butterflyFlt1 (fun i => s.drawn + k * bfDraws + i)
        (fun n => s.di.toList.getD (4 * n + k) 0) h := by
  rw [diagBFlt, diSevenFlt_eq_taps, quadAt_bfFlt_1]

/-! ### The Stage-A store along a row (R126, R127) -/

/-- An integer Stage A draws no free value (R123). -/
theorem stageA_int_draw (d d' p : Nat) (e : List Word) (r c : Nat) :
    stageA d false p e r c = stageA d' false p e r c := by
  simp only [stageA, Bool.false_eq_true, if_false]

/-- Along a row every output finds its slots filled, whatever store the row started on. -/
theorem slotsFilled_row {flt : Bool} {p y W : Nat} {e : List Word} {n : Nat → Nat}
    {c0 : List (Quad Coef)} {colc : Nat → List (Quad Coef)}
    (h0 : colc 0 = stageASchedule (n 0) flt p e y 0 c0)
    (hsucc : ∀ x, x + 1 < W →
      colc (x + 1) = stageASchedule (n (x + 1)) flt p e y (x + 1) (colc x))
    {x : Nat} (hx : x < W) : SlotsFilled flt p e y (slotsAfter x) (colc x) := by
  induction x with
  | zero =>
    rw [h0]
    exact slotsFilled_schedule _ fun h => absurd rfl h
  | succ x ih =>
    rw [hsucc x hx]
    exact slotsFilled_schedule _ fun _ => ih (by omega)

/-- Output `x` reads filled slots only (R141). -/
theorem add_lt_slotsAfter (x : Nat) {k : Nat} (hk : k < 7) : x + k < slotsAfter x := by
  unfold slotsAfter
  omega

end Sys2Proof.Machine
end

section
open Sys2Proof Sys2Proof.Machine Sys2Proof.Claims

/-- Settles O49: by induction along the row, the schedule fills every slot before an output reads it. -/
theorem slidingWindowIsDirect : Obligations.SlidingWindowIsDirect := by
  intro flt p y W e n c0 colc h0 hsucc x hx k hk
  obtain ⟨d, hd⟩ := slotsFilled_row h0 hsucc hx (x + k) (add_lt_slotsAfter x hk)
  rw [Nat.add_right_comm x k 5] at hd
  refine ⟨d, hd, ?_⟩
  rintro rfl d'
  exact hd.trans (stageA_int_draw d d' p e _ _)

/-- Settles O32: the outputs of the one butterfly, and the entries of `DO` above them. -/
theorem diagAIntegerResult : Obligations.DiagAIntegerResult := by
  intro s bytes peak hfmt
  obtain ⟨f, hf, hint, -, -⟩ := intFormat_iff.1 hfmt
  refine ⟨_, exec_diagA_int hf hint, fun k hk => ?_,
    fun k hk => getElem_setDout4_high _ s hk k.isLt, rfl⟩
  refine (getElem_setDout4_low _ s hk).trans ?_
  rw [diSevenInt_eq_taps, quadAt_wrapQuad_bfInt _ hk]
  simp only [Nat.one_mul, Nat.add_zero]

/-- Settles O34: entry `4h + k` of the block is output `h` of butterfly `k`. -/
theorem diagBIntegerResult : Obligations.DiagBIntegerResult := by
  intro s bytes peak hfmt
  obtain ⟨f, hf, hint, -, -⟩ := intFormat_iff.1 hfmt
  refine ⟨_, exec_diagB_int hf hint, fun i => ?_, rfl⟩
  have hh : i.val / 4 < 4 := by omega
  have hi := getD_blockOf (diagBInt s) hh (Nat.mod_lt i.val (by decide : 0 < 4))
  rw [Nat.div_add_mod, quadAt_diagBInt s _ hh] at hi
  exact (getElem_eq_getD _ 0 i).trans hi

/-- Settles O33: draw `i` of the butterfly is free value `drawn + i`. -/
theorem diagAFloatResult : Obligations.DiagAFloatResult := by
  intro s hfmt
  have hout : ∀ k (hk : k < 4),
      (setDout4 (bfFlt s.drawn 255 (s.diSevenFlt 0 1)) s).dout[k] =
        butterflyFlt255 (fun i => s.drawn + i) (fun j => s.di.toList.getD j 0) k := by
    intro k hk
    rw [getElem_setDout4_low _ s hk, diSevenFlt_eq_taps, quadAt_bfFlt_255]
    simp only [Nat.one_mul, Nat.add_zero]
  exact ⟨_, fun i => s.drawn + i, exec_diagA_flt (fltFormat_iff.1 hfmt),
    ⟨hout 0 (by decide), hout 1 (by decide), hout 2 (by decide), hout 3 (by decide)⟩,
    fun k hk => getElem_setDout4_high _ s hk k.isLt, rfl⟩

/-- Settles O35: draw `i` of butterfly `k` is free value `drawn + k * bfDraws + i`. -/
theorem diagBFloatResult : Obligations.DiagBFloatResult := by
  intro s hfmt
  refine ⟨_, fun k i => s.drawn + k * bfDraws + i, exec_diagB_flt (fltFormat_iff.1 hfmt),
    fun k hk => ?_, rfl⟩
  have hout : ∀ h (hh : h < 4),
      (blockOf (diagBFlt s 0) (diagBFlt s 1) (diagBFlt s 2) (diagBFlt s 3)).toList.getD (4 * h + k) 0 =
        butterflyFlt1 (fun i => s.drawn + k * bfDraws + i)
          (fun n => s.di.toList.getD (4 * n + k) 0) h :=
    fun h hh => (getD_blockOf (diagBFlt s) hh hk).trans (quadAt_diagBFlt s k h)
  have hout0 := hout 0 (by decide)
  rw [Nat.mul_zero, Nat.zero_add] at hout0
  exact ⟨hout0, hout 1 (by decide), hout 2 (by decide), hout 3 (by decide)⟩

end

section
/-! SUPPORT. Stage B in the integer domain: the range of the coefficients of a window of bounded samples (R143,
R144), and a flat window through the butterflies, the scorer and the quantizer (R121, R162, R180). -/

namespace Sys2Proof.Machine

open Sys2Proof.Claims

/-! ### The range of a coefficient (R144) -/

/-- `P_hv` of R144: the sum of the positive weights of the outer product of rows `h` and `v`. -/
def positiveWeight (h v : Nat) : Int :=
  ∑ n ∈ Finset.range 7, ∑ j ∈ Finset.range 7, (weight h n * weight v j)⁺

/-- `N_hv` of R144: the sum of the negative weights of the outer product of rows `h` and `v`, as a
magnitude. -/
def negativeWeight (h v : Nat) : Int :=
  ∑ n ∈ Finset.range 7, ∑ j ∈ Finset.range 7, (weight h n * weight v j)⁻

/-- The largest entries of the table of R144. -/
theorem outerWeight_le {h v : Nat} (hh : h < 4) (hv : v < 4) :
    positiveWeight h v ≤ 72 ∧ negativeWeight h v ≤ 72 := by
  interval_cases h <;> interval_cases v <;> decide

theorem mul_le_posPart_mul {c a M : Int} (h0 : 0 ≤ a) (hM : a ≤ M) : c * a ≤ c⁺ * M :=
  calc c * a ≤ c⁺ * a := mul_le_mul_of_nonneg_right (le_posPart c) h0
    _ ≤ c⁺ * M := mul_le_mul_of_nonneg_left hM (posPart_nonneg c)

theorem neg_negPart_mul_le_mul {c a M : Int} (h0 : 0 ≤ a) (hM : a ≤ M) : -(c⁻ * M) ≤ c * a := by
  have h := mul_le_posPart_mul (c := -c) h0 hM
  rw [posPart_neg, neg_mul] at h
  exact neg_le.1 h

/-- The double sum of R143 over samples in `[0, M]` lies in the interval of R144. -/
theorem doubleSum_bounds (h v : Nat) {M : Int} {a : Nat → Nat → Int} (h0 : ∀ n j, 0 ≤ a n j)
    (hM : ∀ n j, a n j ≤ M) :
    -(negativeWeight h v * M) ≤
        ∑ n ∈ Finset.range 7, ∑ j ∈ Finset.range 7, weight h n * weight v j * a n j ∧
      ∑ n ∈ Finset.range 7, ∑ j ∈ Finset.range 7, weight h n * weight v j * a n j ≤
        positiveWeight h v * M := by
  simp only [negativeWeight, positiveWeight, Finset.sum_mul, ← Finset.sum_neg_distrib]
  exact ⟨Finset.sum_le_sum fun n _ => Finset.sum_le_sum fun j _ =>
      neg_negPart_mul_le_mul (h0 n j) (hM n j),
    Finset.sum_le_sum fun n _ => Finset.sum_le_sum fun j _ => mul_le_posPart_mul (h0 n j) (hM n j)⟩

theorem abs_doubleSum_le {h v : Nat} (hh : h < 4) (hv : v < 4) {M : Int} {a : Nat → Nat → Int}
    (h0 : ∀ n j, 0 ≤ a n j) (hM : ∀ n j, a n j ≤ M) :
    |∑ n ∈ Finset.range 7, ∑ j ∈ Finset.range 7, weight h n * weight v j * a n j| ≤ 72 * M := by
  obtain ⟨hlo, hhi⟩ := doubleSum_bounds h v h0 hM
  obtain ⟨hP, hN⟩ := outerWeight_le hh hv
  have hM0 : 0 ≤ M := (h0 0 0).trans (hM 0 0)
  exact abs_le.2 ⟨(neg_le_neg (mul_le_mul_of_nonneg_right hN hM0)).trans hlo,
    hhi.trans (mul_le_mul_of_nonneg_right hP hM0)⟩

/-! ### A flat window (R143, R183) -/

/-- Row `T0` of the weights sums to 8, every other row to 0 (R128). -/
theorem bfInt_flat (c : Int) : bfInt (taps fun _ => c) = ⟨8 * c, 0, 0, 0⟩ := by
  simp only [bfInt, taps, Quad.mk.injEq]
  omega

/-- A zero coefficient adds nothing, whatever its threshold (R162). -/
theorem contribInt_zero (t1 factor : Nat) : contribInt 0 t1 factor = 0 := by
  unfold contribInt
  split_ifs <;> simp

/-- A block without non-DC coefficients scores its DC coefficient alone (R160, R162). -/
theorem scoreInt_of_dcOnly {block : Vector Int 16} (h : ∀ i ∈ nonDc, block[i] = 0) (thr : Vector Word 16)
    (factor : Vector (BitVec 16) 16) :
    scoreInt block thr factor = block[0] * factor[0].toNat := by
  have hzero : (nonDc.map fun i => contribInt block[i] thr[i].toNat factor[i].toNat).sum = 0 := by
    refine List.sum_eq_zero fun z hz => ?_
    obtain ⟨i, hi, rfl⟩ := List.mem_map.1 hz
    rw [h i hi, contribInt_zero]
  rw [scoreInt_eq_sum, hzero, add_zero]

/-- The block of a flat window: the DC coefficient, and zeros. -/
theorem scoreInt_blockOf_dc (c : Int) (thr : Vector Word 16) (factor : Vector (BitVec 16) 16) :
    scoreInt (blockOf ⟨c, 0, 0, 0⟩ ⟨0, 0, 0, 0⟩ ⟨0, 0, 0, 0⟩ ⟨0, 0, 0, 0⟩) thr factor =
      c * factor[0].toNat :=
  scoreInt_of_dcOnly (fun _ hi => by fin_cases hi <;> rfl) thr factor

/-- A legal sample value fits the storage width of its integer format (R27). -/
theorem peakOf_lt_storage {f : SampleFormat} (hf : f = .u8 ∨ ∃ b, 9 ≤ b ∧ b ≤ 16 ∧ f = .u16 b) :
    peakOf f < 2 ^ (8 * sampleBytes f) ∧ peakOf f < 2 ^ 32 := by
  obtain rfl | ⟨b, -, h16, rfl⟩ := hf
  · decide
  · have hpow : 2 ^ b ≤ 2 ^ 16 := Nat.pow_le_pow_right (by norm_num) h16
    simp only [peakOf, sampleBytes]
    omega

/-- `2^18` times a legal sample value quantizes to that value, wrapped or clamped (R180, R183). -/
theorem toNat_quantInt_of_legal {f : SampleFormat}
    (hf : f = .u8 ∨ ∃ b, 9 ≤ b ∧ b ≤ 16 ∧ f = .u16 b) (clamp : Bool) {a : Nat} (ha : a ≤ peakOf f) :
    (quantInt f clamp (2 ^ 18 * a)).toNat = a := by
  obtain ⟨hstorage, hword⟩ := peakOf_lt_storage hf
  have hrescale : rescaleInt (2 ^ 18 * a) = a := by
    obtain ⟨hlo, hhi⟩ := rescaleInt_bounds (2 ^ 18 * a)
    omega
  have hwrap : (a : Int) % 2 ^ (8 * sampleBytes f) = a := by
    exact_mod_cast Nat.mod_eq_of_lt (ha.trans_lt hstorage)
  have hclamp : min (max (a : Int) 0) (peakOf f) = a := by omega
  have hquant : quantInt f clamp (2 ^ 18 * a) = BitVec.ofInt 32 a := by
    simp only [quantInt, hrescale, hwrap, hclamp, ite_self]
  rw [hquant]
  exact_mod_cast toNat_ofInt_of_lt (z := a) (by omega) (by omega)

end Sys2Proof.Machine
end

section
open Sys2Proof Sys2Proof.Machine Sys2Proof.Claims

/-- Settles O50: the double sum is at most `M` times the larger of the positive and the negative part of its
weights. -/
theorem blockIsBoundedDoubleSum : Obligations.BlockIsBoundedDoubleSum := by
  intro p y x M e hM d i
  have hh : i.val / 4 < 4 := by omega
  have hv : i.val % 4 < 4 := Nat.mod_lt _ (by decide)
  have hblock := getElem_stageB_int (d 7) p (y + 5) (x + 5) d e hh hv
  simp only [Nat.div_add_mod, butterfly_butterfly] at hblock
  exact ⟨_, hblock, rfl, abs_doubleSum_le hh hv (fun _ _ => Int.natCast_nonneg _)
    fun _ _ => Int.ofNat_le.2 (hM _ _)⟩

/-- Settles O51: only the DC coefficient `64·a` is left, and `64 · 4096 = 2^18`. -/
theorem flatWindowComesBack : Obligations.FlatWindowComesBack := by
  intro f clamp a thr factor hf ha hfactor
  have hscore : (8 * (8 * a) : Int) * (4096 : BitVec 16).toNat = 2 ^ 18 * a := by
    rw [show (4096 : BitVec 16).toNat = 4096 from rfl]
    omega
  simp only [bfInt_flat, mul_zero, scoreInt_blockOf_dc, hfactor, hscore]
  exact toNat_quantInt_of_legal hf clamp ha

end

section
/-! SUPPORT. The scorer: its two unsigned tests on coefficients and thresholds in range (R163, R167), the range of
its sum (R164), the meaning of `DIAG_S` (R170), and that the first threshold is read by nothing (R169). -/

namespace Sys2Proof.Machine

open Sys2Proof.Claims

/-! ### The unsigned tests (R163, R167) -/

/-- The idea of C3: adding `t` moves the band `[-t, t]` to `[0, 2·t]`, and below it the sum wraps to the top
half of the unsigned range. -/
theorem shifted_residue_iff_abs {b t : Int} (hlo : -2 ^ 31 ≤ b) (hhi : b < 2 ^ 31) (h0 : 0 ≤ t)
    (ht : t < 2 ^ 31) : 2 * t % 2 ^ 32 < (b + t) % 2 ^ 32 ↔ t < |b| := by
  have hband : 2 * t % 2 ^ 32 = 2 * t := Int.emod_eq_of_lt (by omega) (by omega)
  rw [hband, lt_abs]
  obtain hbelow | hfrom := lt_or_ge (b + t) 0
  · have hwrap : (b + t) % 2 ^ 32 = b + t + 2 ^ 32 := by
      rw [← Int.add_emod_right, Int.emod_eq_of_lt (by omega) (by omega)]
    rw [hwrap]
    omega
  · rw [Int.emod_eq_of_lt hfrom (by omega)]
    omega

section
variable {b : Int} {t1 : Nat} (hlo : -2 ^ 31 ≤ b) (hhi : b < 2 ^ 31) (ht : t1 < 2 ^ 30)
include hlo hhi ht

theorem outsideBand_iff_abs : outsideBand b t1 = true ↔ (t1 : Int) < |b| := by
  rw [outsideBand_iff, shifted_residue_iff_abs hlo hhi (by omega) (by omega)]

theorem isLarge_iff_abs : isLarge b t1 = true ↔ 2 * (t1 : Int) < |b| := by
  have hdouble : 2 * (t1 : Int) % 2 ^ 32 = 2 * t1 := Int.emod_eq_of_lt (by omega) (by omega)
  rw [isLarge_iff, hdouble, shifted_residue_iff_abs hlo hhi (by omega) (by omega)]

/-- The three-way rule of the glossary. -/
theorem contribInt_eq_threeWay (factor : Nat) :
    contribInt b t1 factor =
      if |b| ≤ t1 then 0
      else if |b| ≤ 2 * t1 then 2 * b.sign * (|b| - t1) * factor
      else b * factor := by
  simp only [contribInt, outsideBand_iff_abs hlo hhi ht, isLarge_iff_abs hlo hhi ht,
    Int.natCast_natAbs, ← not_le, ite_not]

end

/-- The second and the third rule agree at `|b| = 2·t1`. -/
theorem softThreshold_at_two_mul {b t1 : Int} (h : |b| = 2 * t1) : 2 * b.sign * (|b| - t1) = b :=
  calc 2 * b.sign * (|b| - t1) = b.sign * |b| := by rw [h]; ring
    _ = b := Int.sign_mul_abs b

/-- Both tests see a coefficient only modulo `2^32`. -/
theorem tests_emod (b : Int) (t1 : Nat) :
    outsideBand (b % 2 ^ 32) t1 = outsideBand b t1 ∧ isLarge (b % 2 ^ 32) t1 = isLarge b t1 := by
  constructor
  · rw [Bool.eq_iff_iff, outsideBand_iff, outsideBand_iff, Int.emod_add_emod]
  · rw [Bool.eq_iff_iff, isLarge_iff, isLarge_iff, Int.emod_add_emod]

/-- `CVT_U32` of a finite value of less than 64 bits (R166). -/
theorem cvtU32_of_finite {b : Word} (n : Nat) (hb : FiniteFlt b) (h : |truncInt b| < 2 ^ 63) :
    (cvtU32 n b : Int) = truncInt b % 2 ^ 32 := by
  rw [truncInt_eq] at h ⊢
  exact (convertsTo_cvtU32 n b).2 hb.1 hb.2 h

theorem abs_truncInt (w : Word) : |truncInt w| = (magUnits w / 2 ^ 149 : Nat) := by
  unfold truncInt
  split_ifs
  · rw [abs_neg, Nat.abs_cast]
  · exact Nat.abs_cast _

/-! ### The range of the integer sum (R164) -/

/-- A product with a factor, for the bound on a contribution. -/
theorem abs_mul_factor_le {x c factor : Int} (hx : |x| ≤ c) (h0 : 0 ≤ factor) (h16 : factor < 2 ^ 16) :
    |x * factor| ≤ c * 2 ^ 16 := by
  rw [abs_mul, abs_of_nonneg h0]
  exact mul_le_mul hx h16.le h0 ((abs_nonneg x).trans hx)

/-- The soft-threshold value before its factor: `|b| - t1` has at most 32 bits, and the slope is 2. -/
theorem abs_softThreshold_le {b t1 : Int} (hb : |b| ≤ 2 ^ 31) (h0 : 0 ≤ t1) (ht : t1 < 2 ^ 32) :
    |2 * b.sign * (|b| - t1)| ≤ 2 ^ 33 := by
  have hnonneg := abs_nonneg b
  obtain hs | hs | hs := Int.sign_trichotomy b <;> rw [hs, abs_le] <;> omega

theorem abs_contribution_le {b t1 factor : Int} (hb : |b| ≤ 2 ^ 31) (h0 : 0 ≤ t1) (ht : t1 < 2 ^ 32)
    (hf0 : 0 ≤ factor) (hf : factor < 2 ^ 16) : |contribution b t1 factor| ≤ 2 ^ 33 * 2 ^ 16 := by
  unfold contribution
  split_ifs
  · exact abs_mul_factor_le (hb.trans (by norm_num)) hf0 hf
  · exact abs_mul_factor_le (abs_softThreshold_le hb h0 ht) hf0 hf
  · norm_num

/-- One coefficient without a threshold and fifteen with one. -/
theorem abs_scoreSum_lt {block : Nat → Int} (h : ∀ i, |block i| ≤ 2 ^ 31) (thr : Vector Word 16)
    (factor : Vector (BitVec 16) 16) : |scoreSum block thr factor| < 2 ^ 54 := by
  have hfactor (f : BitVec 16) : (f.toNat : Int) < 2 ^ 16 := by exact_mod_cast f.isLt
  have hdc := abs_mul_factor_le (h 0) (Int.natCast_nonneg _) (hfactor factor[0])
  have hterm : ∀ i ∈ Finset.Icc 1 15, |contribution (block i) (thr.toList.getD i 0).toNat
      (factor.toList.getD i 0).toNat| ≤ 2 ^ 33 * 2 ^ 16 := fun i _ =>
    abs_contribution_le (h i) (Int.natCast_nonneg _) (by exact_mod_cast (thr.toList.getD i 0).isLt)
      (Int.natCast_nonneg _) (hfactor _)
  have hsum := (Finset.abs_sum_le_sum_abs _ _).trans (Finset.sum_le_card_nsmul _ _ _ hterm)
  rw [Nat.card_Icc, nsmul_eq_mul] at hsum
  calc |scoreSum block thr factor| ≤ 2 ^ 31 * 2 ^ 16 + (15 : Nat) * (2 ^ 33 * 2 ^ 16) :=
        (abs_add_le _ _).trans (add_le_add hdc hsum)
    _ < 2 ^ 54 := by norm_num

theorem abs_toInt_le (w : Word) : |w.toInt| ≤ 2 ^ 31 :=
  abs_le.2 ⟨w.le_toInt, w.toInt_lt.le⟩

/-! ### `ACC` (R41) -/

/-- The two halves of `ACC` are the 64 bits of the sum. -/
theorem acc_setAccInt (v : Int) (s : State) : (setAccInt v s).acc = BitVec.ofInt 64 v := by
  rw [State.acc, setAccInt_accHi, setAccInt_accLo,
    BitVec.extractLsb'_append_extractLsb'_eq_extractLsb' (show 32 = 0 + 32 from rfl)]
  exact BitVec.extractLsb'_eq_self

theorem toInt_acc_setAccInt {v : Int} (h : |v| < 2 ^ 63) (s : State) : (setAccInt v s).acc.toInt = v := by
  obtain ⟨hlo, hhi⟩ := abs_lt.1 h
  rw [acc_setAccInt, BitVec.toInt_ofInt_eq_self (by decide) hlo.le hhi]

/-! ### `DIAG_S` (R170) -/

section
variable {s : State} {f : SampleFormat}

theorem exec_diagS_badFormat (hf : formatOf s.fmt = none) :
    exec .diagS s = .next (raiseError .badFormat 0 s) := by
  rw [exec, execDiagS, hf]

variable (hf : formatOf s.fmt = some f)
include hf

theorem exec_diagS_noThr (hthr : s.status.thrValid = false) :
    exec .diagS s = .next (raiseError .noThr 0 s) := by
  rw [exec, execDiagS, hf]
  exact if_pos hthr

variable (hthr : s.status.thrValid = true)
include hthr

theorem exec_diagS_int (hint : isFloat f = false) :
    exec .diagS s = .next (complete (setAccInt (scoreInt (sixteen s.diInt) s.thr s.params.factorRom) s)) := by
  simp [exec, execDiagS, hf, hthr, hint]

theorem exec_diagS_flt (hflt : isFloat f = true) :
    exec .diagS s = .next (complete (drawOn
      (setAccFlt (scoreFlt s.drawn (sixteen s.diAt) s.thr s.params.factorRom) s))) := by
  simp [exec, execDiagS, hf, hthr, hflt]

end

/-! ### Another first threshold (R169) -/

/-- The state with `w` in `THR[0]`. -/
def withThr0 (w : Word) (s : State) : State := { s with thr := s.thr.set 0 w }

/-- Two passes over the non-DC coefficients agree if their steps do; index 0 is none of them. -/
theorem foldl_nonDc_congr {α : Type} {g g' : α → Fin 16 → α} (h : ∀ v i, i ≠ 0 → g v i = g' v i) (v : α) :
    nonDc.foldl g v = nonDc.foldl g' v :=
  List.foldl_ext g g' v fun v i hi => h v i fun h0 => absurd (h0 ▸ hi) (by decide)

theorem getElem_set_thr0 (thr : Vector Word 16) (w : Word) {i : Fin 16} (hi : i ≠ 0) :
    (thr.set 0 w)[i] = thr[i] :=
  Vector.getElem_set_ne _ i.isLt fun h => hi (Fin.ext h.symm)

theorem scoreInt_set_thr0 (block : Vector Int 16) (thr : Vector Word 16) (factor : Vector (BitVec 16) 16)
    (w : Word) : scoreInt block (thr.set 0 w) factor = scoreInt block thr factor :=
  foldl_nonDc_congr (fun v i hi => by rw [getElem_set_thr0 thr w hi]) _

theorem scoreFlt_set_thr0 (n : Nat) (block thr : Vector Word 16) (factor : Vector (BitVec 16) 16)
    (w : Word) : scoreFlt n block (thr.set 0 w) factor = scoreFlt n block thr factor :=
  foldl_nonDc_congr (fun v i hi => by rw [getElem_set_thr0 thr w hi]) _

section
variable (w : Word) (s : State)

theorem exec_diagS_withThr0 {t : State} (h : exec .diagS s = .next t) :
    exec .diagS (withThr0 w s) = .next (withThr0 w t) := by
  cases hf : formatOf s.fmt with
  | none =>
    rw [exec_diagS_badFormat hf] at h
    cases h
    exact exec_diagS_badFormat hf
  | some f =>
    cases hthr : s.status.thrValid with
    | false =>
      rw [exec_diagS_noThr hf hthr] at h
      cases h
      exact exec_diagS_noThr hf hthr
    | true =>
      cases hflt : isFloat f with
      | false =>
        rw [exec_diagS_int hf hthr hflt] at h
        cases h
        rw [← scoreInt_set_thr0 _ s.thr _ w]
        exact exec_diagS_int (s := withThr0 w s) hf hthr hflt
      | true =>
        rw [exec_diagS_flt hf hthr hflt] at h
        cases h
        rw [← scoreFlt_set_thr0 _ _ s.thr _ w]
        exact exec_diagS_flt (s := withThr0 w s) hf hthr hflt

theorem runStart_withThr0 : runStart (withThr0 w s) = withThr0 w (runStart s) := by
  have hcheck : runCheck (withThr0 w s) = runCheck s := rfl
  rw [runStart, runStart, hcheck]
  cases runCheck s <;> rfl

theorem extendNext_withThr0 : extendNext (withThr0 w s) = withThr0 w (extendNext s) := by
  simp only [extendNext, apply_ite (withThr0 w)]
  rfl

theorem filterNext_withThr0 : filterNext (withThr0 w s) = withThr0 w (filterNext s) := by
  simp only [filterNext, apply_ite (withThr0 w)]
  rfl

theorem extendTick_withThr0 (f : SampleFormat) :
    extendTick f (withThr0 w s) = withThr0 w (extendTick f s) := by
  simp only [extendTick, apply_ite (withThr0 w), ← extendNext_withThr0]
  rfl

theorem scoreOf_withThr0 (n : Nat) (flt : Bool) (block : Vector Coef 16) :
    scoreOf n flt (withThr0 w s) block = scoreOf n flt s block := by
  simp only [scoreOf, withThr0, scoreInt_set_thr0, scoreFlt_set_thr0]

theorem filterCompute_withThr0 (f : SampleFormat) :
    filterCompute f (withThr0 w s) = withThr0 w (filterCompute f s) := by
  simp only [filterCompute, scoreOf_withThr0]
  rfl

theorem filterTick_withThr0 (f : SampleFormat) :
    filterTick f (withThr0 w s) = withThr0 w (filterTick f s) := by
  simp only [filterTick, filterCompute_withThr0, apply_ite (withThr0 w), ← filterNext_withThr0]
  rfl

theorem runTick_withThr0 : runTick (withThr0 w s) = withThr0 w (runTick s) := by
  have hphase : (withThr0 w s).phase = s.phase := rfl
  have hfmt : (withThr0 w s).fmt = s.fmt := rfl
  rw [runTick, runTick, hphase, hfmt]
  cases s.phase with
  | idle => rfl
  | issued => rfl
  | extend => cases formatOf s.fmt with
    | none => rfl
    | some f => exact extendTick_withThr0 w s f
  | filter => cases formatOf s.fmt with
    | none => rfl
    | some f => exact filterTick_withThr0 w s f

end

theorem runTicks_withThr0 (w : Word) (k : Nat) (s : State) :
    runTicks k (withThr0 w s) = withThr0 w (runTicks k s) := by
  induction k generalizing s with
  | zero => rfl
  | succ k ih =>
    rw [runTicks, runTicks, runTick_withThr0, ih, apply_ite (withThr0 w)]
    rfl

theorem exec_run_withThr0 (w : Word) {s t : State} (h : exec .run s = .next t) :
    exec .run (withThr0 w s) = .next (withThr0 w t) := by
  cases h
  rw [exec, execRun, runStart_withThr0, runToEnd, runToEnd, ← runTicks_withThr0]
  rfl

end Sys2Proof.Machine
end

section
open Sys2Proof Sys2Proof.Machine Sys2Proof.Claims

/-- Settles O42: below `2^30` no shifted band wraps past the top of the unsigned range. -/
theorem unsignedTestsAreMagnitudeTests : Obligations.UnsignedTestsAreMagnitudeTests := by
  intro b t1 factor hlo hhi ht
  rw [contribInt_eq_threeWay hlo hhi ht]
  refine ⟨outsideBand_iff_abs hlo hhi ht, isLarge_iff_abs hlo hhi ht, fun h => if_pos h, fun h h' => ?_,
    fun h => ?_, fun h => ?_⟩
  · rw [if_neg h.not_ge, if_pos h']
  · split_ifs with hband htwice
    · have hzero : b = 0 := abs_nonpos_iff.1 (by omega)
      rw [hzero, zero_mul]
    · rw [softThreshold_at_two_mul h]
    · rfl
  · rw [if_neg (by omega), if_neg (by omega)]

/-- Settles O43: both tests see a coefficient modulo `2^32`, so the conversion stands for the truncated value. -/
theorem floatClassifiedByTruncation : Obligations.FloatClassifiedByTruncation := by
  intro n b t1 hb hsmall ht
  obtain ⟨hlo, hhi⟩ := abs_lt.1 hsmall
  rw [cvtU32_of_finite n hb (hsmall.trans (by norm_num)), (tests_emod _ t1).1, (tests_emod _ t1).2,
    outsideBand_iff_abs hlo.le hhi ht, isLarge_iff_abs hlo.le hhi ht, abs_truncInt]
  exact ⟨Int.ofNat_lt, by omega⟩

/-- Settles O36: the sum is below `2^54`, so the 64 bits of `ACC` hold it. -/
theorem diagSIntegerResult : Obligations.DiagSIntegerResult := by
  intro s bytes peak hfmt hthr
  obtain ⟨f, hf, hint, -, -⟩ := intFormat_iff.1 hfmt
  have hdi : s.diInt = fun i => (s.di.toList.getD i 0).toInt :=
    funext fun i => congrArg BitVec.toInt (diAt_eq_getD s i)
  have hscore := scoreInt_sixteen s.diInt s.thr s.params.factorRom
  have hbound : |scoreSum s.diInt s.thr s.params.factorRom| < 2 ^ 54 :=
    abs_scoreSum_lt (fun i => abs_toInt_le _) s.thr s.params.factorRom
  rw [← hscore] at hbound
  exact ⟨_, _, exec_diagS_int hf hthr hint, by rw [hscore, hdi], hbound,
    toInt_acc_setAccInt (hbound.trans (by norm_num)) s, rfl⟩

/-- Settles O37: the conversions and the draws are those of the scorer whose first draw is `drawn`. -/
theorem diagSFloatResult : Obligations.DiagSFloatResult := by
  intro s hfmt hthr
  have hdi : s.diAt = fun i => s.di.toList.getD i 0 := funext (diAt_eq_getD s)
  refine ⟨_, scoreDraws s.drawn, fun i => cvtU32 (s.drawn + 8 * i) (s.diAt i),
    exec_diagS_flt (fltFormat_iff.1 hfmt) hthr rfl, fun i _ _ => ?_, ?_, rfl, rfl⟩
  · rw [← diAt_eq_getD]
    exact convertsTo_cvtU32 _ _
  · rw [← hdi]
    exact scoreFlt_sixteen s.drawn s.diAt s.thr s.params.factorRom

/-- Settles O44: the state with another `THR[0]` stays so under every step of both commands. -/
theorem firstThresholdIsNeverUsed : Obligations.FirstThresholdIsNeverUsed := by
  rintro s t w i (rfl | rfl) h
  · exact exec_diagS_withThr0 w s h
  · exact exec_run_withThr0 w h

end

section
/-! SUPPORT. The diagnostic of the quantizer: `DO` after its first entry is set, and the meaning of `DIAG_Q` with a
legal format (R184). -/

namespace Sys2Proof.Machine

/-! ### `DO[0]` (R40) -/

theorem getElem_zero_setDout0 (w : Word) (s : State) : (setDout0 w s).dout[0] = w := by
  rw [setDout0_dout, Vector.getElem_set_self]

/-- `DO[1..15]` stay as they were. -/
theorem getElem_setDout0_of_ne (w : Word) (s : State) {k : Fin 16} (hk : k ≠ 0) :
    (setDout0 w s).dout[k] = s.dout[k] :=
  Vector.getElem_set_ne (by decide) k.isLt fun h => hk (Fin.ext h.symm)

/-! ### `DIAG_Q` with a legal format (R184) -/

section
variable {s : State}

theorem exec_diagQ_int {f : SampleFormat} (hf : formatOf s.fmt = some f) (hint : isFloat f = false) :
    exec .diagQ s = .next (complete (setDout0 (quantInt f s.params.outClamp s.acc.toInt) s)) := by
  rw [exec, execDiagQ, hf]
  exact if_neg (by simp [hint])

theorem exec_diagQ_flt (hf : formatOf s.fmt = some .f32) :
    exec .diagQ s = .next (complete (drawOn (setDout0 (quantFlt s.drawn s.accLo) s))) := by
  rw [exec, execDiagQ, hf]
  rfl

end

end Sys2Proof.Machine
end

section
open Sys2Proof Sys2Proof.Machine Sys2Proof.Claims

/-- Settles O38: `QUANT_INT` of the accumulator is the word of R180 for the format in force. -/
theorem diagQIntegerResult : Obligations.DiagQIntegerResult := by
  intro s bytes peak hfmt
  obtain ⟨f, hf, hint, rfl, rfl⟩ := intFormat_iff.1 hfmt
  refine ⟨_, exec_diagQ_int hf hint, ?_, fun k hk => getElem_setDout0_of_ne _ s hk, rfl⟩
  rw [complete_dout, getElem_zero_setDout0]
  exact quantInt_spec hf hint s.params.outClamp s.acc.toInt

/-- Settles O39: the product with `2^-18` takes free value `drawn`, the one with `INV255` the next. -/
theorem diagQFloatResult : Obligations.DiagQFloatResult := by
  intro s hfmt
  exact ⟨_, s.drawn + 1, s.drawn, exec_diagQ_flt (fltFormat_iff.1 hfmt),
    getElem_zero_setDout0 (quantFlt s.drawn s.accLo) s,
    fun k hk => getElem_setDout0_of_ne _ s hk, rfl⟩

end

section
/-! SUPPORT. The command in flight comes to the same end however far it has got (R202, R270), and leaves a
record of its end (R200, R232). -/

namespace Sys2Proof.Machine

/-! ### The end of a command, from any sequencer step (R202, R270) -/

section
variable {s t : State}

theorem settle_of_issued (h : s.phase = .issued) : settle s = execIssued s := by
  rw [settle, h]

/-- What a `RUN` has left to do ends it; an idle core has nothing left. -/
theorem settle_of_not_issued (h : s.phase ≠ .issued) : settle s = .next (runToEnd s) := by
  unfold settle
  cases hp : s.phase with
  | idle => rw [runToEnd_of_idle s hp]
  | issued => exact absurd hp h
  | extend => rfl
  | filter => rfl

theorem execIssued_of_decode_run (h : decode s.cmd = .ok .run) :
    execIssued s = .next (runToEnd (runStart s)) := by
  rw [execIssued, h]
  rfl

/-- A step of a `RUN` past its checks leaves the end of the `RUN` as it was. -/
theorem settle_runTick (h : s.phase = .extend ∨ s.phase = .filter) : settle (runTick s) = settle s := by
  have hs : s.phase ≠ .issued := by rcases h with h | h <;> simp [h]
  rw [settle_of_not_issued (runTick_phase s hs), settle_of_not_issued hs, runToEnd_runTick s h]

/-- One sequencer step leaves the end of the command as it was. -/
theorem settle_seqStep (h : seqStep s = .next t) : settle t = settle s := by
  cases hp : s.phase with
  | idle =>
    rw [seqStep, hp] at h
    cases h
    rfl
  | issued =>
    rw [settle_of_issued hp]
    rcases seqStep_issued s hp with ⟨hrun, hstep⟩ | ⟨-, hstep⟩
    · obtain rfl : runStart s = t := by injection hstep.symm.trans h
      have hstart : (runStart s).phase ≠ .issued := by rcases runStart_phase s with h | h <;> simp [h]
      rw [settle_of_not_issued hstart, execIssued_of_decode_run hrun]
    · obtain ⟨u, hu, hidle⟩ := execIssued_ends s
      obtain rfl : u = t := by injection hu.symm.trans (hstep.symm.trans h)
      rw [settle_of_not_issued (by simp [hidle]), runToEnd_of_idle u hidle, hu]
  | extend =>
    rw [seqStep, hp] at h
    cases h
    exact settle_runTick (.inl hp)
  | filter =>
    rw [seqStep, hp] at h
    cases h
    exact settle_runTick (.inr hp)

theorem settle_advance (k : Nat) (h : advance k s = .next t) : settle t = settle s := by
  induction k generalizing s with
  | zero =>
    cases h
    rfl
  | succ k ih =>
    rw [advance] at h
    split_ifs at h
    · cases h
      rfl
    · obtain ⟨u, hu⟩ := seqStep_next s
      rw [hu] at h
      rw [ih h, settle_seqStep hu]

/-! ### The record of a completion (R200, R202) -/

/-- A command that has come to its end has set `DONE` or `ERR`. -/
def EndRecorded (s : State) : Prop := s.phase = .idle → s.status.done = true ∨ s.status.err = true

theorem EndRecorded.of_inFlight (h : s.phase ≠ .idle) : EndRecorded s := fun hp => absurd hp h

theorem endRecorded_complete (s : State) : EndRecorded (complete s) := fun _ => .inl rfl

theorem endRecorded_raiseError (c : ErrCode) (a : Word) (s : State) : EndRecorded (raiseError c a s) :=
  fun _ => .inr rfl

/-- A sequencer step of a `RUN` does nothing, fails, or moves on to the next sample of its phase. -/
theorem runTick_cases (s : State) :
    runTick s = s ∨ (∃ c a u, runTick s = raiseError c a u) ∨
      (∃ u, u.phase = .extend ∧ runTick s = extendNext u) ∨
      ∃ u, u.phase = .filter ∧ runTick s = filterNext u := by
  unfold runTick
  split
  next => exact .inl rfl
  next => exact .inl rfl
  next hp =>
    split
    · exact .inr (.inl ⟨_, _, _, rfl⟩)
    · unfold extendTick
      dsimp only
      split_ifs
      · exact .inr (.inl ⟨_, _, _, rfl⟩)
      · exact .inr (.inr (.inl ⟨_, by simpa using hp, rfl⟩))
  next hp =>
    split
    · exact .inr (.inl ⟨_, _, _, rfl⟩)
    · unfold filterTick
      dsimp only
      split_ifs
      · exact .inr (.inl ⟨_, _, _, rfl⟩)
      · exact .inr (.inr (.inr ⟨_, by simpa using hp, rfl⟩))

/-- No move of `EXTEND` ends the command. -/
theorem endRecorded_extendNext (h : s.phase ≠ .idle) : EndRecorded (extendNext s) := by
  rcases extendNext_cases s with ⟨-, he⟩ | ⟨-, -, he⟩ | ⟨-, -, he⟩ <;> rw [he]
  · exact .of_inFlight h
  · exact .of_inFlight h
  · exact .of_inFlight nofun

theorem endRecorded_filterNext (h : s.phase ≠ .idle) : EndRecorded (filterNext s) := by
  rcases filterNext_cases s with ⟨-, he⟩ | ⟨-, -, he⟩ | ⟨-, -, he⟩ <;> rw [he]
  · exact .of_inFlight h
  · exact .of_inFlight h
  · exact endRecorded_complete s

theorem EndRecorded.runTick (h : EndRecorded s) : EndRecorded (runTick s) := by
  rcases runTick_cases s with he | ⟨c, a, u, he⟩ | ⟨u, hp, he⟩ | ⟨u, hp, he⟩ <;> rw [he]
  · exact h
  · exact endRecorded_raiseError c a u
  · exact endRecorded_extendNext (by simp [hp])
  · exact endRecorded_filterNext (by simp [hp])

theorem EndRecorded.runToEnd (h : EndRecorded s) : EndRecorded (runToEnd s) := by
  unfold Machine.runToEnd
  generalize tickBound s = k
  induction k generalizing s with
  | zero => exact h
  | succ k ih =>
    rw [runTicks]
    split_ifs
    · exact h
    · exact ih h.runTick

theorem endRecorded_runStart (s : State) : EndRecorded (runStart s) := by
  unfold runStart
  split
  · exact endRecorded_raiseError _ _ s
  · exact .of_inFlight nofun

theorem endRecorded_exec {i : Instr} (h : exec i s = .next t) : EndRecorded t := by
  by_cases hi : i = .run
  · subst hi
    cases h
    exact (endRecorded_runStart s).runToEnd
  · rcases exec_cases i s hi with ⟨c, -, -, he⟩ | ⟨_, _, _, _, _, _, _, he, -⟩
    · cases he.symm.trans h
      exact endRecorded_raiseError c 0 s
    · cases he.symm.trans h
      exact endRecorded_complete _

theorem endRecorded_execIssued (h : execIssued s = .next t) : EndRecorded t := by
  unfold execIssued at h
  split at h
  · exact endRecorded_exec h
  · cases h
    exact endRecorded_raiseError _ _ s

/-- A command in flight leaves a record of its end. -/
theorem endRecorded_settle (hp : s.phase ≠ .idle) (h : settle s = .next t) : EndRecorded t := by
  by_cases hi : s.phase = .issued
  · rw [settle_of_issued hi] at h
    exact endRecorded_execIssued h
  · rw [settle_of_not_issued hi] at h
    cases h
    exact (EndRecorded.of_inFlight hp).runToEnd

end

theorem step_of_no_script {s : State} (h : s.script = []) : step s = settle s := by
  rw [step, hostStep, h]

end Sys2Proof.Machine
end

section
open Sys2Proof Sys2Proof.Machine Sys2Proof.Claims

/-- Settles O23: by induction on the sequencer steps, each of which leaves the end as it was. -/
theorem interleavingEndsAsAtOnce : Obligations.InterleavingEndsAsAtOnce := fun _ _ k => settle_advance k

/-- Settles O24: `DONE` or `ERR` is set at the end, and a coherent core never has both. -/
theorem everyCommandCompletes : Obligations.EveryCommandCompletes := by
  intro s hs hbusy hscript
  obtain ⟨t, ht, hidle⟩ := settle_ends s
  have hstep : step s = .next t := (step_of_no_script hscript).trans ht
  have hcoh : t.Coherent := everyStepKeepsCoherence s t hs hstep
  obtain ⟨hboth, herrCode, hdoneCode⟩ := hcoh.record
  have hnotBusy : t.status.busy = false := Bool.eq_false_iff.2 fun hb => hcoh.busy.1 hb hidle
  refine ⟨t, hstep, ⟨hnotBusy, hidle⟩, ?_⟩
  rcases endRecorded_settle (hs.busy.1 hbusy) ht hidle with hdone | herr
  · exact .inl ⟨hdone, Bool.eq_false_iff.2 fun herr => hboth ⟨hdone, herr⟩, hdoneCode hdone⟩
  · exact .inr ⟨Bool.eq_false_iff.2 fun hdone => hboth ⟨hdone, herr⟩, herr, herrCode herr⟩

/-- Settles O27: `NOP` is its completion. -/
theorem nopCompletes : Obligations.NopCompletes := fun _ => rfl

end

section
/-! SUPPORT. The thresholds: the integer forms of R204 are the formula rounded (C1), they grow with `qp`, and
the largest is the one R205 names. -/

namespace Sys2Proof.Machine

open Sys2Proof.Claims

/-! ### The three classes of R205 -/

section
variable {qp peak i : Nat}

/-- Both index bits are clear: `A = B = 2`. -/
theorem thresh_even (h : i % 2 = 0 ∧ i / 4 % 2 = 0) :
    thresh qp peak i = (2 * ((16 * qp - 1) * peak) + 255) / 510 := by
  rw [thresh, if_pos h, Nat.mul_assoc]

/-- Both index bits are set: `A = B = sqrt(10)`. -/
theorem thresh_odd (h : i % 2 = 1 ∧ i / 4 % 2 = 1) :
    thresh qp peak i = (2 * ((40 * qp - 1) * peak) + 255) / 510 := by
  rw [thresh, if_neg (by omega), if_pos h, Nat.mul_assoc]

/-- The index bits differ: `A·B = 2·sqrt(10)`. -/
theorem thresh_mixed (h : i % 2 ≠ i / 4 % 2) :
    thresh qp peak i = (Nat.sqrt (2560 * (peak * qp) ^ 2) - 2 * peak + 255) / 510 := by
  rw [thresh, if_neg (by omega), if_neg (by omega), isqrt_eq_sqrt, Nat.mul_pow, Nat.mul_assoc]

/-- The three classes are all there are. -/
theorem index_class (i : Nat) :
    (i % 2 = 0 ∧ i / 4 % 2 = 0) ∨ (i % 2 = 1 ∧ i / 4 % 2 = 1) ∨ i % 2 ≠ i / 4 % 2 := by omega

/-! ### The square root of the mixed class (R204) -/

/-- `sqrt(2560)` lies between 2 and 51. -/
theorem sqrt_mixed_bounds (n : Nat) :
    2 * n ≤ Nat.sqrt (2560 * n ^ 2) ∧ Nat.sqrt (2560 * n ^ 2) ≤ 51 * n := by
  constructor
  · exact Nat.le_sqrt'.2 (by rw [Nat.mul_pow]; omega)
  · rw [← Nat.sqrt_eq' (51 * n)]
    exact Nat.sqrt_le_sqrt (by rw [Nat.mul_pow]; omega)

/-- The subtraction of R204 does not go below zero. -/
theorem two_mul_le_sqrt_mixed (peak : Nat) (hqp : 1 ≤ qp) :
    2 * peak ≤ Nat.sqrt (2560 * (peak * qp) ^ 2) :=
  (Nat.mul_le_mul_left 2 (Nat.le_mul_of_pos_right peak hqp)).trans (sqrt_mixed_bounds _).1

/-- One more `qp` adds at least `50·peak` to the root. -/
theorem sqrt_mixed_step (peak qp : Nat) :
    Nat.sqrt (2560 * (peak * qp) ^ 2) + 50 * peak ≤ Nat.sqrt (2560 * (peak * (qp + 1)) ^ 2) := by
  have hsq := Nat.sqrt_le' (2560 * (peak * qp) ^ 2)
  obtain ⟨-, hle⟩ := sqrt_mixed_bounds (peak * qp)
  refine Nat.le_sqrt'.2 ?_
  nlinarith [Nat.mul_le_mul_left peak hle]

/-! ### Growth and bound (R205) -/

/-- A numerator that grows by the divisor or more makes the quotient grow. -/
theorem div_lt_div_of_add_le {a b d : Nat} (hd : 0 < d) (h : a + d ≤ b) : a / d < b / d :=
  calc a / d < (a + d) / d := by rw [Nat.add_div_right a hd]; exact Nat.lt_succ_self _
    _ ≤ b / d := Nat.div_le_div_right h

/-- One more `qp` adds `2·c·peak` to the numerator of a class without a root. -/
theorem linear_step (c : Nat) (hc : 16 ≤ c) (hpeak : 255 ≤ peak) (hqp : 1 ≤ qp) :
    2 * ((c * qp - 1) * peak) + 255 + 510 ≤ 2 * ((c * (qp + 1) - 1) * peak) + 255 := by
  have hpos : 1 ≤ c * qp := Nat.mul_pos (by omega) hqp
  have hnext : c * (qp + 1) - 1 = c * qp - 1 + c := by
    rw [Nat.mul_add]
    omega
  have hgrow := Nat.mul_le_mul hc hpeak
  rw [hnext, Nat.add_mul]
  omega

theorem thresh_lt_succ (hpeak : 255 ≤ peak) (hqp : 1 ≤ qp) :
    thresh qp peak i < thresh (qp + 1) peak i := by
  rcases index_class i with h | h | h
  · rw [thresh_even h, thresh_even h]
    exact div_lt_div_of_add_le (by norm_num) (linear_step 16 le_rfl hpeak hqp)
  · rw [thresh_odd h, thresh_odd h]
    exact div_lt_div_of_add_le (by norm_num) (linear_step 40 (by norm_num) hpeak hqp)
  · rw [thresh_mixed h, thresh_mixed h]
    have hstep := sqrt_mixed_step peak qp
    have hroot := two_mul_le_sqrt_mixed peak hqp
    exact div_lt_div_of_add_le (by norm_num) (by omega)

theorem thresh_le (hpeak : peak ≤ 65535) (hqp : qp ≤ 63) : thresh qp peak i ≤ 647383 := by
  rcases index_class i with h | h | h
  · have := Nat.mul_le_mul (show 16 * qp - 1 ≤ 1007 by omega) hpeak
    rw [thresh_even h]
    omega
  · have := Nat.mul_le_mul (show 40 * qp - 1 ≤ 2519 by omega) hpeak
    rw [thresh_odd h]
    omega
  · have := Nat.mul_le_mul hpeak hqp
    obtain ⟨-, hroot⟩ := sqrt_mixed_bounds (peak * qp)
    rw [thresh_mixed h]
    omega

/-- The peak of a legal format (R27, R28). -/
theorem legalPeak_bounds (h : peak = 255 ∨ ∃ b, 9 ≤ b ∧ b ≤ 16 ∧ peak = 2 ^ b - 1) :
    255 ≤ peak ∧ peak ≤ 65535 := by
  obtain rfl | ⟨b, h9, h16, rfl⟩ := h
  · decide
  · have hlo : 2 ^ 9 ≤ 2 ^ b := Nat.pow_le_pow_right (by norm_num) h9
    have hhi : 2 ^ b ≤ 2 ^ 16 := Nat.pow_le_pow_right (by norm_num) h16
    omega

/-! ### The formula rounded (R204, C1) -/

/-- Rounding a quotient by 255, with the division of R204. -/
theorem round_div_255 {x : ℝ} {n : ℤ} (h : ⌊2 * x + 255⌋ = n) : round (x / 255) = n / 510 := by
  rw [round_eq, show x / 255 + 1 / 2 = (2 * x + 255) / (510 : Nat) by push_cast; ring,
    Int.floor_div_natCast, h]
  rfl

/-- The class `A·B·4 = c` of the formula, for an integer `c`. -/
theorem round_linear (c : Nat) (hc : 1 ≤ c) (hqp : 1 ≤ qp) :
    round ((c * qp - 1) * peak / 255 : ℝ) = ((2 * ((c * qp - 1) * peak) + 255) / 510 : Nat) := by
  have hcast : ((c * qp - 1 : Nat) : ℝ) = c * qp - 1 := by
    rw [Nat.cast_sub (Nat.mul_pos hc hqp)]; push_cast; ring
  have hfloor : ⌊2 * ((c * qp - 1) * peak : ℝ) + 255⌋ =
      ((2 * ((c * qp - 1) * peak) + 255 : Nat) : ℤ) := by
    rw [← hcast]
    exact_mod_cast Int.floor_natCast (R := ℝ) (2 * ((c * qp - 1) * peak) + 255)
  exact_mod_cast round_div_255 hfloor

/-- The class with one `sqrt(10)`, under the square root of the integer form. -/
theorem round_mixed (hqp : 1 ≤ qp) :
    round ((8 * Real.sqrt 10 * qp - 1) * peak / 255) =
      ((Nat.sqrt (2560 * (peak * qp) ^ 2) - 2 * peak + 255) / 510 : Nat) := by
  have hroot := two_mul_le_sqrt_mixed peak hqp
  have hsqrt : 16 * Real.sqrt 10 * (peak * qp) = Real.sqrt ((2560 * (peak * qp) ^ 2 : Nat) : ℝ) := by
    push_cast
    rw [show (2560 : ℝ) * (peak * qp) ^ 2 = 10 * (16 * (peak * qp)) ^ 2 by ring,
      Real.sqrt_mul (by norm_num), Real.sqrt_sq (by positivity)]
    ring
  have hfloor : ⌊2 * ((8 * Real.sqrt 10 * qp - 1) * peak) + 255⌋ =
      ((Nat.sqrt (2560 * (peak * qp) ^ 2) - 2 * peak + 255 : Nat) : ℤ) := by
    rw [show 2 * ((8 * Real.sqrt 10 * qp - 1) * peak) + 255 =
        16 * Real.sqrt 10 * (peak * qp) + (255 - 2 * peak : ℤ) by push_cast; ring,
      Int.floor_add_intCast, hsqrt, Real.floor_real_sqrt_eq_nat_sqrt]
    omega
  exact_mod_cast round_div_255 hfloor

/-- The product `A·B` of each class. -/
theorem threshFactor_mul (i : Nat) :
    (i % 2 = 0 ∧ i / 4 % 2 = 0 → threshFactor (i % 2) * threshFactor (i / 4 % 2) = 4) ∧
      (i % 2 = 1 ∧ i / 4 % 2 = 1 → threshFactor (i % 2) * threshFactor (i / 4 % 2) = 10) ∧
      (i % 2 ≠ i / 4 % 2 → threshFactor (i % 2) * threshFactor (i / 4 % 2) = 2 * Real.sqrt 10) := by
  refine ⟨fun ⟨h, h'⟩ => ?_, fun ⟨h, h'⟩ => ?_, fun h => ?_⟩
  · rw [h, h']
    norm_num [threshFactor]
  · rw [h, h']
    norm_num [threshFactor]
  · have hbits : (i % 2 = 0 ∧ i / 4 % 2 = 1) ∨ (i % 2 = 1 ∧ i / 4 % 2 = 0) := by omega
    rcases hbits with ⟨h, h'⟩ | ⟨h, h'⟩
    · rw [h, h']
      norm_num [threshFactor]
    · rw [h, h']
      norm_num [threshFactor, mul_comm]

/-- The integer forms of R204 are the formula rounded to the nearest integer. -/
theorem thresh_eq_round (i : Nat) (hqp : 1 ≤ qp) :
    (thresh qp peak i : ℤ) = round (threshReal qp peak i) := by
  obtain ⟨heven, hodd, hmixed⟩ := threshFactor_mul i
  rcases index_class i with h | h | h
  · rw [thresh_even h, ← round_linear 16 (by norm_num) hqp, threshReal, heven h]
    congr 1
    push_cast
    ring
  · rw [thresh_odd h, ← round_linear 40 (by norm_num) hqp, threshReal, hodd h]
    congr 1
    push_cast
    ring
  · rw [thresh_mixed h, ← round_mixed hqp, threshReal, hmixed h]
    congr 1
    ring

end

/-! ### `SETQP` with a legal format (R204) -/

/-- The formats of the claims about `SETQP`, with their peak (R27, R28). -/
theorem formatOf_of_peak {s : State} {bytes peak : Nat}
    (h : IntFormat s bytes peak ∨ (FltFormat s ∧ peak = 255)) :
    ∃ f, formatOf s.fmt = some f ∧ peakOf f = peak := by
  rcases h with h | ⟨h, rfl⟩
  · obtain ⟨f, hf, -, -, hp⟩ := intFormat_iff.1 h
    exact ⟨f, hf, hp⟩
  · exact ⟨.f32, fltFormat_iff.1 h, rfl⟩

theorem exec_setqp_of_pos {s : State} {f : SampleFormat} {qp : Nat} (hf : formatOf s.fmt = some f)
    (hqp : 1 ≤ qp) :
    exec (.setqp qp) s = .next (complete (installThr (threshTable qp (peakOf f)) qp s)) := by
  rw [exec, execSetqp, hf]
  exact if_neg (by omega)

/-- The peak of a format that `formatOf` knows (R27). -/
theorem peakOf_le {s : State} {f : SampleFormat} (hf : formatOf s.fmt = some f) : peakOf f ≤ 65535 := by
  cases f with
  | u8 => decide
  | f32 => decide
  | u16 b =>
    obtain ⟨-, h9, h16, -⟩ := formatOf_u16.1 hf
    exact (legalPeak_bounds (.inr ⟨b, h9, h16, rfl⟩)).2

/-- No threshold of a table wraps in its register. -/
theorem toNat_getElem_threshTable {qp peak : Nat} (hpeak : peak ≤ 65535) (hqp : qp ≤ 63) (i : Fin 16) :
    (threshTable qp peak)[i].toNat = thresh qp peak i.val := by
  rw [threshTable, getElem_sixteen, BitVec.toNat_ofNat]
  exact Nat.mod_eq_of_lt ((thresh_le hpeak hqp).trans_lt (by norm_num))

end Sys2Proof.Machine
end

section
open Sys2Proof Sys2Proof.Machine Sys2Proof.Claims

/-- Settles O28: in each class the integer form is the formula rounded, and fits its register. -/
theorem setqpInstallsRoundedThresholds : Obligations.SetqpInstallsRoundedThresholds := by
  intro s qp bytes peak hqp hqp' hfmt
  obtain ⟨f, hf, rfl⟩ := formatOf_of_peak hfmt
  refine ⟨_, exec_setqp_of_pos hf hqp, fun i => ?_, rfl⟩
  rw [← thresh_eq_round i.val hqp, ← toNat_getElem_threshTable (peakOf_le hf) hqp' i]
  rfl

/-- Settles O29: each numerator of R204 grows by at least its divisor 510. -/
theorem thresholdsIncreaseWithQp : Obligations.ThresholdsIncreaseWithQp := by
  intro qp peak i hpeak hqp _
  obtain ⟨hlo, hhi⟩ := legalPeak_bounds hpeak
  exact ⟨fun _ => thresh_lt_succ hlo hqp, thresh_le hhi⟩

end

section
/-! SUPPORT. `RUN`: how it ends at a check (R207), and that its two phases run in step from two cores that
differ only in scratch storage and diagnostic registers (R209). -/

namespace Sys2Proof.Machine

open Sys2Proof.Claims

/-! ### The checks (R207) -/

section
variable {s : State}

/-- A `RUN` that a check refuses ends there, with no effect but the record. -/
theorem exec_run_of_refused {c : ErrCode} (h : runCheck s = some c) : exec .run s = .next (failed c s) := by
  rw [exec, execRun, runStart, h]
  exact congrArg Host.Outcome.next (runToEnd_of_idle (raiseError c 0 s) rfl)

theorem runCheck_badFormat (h : formatOf s.fmt = none) : runCheck s = some .badFormat := by
  rw [runCheck, h]

variable {f : SampleFormat} (hf : formatOf s.fmt = some f)
include hf

theorem runCheck_badGeometry (hg : badGeometry f s = true) : runCheck s = some .badGeometry := by
  simp [runCheck, hf, hg]

theorem runCheck_capacity (hg : badGeometry f s = false) (hc : overCapacity f s = true) :
    runCheck s = some .capacity := by
  simp [runCheck, hf, hg, hc]

theorem runCheck_noThr (hg : badGeometry f s = false) (hc : overCapacity f s = false)
    (ht : s.status.thrValid = false) : runCheck s = some .noThr := by
  simp [runCheck, hf, hg, hc, ht]

end

/-! ### Cores that differ in scratch and diagnostics only (R209) -/

/-- The core with its scratch storage and its diagnostic registers cleared. -/
def withoutScratch (s : State) : State :=
  { s with
    ext := [], colc := [], block := State.reset.block, accV := State.reset.accV, di := State.reset.di
    dout := State.reset.dout, accLo := 0, accHi := 0, qp := 0 }

/-- Two cores agree in all but scratch storage and diagnostic registers. -/
def SameButScratch (a b : State) : Prop := withoutScratch a = withoutScratch b

theorem withoutScratch_extendNext (s : State) :
    withoutScratch (extendNext s) = extendNext (withoutScratch s) := by
  simp only [extendNext, apply_ite withoutScratch]
  rfl

theorem withoutScratch_filterNext (s : State) :
    withoutScratch (filterNext s) = filterNext (withoutScratch s) := by
  simp only [filterNext, apply_ite withoutScratch]
  rfl

/-- A read of `EXTEND` leaves of the core what it would leave of the cleared one. -/
theorem withoutScratch_extendTick (f : SampleFormat) (s : State) :
    withoutScratch (extendTick f s) = withoutScratch (extendTick f (withoutScratch s)) := by
  simp only [extendTick, apply_ite withoutScratch, withoutScratch_extendNext]
  rfl

/-- The work and the store of an output sample reach memory, the log and the draws outside the scratch. -/
theorem withoutScratch_filterStored (f : SampleFormat) (s : State) (a n : Nat) (w : Word) :
    withoutScratch (filterStored f s a n w) =
      storeSample a n w (drawOn (portIssue true a n (withoutScratch s))) := rfl

namespace SameButScratch

variable {a b : State} (h : SameButScratch a b)
include h

/-- What does not see scratch and diagnostics is the same for both. -/
theorem eq_of_ignores {α : Type} {g : State → α} (hg : ∀ s, g (withoutScratch s) = g s) :
    g a = g b := by
  rw [← hg a, ← hg b, h]

theorem params : a.params = b.params := h.eq_of_ignores (g := State.params) fun _ => rfl
theorem status : a.status = b.status := h.eq_of_ignores (g := State.status) fun _ => rfl
theorem errAddr : a.errAddr = b.errAddr := h.eq_of_ignores (g := State.errAddr) fun _ => rfl
theorem fmt : a.fmt = b.fmt := h.eq_of_ignores (g := State.fmt) fun _ => rfl
theorem planeW : a.planeW = b.planeW := h.eq_of_ignores (g := State.planeW) fun _ => rfl
theorem planeH : a.planeH = b.planeH := h.eq_of_ignores (g := State.planeH) fun _ => rfl
theorem phase : a.phase = b.phase := h.eq_of_ignores (g := State.phase) fun _ => rfl
theorem row : a.row = b.row := h.eq_of_ignores (g := State.row) fun _ => rfl
theorem col : a.col = b.col := h.eq_of_ignores (g := State.col) fun _ => rfl
theorem mem : a.mem = b.mem := h.eq_of_ignores (g := State.mem) fun _ => rfl
theorem port : a.port = b.port := h.eq_of_ignores (g := State.port) fun _ => rfl
theorem drawn : a.drawn = b.drawn := h.eq_of_ignores (g := State.drawn) fun _ => rfl

theorem badGeometry (f : SampleFormat) : badGeometry f a = Machine.badGeometry f b :=
  h.eq_of_ignores (g := (Machine.badGeometry f)) fun _ => rfl

theorem srcAddr (f : SampleFormat) (y x : Nat) : srcAddr f a y x = Machine.srcAddr f b y x :=
  h.eq_of_ignores (g := (Machine.srcAddr f · y x)) fun _ => rfl

theorem dstAddr (f : SampleFormat) (y x : Nat) : dstAddr f a y x = Machine.dstAddr f b y x :=
  h.eq_of_ignores (g := (Machine.dstAddr f · y x)) fun _ => rfl

theorem sourceSample (f : SampleFormat) (y x : Nat) :
    sourceSample f a y x = Machine.sourceSample f b y x :=
  h.eq_of_ignores (g := (Machine.sourceSample f · y x)) fun _ => rfl

theorem scoreOf (n : Nat) (flt : Bool) (block : Vector Coef 16) :
    scoreOf n flt a block = Machine.scoreOf n flt b block :=
  h.eq_of_ignores (g := (Machine.scoreOf n flt · block)) fun _ => rfl

theorem quantOf (n : Nat) (f : SampleFormat) (v : Coef) : quantOf n f a v = Machine.quantOf n f b v :=
  h.eq_of_ignores (g := (Machine.quantOf n f · v)) fun _ => rfl

theorem filterNext : SameButScratch (filterNext a) (filterNext b) := by
  rw [SameButScratch, withoutScratch_filterNext, withoutScratch_filterNext, h]

theorem filterStored (f : SampleFormat) (p n : Nat) (w : Word) :
    SameButScratch (filterStored f a p n w) (filterStored f b p n w) := by
  rw [SameButScratch, withoutScratch_filterStored, withoutScratch_filterStored, h]

theorem raiseError (c : ErrCode) (p : Word) : SameButScratch (raiseError c p a) (raiseError c p b) :=
  congrArg (Machine.raiseError c p) h

theorem runTick_of_extend (hp : a.phase = .extend) : SameButScratch (runTick a) (runTick b) := by
  rw [runTick, runTick, ← h.phase, ← h.fmt, hp]
  dsimp only
  cases formatOf a.fmt with
  | none => exact h.raiseError _ _
  | some f =>
    show withoutScratch (extendTick f a) = withoutScratch (extendTick f b)
    rw [withoutScratch_extendTick, h, ← withoutScratch_extendTick]

/-- Two cores that have ended have nothing left to differ in. -/
theorem runToEnd_of_idle (hp : a.phase = .idle) : SameButScratch (runToEnd a) (runToEnd b) := by
  rwa [Machine.runToEnd_of_idle a hp, Machine.runToEnd_of_idle b (h.phase.symm.trans hp)]

end SameButScratch

/-! ### The datapath on two buffers that agree -/

/-- Two buffers hold the same extended plane (R101). -/
def SameBuffer (W H : Nat) (e e' : List Word) : Prop :=
  ∀ r < H + 16, ∀ c < W + 16, extAt (W + 16) e r c = extAt (W + 16) e' r c

/-- Two Stage-A stores agree in their first `m` slots. -/
def SameSlots (m : Nat) (cs cs' : List (Quad Coef)) : Prop := ∀ k < m, slotAt cs k = slotAt cs' k

section
variable {W H y : Nat} {e e' : List Word} (he : SameBuffer W H e e') (hy : y < H)
include he hy

theorem SameBuffer.stageA (n : Nat) (flt : Bool) {c : Nat} (hc : c < W + 16) :
    stageA n flt (W + 16) e (y + 5) c = Machine.stageA n flt (W + 16) e' (y + 5) c := by
  have hcolumn : columnOf (W + 16) e (y + 5) c = columnOf (W + 16) e' (y + 5) c := by
    unfold columnOf
    rw [he _ (by omega) c hc, he _ (by omega) c hc, he _ (by omega) c hc, he _ (by omega) c hc,
      he _ (by omega) c hc, he _ (by omega) c hc, he _ (by omega) c hc]
  rw [Machine.stageA, hcolumn, ← Machine.stageA]

/-- A Stage-A group extends the slots that agree by four. -/
theorem SameSlots.group {m : Nat} {cs cs' : List (Quad Coef)} (h : SameSlots m cs cs') (n : Nat)
    (flt : Bool) (hm : m + 8 < W + 16) :
    SameSlots (m + 4) (stageAGroup n flt (W + 16) e y m cs) (stageAGroup n flt (W + 16) e' y m cs') := by
  intro k hk
  rw [slotAt_stageAGroup, slotAt_stageAGroup]
  split_ifs with hin
  · exact he.stageA hy _ _ (by omega)
  · exact h k (by omega)

/-- The schedule of R126 makes the slots of output `x` agree, if those of the output before it do. -/
theorem SameSlots.schedule {x : Nat} {cs cs' : List (Quad Coef)} (hx : x < W) (n : Nat) (flt : Bool)
    (h : x ≠ 0 → SameSlots (slotsAfter (x - 1)) cs cs') :
    SameSlots (slotsAfter x) (stageASchedule n flt (W + 16) e y x cs)
      (stageASchedule n flt (W + 16) e' y x cs') := by
  have hnone : SameSlots 0 cs cs' := fun k hk => absurd hk (Nat.not_lt_zero k)
  unfold stageASchedule
  dsimp only
  by_cases hx0 : x = 0
  · subst hx0
    exact ((hnone.group he hy n flt (by omega)).group he hy _ flt (by omega)).group he hy _ flt (by omega)
  · rw [if_neg hx0, if_neg hx0]
    split_ifs with hgroup
    · have hbefore : slotsAfter (x - 1) = x + 8 := by unfold slotsAfter; omega
      have hafter : slotsAfter x = x + 8 + 4 := by unfold slotsAfter; omega
      rw [hafter]
      exact SameSlots.group he hy (hbefore ▸ h hx0) _ flt (by omega)
    · have hafter : slotsAfter x = slotsAfter (x - 1) := by unfold slotsAfter; omega
      rw [hafter]
      exact h hx0

end

/-- Stage B of output `x` reads slots that agree (R141). -/
theorem SameSlots.sevenSlots {x : Nat} {cs cs' : List (Quad Coef)} (h : SameSlots (slotsAfter x) cs cs') :
    sevenSlots cs x = Machine.sevenSlots cs' x := by
  have hslot : ∀ k < 7, slotAt cs (x + k) = slotAt cs' (x + k) := fun k hk =>
    h _ (add_lt_slotsAfter x hk)
  unfold Machine.sevenSlots
  rw [hslot 1 (by decide), hslot 2 (by decide), hslot 3 (by decide), hslot 4 (by decide),
    hslot 5 (by decide), hslot 6 (by decide), ← Nat.add_zero x, hslot 0 (by decide)]

/-! ### `FILTER` on two cores in step -/

/-- Two cores before the same write of `FILTER`, that differ only in scratch that no later output reads. -/
structure FilterInStep (f : SampleFormat) (a b : State) : Prop where
  same : SameButScratch a b
  format : formatOf a.fmt = some f
  phase : a.phase = .filter
  rowLt : a.row < a.planeH
  colLt : a.col < a.planeW
  buffer : SameBuffer a.planeW a.planeH a.ext b.ext
  slots : a.col ≠ 0 → SameSlots (slotsAfter (a.col - 1)) a.colc b.colc

/-- The step of `FILTER` by its store. -/
theorem runTick_of_filter {s : State} {f : SampleFormat} (hf : formatOf s.fmt = some f)
    (hp : s.phase = .filter) :
    runTick s =
      if busFaultAt s.params (dstAddr f s s.row s.col) true then
        raiseError .busError (BitVec.ofNat 32 (dstAddr f s s.row s.col))
          (filterStored f s (dstAddr f s s.row s.col) (sampleBytes f) (Config.freeMem s.drawn))
      else
        filterNext (filterStored f s (dstAddr f s s.row s.col) (sampleBytes f)
          (quantOf s.drawn f s (filterCompute f s).accV)) := by
  rw [runTick, hp]
  dsimp only
  rw [hf]
  rfl

/-- The store of an output sample moves nothing in the sequencer, and leaves the slots of its work. -/
theorem filterStored_sequencer (f : SampleFormat) (s : State) (a n : Nat) (w : Word) :
    (filterStored f s a n w).phase = s.phase ∧ (filterStored f s a n w).row = s.row ∧
      (filterStored f s a n w).col = s.col ∧ (filterStored f s a n w).ext = s.ext ∧
      (filterStored f s a n w).colc = (filterCompute f s).colc := by
  unfold filterStored
  simp only [storeSample_phase, drawOn_phase, portIssue_phase, filterCompute_phase, storeSample_row,
    drawOn_row, portIssue_row, filterCompute_row, storeSample_col, drawOn_col, portIssue_col,
    filterCompute_col, storeSample_ext, drawOn_ext, portIssue_ext, filterCompute_ext, storeSample_colc,
    drawOn_colc, portIssue_colc, and_self]

/-- The next output sample finds the buffer and the Stage-A store as this one left them. -/
theorem filterNext_scratch (s : State) : (filterNext s).ext = s.ext ∧ (filterNext s).colc = s.colc := by
  rcases filterNext_cases s with ⟨-, he⟩ | ⟨-, -, he⟩ | ⟨-, -, he⟩ <;> rw [he]
  · exact ⟨rfl, rfl⟩
  · exact ⟨rfl, rfl⟩
  · exact ⟨rfl, rfl⟩

section
variable {f : SampleFormat} {a b : State}

/-- Both cores compute the same slots and the same output word (R208). -/
theorem FilterInStep.word (h : FilterInStep f a b) :
    SameSlots (slotsAfter a.col) (filterCompute f a).colc (filterCompute f b).colc ∧
      quantOf a.drawn f a (filterCompute f a).accV = quantOf b.drawn f b (filterCompute f b).accV := by
  have hslots : SameSlots (slotsAfter a.col) (filterCompute f a).colc (filterCompute f b).colc := by
    rw [filterCompute_colc, filterCompute_colc, ← h.same.drawn, ← h.same.planeW,
      ← h.same.row, ← h.same.col]
    exact SameSlots.schedule h.buffer h.rowLt h.colLt _ _ h.slots
  refine ⟨hslots, ?_⟩
  rw [filterCompute_accV, filterCompute_accV, filterCompute_block, filterCompute_block, ← h.same.drawn,
    ← h.same.col, hslots.sevenSlots, h.same.scoreOf, h.same.quantOf]

/-- Two cores in step that have stored the same sample move to the next one in step, or both end. -/
theorem filterNext_inStep (h : SameButScratch a b) (hf : formatOf a.fmt = some f) (hp : a.phase = .filter)
    (hrow : a.row < a.planeH) (hcol : a.col < a.planeW) (hbuf : SameBuffer a.planeW a.planeH a.ext b.ext)
    (hslots : SameSlots (slotsAfter a.col) a.colc b.colc) :
    (filterNext a).phase = .idle ∨ FilterInStep f (filterNext a) (filterNext b) := by
  have hsame := h.filterNext
  obtain ⟨hext, hcolc⟩ := filterNext_scratch b
  rcases filterNext_cases a with ⟨hnext, he⟩ | ⟨-, hnext, he⟩ | ⟨-, -, he⟩ <;> rw [he] at hsame ⊢
  · exact .inr ⟨hsame, hf, hp, hrow, hnext, by rw [hext]; exact hbuf,
      fun _ => by rw [hcolc]; exact hslots⟩
  · exact .inr ⟨hsame, hf, hp, hnext, Nat.zero_lt_of_lt hcol, by rw [hext]; exact hbuf,
      fun h0 => absurd rfl h0⟩
  · exact .inl rfl

/-- The store of the same word leaves both cores in step at the next sample, or ends both. -/
theorem FilterInStep.stored (h : FilterInStep f a b) (p n : Nat) (w : Word) :
    (filterNext (filterStored f a p n w)).phase = .idle ∨
      FilterInStep f (filterNext (filterStored f a p n w)) (filterNext (filterStored f b p n w)) := by
  obtain ⟨hphase, hrow, hcol, hext, hcolc⟩ := filterStored_sequencer f a p n w
  obtain ⟨-, -, -, hext', hcolc'⟩ := filterStored_sequencer f b p n w
  have hframe := filterStored_frame f a p n w
  refine filterNext_inStep (h.same.filterStored f p n w) ?_ ?_ ?_ ?_ ?_ ?_
  · rw [hframe.fmt, h.format]
  · rw [hphase, h.phase]
  · rw [hrow, hframe.planeH]
    exact h.rowLt
  · rw [hcol, hframe.planeW]
    exact h.colLt
  · rw [hframe.planeW, hframe.planeH, hext, hext']
    exact h.buffer
  · rw [hcol, hcolc, hcolc']
    exact h.word.1

/-- One write of both cores keeps them in step, or ends both. -/
theorem FilterInStep.runTick (h : FilterInStep f a b) :
    SameButScratch (runTick a) (runTick b) ∧
      ((runTick a).phase = .idle ∨ FilterInStep f (runTick a) (runTick b)) := by
  have hword := h.word.2
  have hstored := h.same.filterStored f (dstAddr f a a.row a.col) (sampleBytes f)
  rw [runTick_of_filter h.format h.phase,
    runTick_of_filter (h.same.fmt ▸ h.format) (h.same.phase.symm.trans h.phase), ← h.same.params,
    ← h.same.row, ← h.same.col, ← h.same.dstAddr, ← hword, ← h.same.drawn]
  split_ifs
  · exact ⟨(hstored _).raiseError _ _, .inl rfl⟩
  · exact ⟨(hstored _).filterNext, h.stored _ _ _⟩

theorem FilterInStep.runToEnd (h : FilterInStep f a b) (n : Nat) (hn : ticksLeft a ≤ n) :
    SameButScratch (runToEnd a) (runToEnd b) := by
  induction n generalizing a b with
  | zero => simp [ticksLeft, h.phase] at hn
  | succ n ih =>
    have hleft := ticksLeft_runTick a (.inr h.phase)
    rw [← runToEnd_runTick a (.inr h.phase),
      ← runToEnd_runTick b (.inr (h.same.phase.symm.trans h.phase))]
    obtain ⟨hsame, hidle | hstep⟩ := h.runTick
    · exact hsame.runToEnd_of_idle hidle
    · exact ih hstep (by omega)

end

/-! ### `EXTEND` on two cores in step -/

section
variable {f : SampleFormat} {s s' : State} (h0 : SameButScratch s s') (hf : formatOf s.fmt = some f)
  (hg : badGeometry f s = false)
include h0

/-- Both cores read the same plane, so complete buffers agree. -/
theorem BufferDone.same {e e' : List Word} (he : BufferDone f s e) (he' : BufferDone f s' e') :
    SameBuffer s.planeW s.planeH e e' := by
  intro r hr c hc
  have hcell := he' r (by rwa [← h0.planeH]) c (by rwa [← h0.planeW])
  rw [← h0.planeH, ← h0.planeW, ← h0.sourceSample] at hcell
  rw [he r hr c hc, hcell]

include hf hg

/-- Two `RUN`s in step in `EXTEND` end alike: a read that fails ends both, and after the last one they are in
step in `FILTER`. -/
theorem ExtendInv.runToEnd_same (n : Nat) {y x : Nat} {a b : State} (ha : ExtendInv f s y x a)
    (hb : ExtendInv f s' y x b) (h : SameButScratch a b) (hn : ticksLeft a ≤ n) :
    SameButScratch (runToEnd a) (runToEnd b) := by
  have hf' : formatOf s'.fmt = some f := h0.fmt ▸ hf
  have hg' : badGeometry f s' = false := (h0.badGeometry f).symm.trans hg
  have hW := h0.planeW
  have hH := h0.planeH
  induction n generalizing y x a b with
  | zero => simp [ticksLeft, ha.phase] at hn
  | succ n ih =>
    have hleft := ticksLeft_runTick a (.inl ha.phase)
    have hsame := h.runTick_of_extend ha.phase
    rw [← runToEnd_runTick a (.inl ha.phase), ← runToEnd_runTick b (.inl hb.phase)]
    cases hbus : busFaultAt s.params (srcAddr f s y x) false with
    | true => exact hsame.runToEnd_of_idle (by rw [ha.fails hf hbus]; rfl)
    | false =>
      have hbus' : busFaultAt s'.params (srcAddr f s' y x) false = false := by
        rwa [← h0.params, ← h0.srcAddr]
      rcases ha.step hf hg hbus with
          ⟨hx, ha'⟩ | ⟨hx, hy, ha'⟩ | ⟨hx, hy, hfr, hp, hr, hc, -, -, -, hbuf, -⟩ <;>
        rcases hb.step hf' hg' hbus' with
          ⟨hx', hb'⟩ | ⟨hx', hy', hb'⟩ | ⟨hx', hy', -, -, -, -, -, -, -, hbuf', -⟩
      · exact ih ha' hb' hsame (by omega)
      · omega
      · omega
      · omega
      · exact ih ha' hb' hsame (by omega)
      · omega
      · omega
      · omega
      · have hstep : FilterInStep f (runTick a) (runTick b) :=
          { same := hsame
            format := by rw [hfr.fmt, hf]
            phase := hp
            rowLt := by have := ha.rowLt; rw [hr, hfr.planeH]; omega
            colLt := by have := ha.colLt; rw [hc, hfr.planeW]; omega
            buffer := by rw [hfr.planeW, hfr.planeH]; exact hbuf.same h0 hbuf'
            slots := fun hne => absurd hc hne }
        exact hstep.runToEnd _ le_rfl

end

/-- `RUN`s that start alike but for scratch and diagnostics end alike but for them. -/
theorem runToEnd_beginExtend_same {f : SampleFormat} {s s' : State} (hf : formatOf s.fmt = some f)
    (hg : badGeometry f s = false) (h : SameButScratch (beginExtend s) (beginExtend s')) :
    SameButScratch (runToEnd (beginExtend s)) (runToEnd (beginExtend s')) := by
  have hg' : badGeometry f (beginExtend s') = false := (h.badGeometry f).symm.trans hg
  exact ExtendInv.runToEnd_same h hf hg _ (ExtendInv.start (s := beginExtend s) hg)
    (ExtendInv.start hg') h le_rfl

/-- Two `RUN`s that pass their checks do alike, whatever scratch, diagnostics and indices they find (R209). -/
theorem exec_run_same {s s' t t' : State} {bytes : Nat} (ht : exec .run s = .next t)
    (ht' : exec .run s' = .next t') (hready : RunReady bytes s) (hready' : RunReady bytes s')
    (h : SameButScratch (beginExtend s) (beginExtend s')) : SameButScratch t t' := by
  obtain ⟨f, -, hf, hg, hrun⟩ := exec_run_of_ready hready
  obtain ⟨-, -, -, -, hrun'⟩ := exec_run_of_ready hready'
  cases hrun.symm.trans ht
  cases hrun'.symm.trans ht'
  exact runToEnd_beginExtend_same hf hg h

end Sys2Proof.Machine
end

section
open Sys2Proof Sys2Proof.Machine Sys2Proof.Claims

/-- Settles O52: each check by the clauses before it, and a refused `RUN` is its error alone. -/
theorem runChecksInOrder : Obligations.RunChecksInOrder := by
  intro s bytes
  refine ⟨fun hbad => ?_, fun hlegal hgeom => ?_, fun hlegal hgeom hcap => ?_,
    fun hlegal hgeom hcap hthr => ?_⟩
  · cases hf : formatOf s.fmt with
    | none => exact exec_run_of_refused (runCheck_badFormat hf)
    | some f => exact absurd (fmtOk_iff.2 ⟨f, hf⟩) hbad
  · obtain ⟨f, hf, rfl⟩ := legalFormat_iff.1 hlegal
    rw [← badGeometry_eq_false_iff, Bool.not_eq_false] at hgeom
    exact exec_run_of_refused (runCheck_badGeometry hf hgeom)
  · obtain ⟨f, hf, rfl⟩ := legalFormat_iff.1 hlegal
    rw [← overCapacity_eq_false_iff, Bool.not_eq_false] at hcap
    exact exec_run_of_refused (runCheck_capacity hf (badGeometry_eq_false_iff.2 hgeom) hcap)
  · obtain ⟨f, hf, rfl⟩ := legalFormat_iff.1 hlegal
    exact exec_run_of_refused (runCheck_noThr hf (badGeometry_eq_false_iff.2 hgeom)
      (overCapacity_eq_false_iff.2 hcap) hthr)

/-- Settles O60: both `RUN`s start at the first sample, and read the same plane before they write. -/
theorem runIgnoresOldScratchAndDiagnostics : Obligations.RunIgnoresOldScratchAndDiagnostics := by
  intro s t t' bytes ext colc block v di dout lo hi qp row col hready hexec hexec'
  have hsame : SameButScratch t t' := exec_run_same hexec hexec' hready hready rfl
  exact ⟨hsame.mem.symm, hsame.status.symm, hsame.errAddr.symm, hsame.port.symm⟩

end

section
/-! SUPPORT. Exceptions: the levels that drive `irq` (R230), the commands that check the format (R221), and the
two checks of `XREAD` (R229). -/

namespace Sys2Proof.Machine

open Sys2Proof.Claims

/-! ### The interrupt output (R230) -/

section
variable (s : State)

theorem irq_iff : s.irq = true ↔
    (s.status.done = true ∧ s.ie.doneIe = true) ∨ (s.status.err = true ∧ s.ie.errIe = true) := by
  simp [State.irq]

theorem irq_of_record_clear {s : State} (hdone : s.status.done = false) (herr : s.status.err = false) :
    s.irq = false := by
  simp [State.irq, hdone, herr]

theorem irq_of_disabled {s : State} (hdone : s.ie.doneIe = false) (herr : s.ie.errIe = false) :
    s.irq = false := by
  simp [State.irq, hdone, herr]

/-- A host write to `IE` is performed whether a command executes or not (R26, R262). -/
theorem serveRegWrite_ie (w : Word) :
    serveRegWrite (s.params.regBase + 0x018) 4 w s = { s with ie := ieOfWord w, response := .written } := by
  cases hb : s.status.busy with
  | false => exact serveRegWrite_reg s w .ie hb
  | true => exact serveRegWrite_busy s w (by decide) (by decide) hb

end

/-! ### Commands that check the format (R221) -/

section
variable {s : State}

/-- A command that needs the format checks it before anything else (R28, R221). -/
theorem exec_badFormat (hf : formatOf s.fmt = none) {i : Instr} (hnop : i ≠ .nop) (hxread : i ≠ .xread) :
    exec i s = .next (failed .badFormat s) := by
  cases i with
  | nop => exact absurd rfl hnop
  | xread => exact absurd rfl hxread
  | run => exact exec_run_of_refused (runCheck_badFormat hf)
  | diagS => exact exec_diagS_badFormat hf
  | setqp qp => rw [exec, execSetqp, hf]; rfl
  | diagA => rw [exec, execDiagA, hf]; rfl
  | diagB => rw [exec, execDiagB, hf]; rfl
  | diagQ => rw [exec, execDiagQ, hf]; rfl

/-! ### The checks of `XREAD` (R107, R229) -/

theorem exec_xread_notExtended (hv : s.status.extValid = false) :
    exec .xread s = .next (failed .notExtended s) := by
  rw [exec, execXread, if_pos hv]
  rfl

theorem exec_xread_badIndex (hv : s.status.extValid = true)
    (h : s.planeH + 16 ≤ (s.diAt 0).toNat ∨ s.planeW + 16 ≤ (s.diAt 1).toNat) :
    exec .xread s = .next (failed .badIndex s) := by
  rw [exec, execXread, if_neg (by simp [hv]), if_pos h]
  rfl

/-- `XREAD` ends with an error of its own, or completes and leaves `ERRCODE` as it was. -/
theorem exec_xread_errCode (s : State) : ∃ t, exec .xread s = .next t ∧
    (t.status.errCode = .notExtended ∨ t.status.errCode = .badIndex ∨
      t.status.errCode = s.status.errCode) := by
  cases hv : s.status.extValid with
  | false => exact ⟨_, exec_xread_notExtended hv, .inl rfl⟩
  | true =>
    by_cases hin : s.planeH + 16 ≤ (s.diAt 0).toNat ∨ s.planeW + 16 ≤ (s.diAt 1).toNat
    · exact ⟨_, exec_xread_badIndex hv hin, .inr (.inl rfl)⟩
    · obtain ⟨hr, hc⟩ := not_or.1 hin
      exact ⟨_, exec_xread_of_inRange hv (not_le.1 hr) (not_le.1 hc), .inr (.inr rfl)⟩

end

end Sys2Proof.Machine
end

section
open Sys2Proof Sys2Proof.Machine Sys2Proof.Claims

/-- Settles O19: each way there leaves both flags of the record clear, or both enables. -/
theorem interruptIsLevelSensitive : Obligations.InterruptIsLevelSensitive := by
  refine ⟨irq_iff, fun s b => rfl, fun s => ?_, fun s => ?_, fun s w hb => ?_, rfl⟩
  · rw [serveRegWrite_status]
    exact irq_of_record_clear (Bool.and_false _) (Bool.and_false _)
  · rw [serveRegWrite_ie]
    exact irq_of_disabled rfl rfl
  · rw [serveRegWrite_cmd w s hb]
    exact irq_of_record_clear rfl rfl

/-- Settles O30: a format that is not legal is one that `formatOf` does not know. -/
theorem illegalFormatRaisesBadFormat : Obligations.IllegalFormatRaisesBadFormat := by
  intro s hbad
  have hf : formatOf s.fmt = none :=
    Option.eq_none_iff_forall_ne_some.2 fun f hf => hbad (fmtOk_iff.2 ⟨f, hf⟩)
  refine ⟨fun i => exec_badFormat hf, ⟨_, nopCompletes s, rfl⟩, fun hnone => ?_⟩
  obtain ⟨t, ht, hcode⟩ := exec_xread_errCode s
  refine ⟨t, ht, fun h => ?_⟩
  simp [h, hnone] at hcode

/-- Settles O31: `DIAG_S` checks the table right after the format, `RUN` as the last of its checks. -/
theorem noTableRaisesNoThr : Obligations.NoTableRaisesNoThr := by
  intro s hthr
  refine ⟨fun hok => ?_, fun bytes hlegal hgeom hcap => ?_⟩
  · obtain ⟨f, hf⟩ := fmtOk_iff.1 hok
    exact exec_diagS_noThr hf hthr
  · obtain ⟨-, -, -, hnoThr⟩ := runChecksInOrder s bytes
    exact hnoThr hlegal hgeom hcap hthr

/-- Settles O41: the two checks of `XREAD`, in their order. -/
theorem xreadRaisesItsErrors : Obligations.XreadRaisesItsErrors := by
  intro s
  refine ⟨exec_xread_notExtended, fun hv hout => ?_⟩
  rw [← diAt_eq s (by omega), ← diAt_eq s (by omega)] at hout
  exact exec_xread_badIndex hv hout

end

section
/-! SUPPORT. Reset and hazards: the first command after reset (R254), memory under the reset input (R251), and
the host writes that a command in flight turns away (R262). -/

namespace Sys2Proof.Machine

open Sys2Proof.Claims

/-! ### The first command (R254) -/

/-- A command is one whole word, so a word that comes as a number comes back (R81). -/
theorem commandWord_toNat (w : Word) : commandWord 32 w.toNat = w := by
  rw [commandWord, Nat.mod_eq_of_lt w.isLt, BitVec.ofNat_toNat, BitVec.setWidth_eq]

/-- The word of a well-formed command runs that command, on the core that was idle and issued it (R200). -/
theorem step_withFetchWord {i : Instr} (hwf : i.wf = true) (s : State) :
    step (s.withFetchWord 32 (encode i).toNat) =
      exec i (issued (encode i) s.script (s.withFetchWord 32 (encode i).toNat)) :=
  stepIssuesAndRunsCommand _ _ _ _ rfl
    (by rw [State.withFetchWord, commandWord_toNat]; rfl) (decodeOfEncodeIsIdentity i hwf)

/-- A command that ends with an error leaves the core idle, with the code in its record (R226). -/
theorem failed_record (code : ErrCode) (s : State) :
    Idle (failed code s) ∧ (failed code s).status.err = true ∧ (failed code s).status.errCode = code :=
  ⟨⟨rfl, rfl⟩, rfl, rfl⟩

/-! ### Memory under reset (R251) -/

/-- Only a `RUN` in `FILTER` has a write that a reset can cut short. -/
theorem memAfterReset_of_phase_ne {s : State} (h : s.phase ≠ .filter) : memAfterReset s = s.mem := by
  unfold memAfterReset
  split
  next hfilter _ => exact absurd hfilter h
  next => rfl

/-- A reset during `FILTER` writes the sample that is next, with free bytes (I9). -/
theorem memAfterReset_of_filter {s : State} {f : SampleFormat} (h : s.phase = .filter)
    (hf : formatOf s.fmt = some f) :
    memAfterReset s =
      memWrite s.mem (dstAddr f s s.row s.col) (sampleBytes f) (Config.freeMem s.drawn) := by
  rw [memAfterReset, h, hf]

/-- A reset leaves every byte but those of the sample that is next to be written. -/
theorem readByte_memAfterReset {s : State} {f : SampleFormat} {a : Nat} (hf : formatOf s.fmt = some f)
    (ha : a < dstAddr f s s.row s.col ∨ dstAddr f s s.row s.col + sampleBytes f ≤ a) :
    readByte (memAfterReset s) a = readByte s.mem a := by
  by_cases hfilter : s.phase = .filter
  · rw [memAfterReset_of_filter hfilter hf, readByte_memWrite_other _ ha]
  · rw [memAfterReset_of_phase_ne hfilter]

/-! ### Writes to a busy core (R262) -/

/-- A write that reaches neither `STATUS` nor `IE` of a busy core only sets `WOVR`. -/
theorem writeRegBusy_dropped {r : Option Reg} (hstatus : r ≠ some .status) (hie : r ≠ some .ie)
    (w : Word) (s : State) :
    writeRegBusy r w s = { s with status := { s.status with wovr := true } } := by
  unfold writeRegBusy
  split
  next => exact absurd rfl hstatus
  next => exact absurd rfl hie
  next => rfl

/-- No other offset answers for a register than its own. -/
theorem regAt_ne_of_ne {off : Nat} {r : Reg} (h : off ≠ regOffset r) : regAt off ≠ some r :=
  fun hr => h (regOffset_of_regAt hr).symm

end Sys2Proof.Machine
end

section
open Sys2Proof Sys2Proof.Machine Sys2Proof.Claims

/-- Settles O11: the format and `EXT_VALID` of reset fail the first check of every command but `NOP`. -/
theorem commandsRightAfterReset : Obligations.CommandsRightAfterReset := by
  intro i hwf
  rw [step_withFetchWord hwf]
  generalize hs : issued (encode i) _ _ = s
  have hfmt : formatOf s.fmt = none := by rw [← hs]; rfl
  have hext : s.status.extValid = false := by rw [← hs]; rfl
  have herr : s.status.err = false := by rw [← hs]; rfl
  by_cases hnop : i = .nop
  · subst hnop
    exact ⟨_, nopCompletes s, ⟨rfl, rfl⟩, fun _ => ⟨rfl, herr⟩, nofun,
      fun h => absurd rfl h⟩
  by_cases hxread : i = .xread
  · subst hxread
    obtain ⟨hidle, hrecord⟩ := failed_record .notExtended s
    exact ⟨_, exec_xread_notExtended hext, hidle, fun h => absurd h hnop, fun _ => hrecord,
      fun _ h => absurd rfl h⟩
  · obtain ⟨hidle, hrecord⟩ := failed_record .badFormat s
    exact ⟨_, exec_badFormat hfmt hnop hxread, hidle, fun h => absurd h hnop, fun h => absurd h hxread,
      fun _ _ => hrecord⟩

/-- Settles O12: the reset input leaves a core at reset, over the memory of `memAfterReset`. -/
theorem resetAbortsRun : Obligations.ResetAbortsRun := by
  intro s bytes hlegal
  obtain ⟨f, hf, rfl⟩ := legalFormat_iff.1 hlegal
  have hreset := atReset_resetSignal s
  exact ⟨resetSignal s, rfl, hreset.idle, rfl, rfl, hreset.irq, memAfterReset_of_phase_ne,
    fun _ ha => readByte_memAfterReset hf ha⟩

/-- Settles O20: the offset tells whether the write reaches `STATUS` or `IE`; every other one is dropped. -/
theorem busyWritesAreDropped : Obligations.BusyWritesAreDropped := by
  intro s off w hbusy hin hal
  refine ⟨fun hstatus hie => ?_, ?_, ?_⟩
  · rw [serveRegWrite_busy s w hin hal hbusy,
      writeRegBusy_dropped (regAt_ne_of_ne hstatus) (regAt_ne_of_ne hie)]
  · rintro rfl
    exact serveRegWrite_status s w
  · rintro rfl
    rw [serveRegWrite_ie, ieOfWord_eq]

end
